-- ==== Sys2Proof/Word.lean ====
section
/-!
DEFINITION. The word types of the block (00_scope.md rules R12 to R16): bytes of frames, 32-bit host words, 16-bit host
addresses, and the 9-bit byte counts of rules R28, R30, R31, R36 and R37.
-/
namespace Sys2Proof

/-- One byte of a frame, unsigned unless a rule says otherwise (R12, R14). -/
abbrev Byte := BitVec 8

/-- One word of the host bus (R22, R42). -/
abbrev Word := BitVec 32

/-- A byte address of the host register space (R40). -/
abbrev HostAddr := BitVec 16

/-- A byte count as the 9-bit registers `DIN_LEN`, `RES_LEN`, `rx_cnt`, `wlen` and `tx_idx` hold it. -/
abbrev Count := BitVec 9

/-- A client port's index. `NUM_PORTS` is at most 15 (R11, R162), so the model keeps room for 15 ports; the build
parameter says how many of them are there. -/
abbrev PortId := Fin 15

/-- `zext_32` of a byte (R16). -/
def zext32 (b : Byte) : Word := b.setWidth 32

end Sys2Proof
end

