-- ==== Sys2Proof/Syntax.lean ====
section
/-!
DEFINITION. The commands of the block, one constructor per row of spec/opcode_table.json (30_encoding.md rules R64, R65), and
the data types a command can name (rule R68).
-/
namespace Sys2Proof

/-- The seven data types of rule R68. Code 7 is reserved and never produced, so it is no constructor. -/
inductive DataType where
  | rawOnly
  | temp100
  | device
  | datetime
  | l1Settings1
  | l1Settings2
  | l1Info
deriving DecidableEq, Repr, Inhabited

/-- The nine commands of rule R65. Operands are the bytes `A` and `B` of the command word, used as they stand (R69). A
command's byte-sequence operand is no field of the word: it is `DATA_IN[0..DIN_LEN-1]` of the port (R64). -/
inductive Instr where
  /-- `XCHG`: one raw exchange of the request bytes in `DATA_IN` (R126). -/
  | xchg
  /-- `READ`: read and decode one device register (R132). -/
  | read (id : Byte)
  /-- `WRITE_DRY`: build the write frame without sending it (R138). -/
  | writeDry (id offset : Byte)
  /-- `WRITE_COMMIT`: build the write frame and send it (R139). -/
  | writeCommit (id offset : Byte)
  /-- `ENCODE`: build a request frame (R88). -/
  | encode (op id : Byte)
  /-- `VALIDATE`: check a frame's checksum (R90). -/
  | validate
  /-- `CLASSIFY`: look up a register id (R95). -/
  | classify (id : Byte)
  /-- `DECODE`: decode a payload as the data type of this code (R108). -/
  | decode (code : Byte)
  /-- `RAWBYTE`: one raw byte of `RESULT` at a payload-relative offset (R109). -/
  | rawbyte (offset : Byte)
deriving DecidableEq, Repr, Inhabited

end Sys2Proof
end

