-- ==== Sys2Proof/Config.lean ====
section
/-!
DEFINITION. What is fixed when the block is built (00_scope.md rule R11, 70_reset_and_hazards.md rule R162), what the
environment feeds into each clock cycle (rules R19, R21, R22), and the free values of the model: constants with no body, of
which nothing can be proved.
-/
namespace Sys2Proof

/-- One entry of the id table: `(idStart, idEnd, dataType)` (R33, R91). -/
structure IdEntry where
  idStart : Byte
  idEnd : Byte
  dataType : DataType
deriving DecidableEq, Repr, Inhabited

/-- The build parameters of rule R11. `FRAME_MAX` is derived, and `ID_TABLE_LEN` is the length of the table. -/
structure Params where
  /-- `BAUD`, by default 4800: the bit rate of the UART outside the block, which no rule of the block reads (R9, R171;
  93_implementation_defined.md U19). -/
  baud : Nat
  /-- `TICK_HZ`. OPEN. -/
  tickHz : Nat
  /-- `BYTE_TIMEOUT_TICKS`, by default `2 * TICK_HZ`. -/
  byteTimeout : Nat
  /-- `CLIENT_TIMEOUT_TICKS`, by default `5 * TICK_HZ`; 0 disables the client timeout (R121). -/
  clientTimeout : Nat
  /-- `TERM_BIAS`, specified as 4 (R79; 90_conflicts.md C2). -/
  termBias : Nat
  /-- `READ_OPCODE`. OPEN. -/
  readOpcode : Byte
  /-- `WRITE_OPCODE`. OPEN. -/
  writeOpcode : Byte
  /-- `ID_TABLE`, in table order. OPEN. -/
  idTable : List IdEntry
  /-- `NUM_PORTS`. OPEN. -/
  numPorts : Nat
  /-- `QDEPTH`. OPEN. -/
  qDepth : Nat
  /-- `TAG_BITS`. OPEN. -/
  tagBits : Nat
  /-- `RX_FIFO_DEPTH`. OPEN. -/
  rxFifoDepth : Nat
  /-- `RX_FLUSH_ON_ARM`, by default 0. -/
  rxFlushOnArm : Bool
deriving DecidableEq, Repr, Inhabited

/-- `FRAME_MAX = 255 + TERM_BIAS` (R11, R13). -/
def Params.frameMax (c : Params) : Nat := 255 + c.termBias

/-- The build-time constraints of rule R162, and `TICK_HZ` a positive integer (R11). That every table entry's `dataType` is
in 0..6 holds by the type `DataType`. -/
abbrev Params.Valid (c : Params) : Prop :=
  1 ≤ c.tickHz ∧ 1 ≤ c.byteTimeout ∧ (c.termBias = 3 ∨ c.termBias = 4) ∧ c.idTable.length ≤ 255 ∧
    1 ≤ c.numPorts ∧ c.numPorts ≤ 15 ∧ c.numPorts ≤ c.qDepth ∧ c.qDepth + 1 < 2 ^ c.tagBits ∧ 1 ≤ c.rxFifoDepth

/-- `c` with the values rule R11 states or decides: `BAUD` 4800, both budgets from `TICK_HZ`, `TERM_BIAS` 4 and no flush on
arming. -/
def Params.withSpecified (c : Params) : Params :=
  { c with
    baud := 4800, byteTimeout := 2 * c.tickHz, clientTimeout := 5 * c.tickHz, termBias := 4, rxFlushOnArm := false }

/-- A buildable parameter set, used only where `Config.rawBuild` breaks rule R162 (log entry 1). Its values are those
95_test_vectors.md uses, with an empty id table. -/
def Params.fallback : Params :=
  { baud := 4800, tickHz := 1000, byteTimeout := 2000, clientTimeout := 5000, termBias := 4, readOpcode := 0x52,
    writeOpcode := 0x57, idTable := [], numPorts := 2, qDepth := 4, tagBits := 3, rxFifoDepth := 16, rxFlushOnArm := false }

/-- One host-bus access (R22, R42): the bus does one aligned word access per cycle, or none. -/
inductive HostAccess where
  | idle
  | read (addr : HostAddr)
  | write (addr : HostAddr) (data : Word)
deriving DecidableEq, Repr, Inhabited

/-- The block's inputs in one clock cycle (R21, R22). `rx` is `rx_valid` with `rx_data`. `delay` is no pin: it is the draw of
rule R173, how many further cycles the command engine takes before it runs a command accepted in this cycle. -/
structure CycleInput where
  /-- `rst_n` is 1. -/
  rstN : Bool
  /-- `tick`. -/
  tick : Bool
  /-- `tx_ready`. -/
  txReady : Bool
  /-- `rx_data` where `rx_valid` is 1. -/
  rx : Option Byte
  /-- The host bus. -/
  host : HostAccess
  /-- The latency draw for a command accepted in this cycle (R173; 93_implementation_defined.md U16). -/
  delay : Nat
deriving DecidableEq, Repr, Inhabited

/-- A cycle in which nothing comes in: no reset, no tick, no byte, no access, the UART not ready. -/
def CycleInput.quiet : CycleInput :=
  { rstN := true, tick := false, txReady := false, rx := none, host := .idle, delay := 0 }

/-- The byte buffers whose contents after a reset are unspecified (R159; 93_implementation_defined.md U5). -/
inductive BufferId where
  | din (p : PortId)
  | res (p : PortId)
  | wbuf (p : PortId)
  | rxBuf
deriving DecidableEq, Repr

/-- The same-cycle orders that rule R147 and the rest of the spec leave open (log entries 7, 8, 9 and 28). -/
inductive Race where
  /-- A received byte overflows the RX FIFO in the cycle the host clears `RX_OVR`: true, the flag ends set. -/
  | overflowAgainstClear
  /-- A received byte arrives in the cycle that arming flushes the RX FIFO: true, the flush comes first and the byte stays. -/
  | flushAgainstArrival
  /-- Ports submit in the cycle the controller pops: true, the submissions still see the queue with its head. -/
  | submitAgainstPop
  /-- The queue is not empty in the cycle of ARB_REPLY: true, the controller passes through ARB_IDLE in that cycle. -/
  | popAfterReply
deriving DecidableEq, Repr

/-- FREE VALUE: the parameters the block was built with (R11: OPEN; 93_implementation_defined.md U1). -/
opaque Config.rawBuild : Params

/-- FREE VALUE: what the environment does in the n-th cycle once the script of `State` is used up (R19, U14). -/
opaque Config.draw : Nat → CycleInput

/-- FREE VALUE: the bytes a buffer holds after the reset in cycle n (R159, U5). -/
opaque Config.resetBytes : BufferId → Nat → List Byte

/-- FREE VALUE: how an open same-cycle order falls in cycle n. -/
opaque Config.race : Race → Nat → Bool

/-- The build: any parameters that meet rule R162, and no others (U13). -/
def Config.build : Params := if Config.rawBuild.Valid then Config.rawBuild else Params.fallback
end Sys2Proof
end

