-- ==== Sys2Proof/WellFormed.lean ====
section
/-!
DEFINITION. When a command is well formed. Every operand is a byte used as it stands (R69); the one operand that not every
byte may fill is `DECODE`'s type code (R67, R68).
-/
namespace Sys2Proof

/-- `DECODE` needs a type code of 0 to 6; every other operand may be any byte (R67, R68, R69). -/
abbrev Instr.WellFormed (i : Instr) : Prop :=
  match i with
  | .xchg => True
  | .read _ => True
  | .writeDry _ _ => True
  | .writeCommit _ _ => True
  | .encode _ _ => True
  | .validate => True
  | .classify _ => True
  | .decode code => code.toNat ≤ 6
  | .rawbyte _ => True

/-- The same check as a Bool, for evaluation. -/
def Instr.wellFormed (i : Instr) : Bool :=
  match i with
  | .xchg => true
  | .read _ => true
  | .writeDry _ _ => true
  | .writeCommit _ _ => true
  | .encode _ _ => true
  | .validate => true
  | .classify _ => true
  | .decode code => decide (code.toNat ≤ 6)
  | .rawbyte _ => true

end Sys2Proof
end

