-- ==== Sys2Proof/Decode.lean ====
section
/-!
DEFINITION. The command word (30_encoding.md rules R64, R65, R67): its fields, the decoder, total on all 32-bit words and
refusing by name, and after it the encoder of rule R70.
-/
namespace Sys2Proof

/-- `OP`, bits [31:24] of the command word (R64). -/
def cmdOp (w : Word) : Byte := w.extractLsb' 24 8

/-- `A`, bits [23:16] (R64). -/
def cmdA (w : Word) : Byte := w.extractLsb' 16 8

/-- `B`, bits [15:8] (R64). -/
def cmdB (w : Word) : Byte := w.extractLsb' 8 8

/-- `RSV`, bits [7:0], which must be 0 (R64). -/
def cmdRsv (w : Word) : Byte := w.extractLsb' 0 8

/-- Why a command word is no command (R67). A word that is refused completes with `ERR = ARG`. -/
inductive DecodeError where
  /-- `RSV ≠ 0`. -/
  | reservedNonZero
  /-- `OP` is 0x00 or in 0x0A..0xFF. -/
  | undefinedOp (op : Byte)
deriving DecidableEq, Repr

/-- The command map of rule R65: `OP` selects the command, `A` and `B` are its operands, and a field a command does not use
is ignored. `DECODE` with a type code above 6 is read as the ill-formed command it is; its meaning answers `ARG` (R67, R108). -/
def decode (w : Word) : Except DecodeError Instr :=
  if cmdRsv w ≠ 0 then .error .reservedNonZero
  else
    match (cmdOp w).toNat with
    | 0x01 => .ok .xchg
    | 0x02 => .ok (.read (cmdA w))
    | 0x03 => .ok (.writeDry (cmdA w) (cmdB w))
    | 0x04 => .ok (.writeCommit (cmdA w) (cmdB w))
    | 0x05 => .ok (.encode (cmdA w) (cmdB w))
    | 0x06 => .ok .validate
    | 0x07 => .ok (.classify (cmdA w))
    | 0x08 => .ok (.decode (cmdA w))
    | 0x09 => .ok (.rawbyte (cmdB w))
    | _ => .error (.undefinedOp (cmdOp w))

/-- `{OP, A, B, 0x00}` (R70). -/
def packCommand (op a b : Byte) : Word := op ++ a ++ b ++ 0x00#8

/-- The command word of a command, unused fields 0 (R65, R70). -/
def encode (i : Instr) : Word :=
  match i with
  | .xchg => packCommand 0x01 0 0
  | .read id => packCommand 0x02 id 0
  | .writeDry id offset => packCommand 0x03 id offset
  | .writeCommit id offset => packCommand 0x04 id offset
  | .encode op id => packCommand 0x05 op id
  | .validate => packCommand 0x06 0 0
  | .classify id => packCommand 0x07 id 0
  | .decode code => packCommand 0x08 code 0
  | .rawbyte offset => packCommand 0x09 0 offset

/-- The bits of a command word that matter to a command: the `mask` of its row of spec/opcode_table.json with the operand
fields its `encoding` shows. -/
def encodingMask (i : Instr) : Word :=
  match i with
  | .xchg => 0xFF0000FF
  | .read _ => 0xFFFF00FF
  | .writeDry _ _ => 0xFFFFFFFF
  | .writeCommit _ _ => 0xFFFFFFFF
  | .encode _ _ => 0xFFFFFFFF
  | .validate => 0xFF0000FF
  | .classify _ => 0xFFFF00FF
  | .decode _ => 0xFFFF00FF
  | .rawbyte _ => 0xFF00FFFF

/-- The command the decoder reads from the low `nbits` bits of `w`. A command is one 32-bit word, so there is no byte order
to choose. -/
def decodeTableWord (nbits w : Nat) : Option Instr :=
  match decode (BitVec.ofNat 32 (w % 2 ^ nbits)) with
  | .ok i => some i
  | .error _ => none

end Sys2Proof
end

