-- ==== Sys2Proof/Machine/State.lean ====
section
/-!
DEFINITION. The state of the block (10_state.md), as plain data: the registers of every client port, the receive framer, the
arbitration controller, and the model's own fields (the port whose engine runs, the inputs to come, the cycle number, the
bytes handed to the UART); its reset; the outcomes a step can have.
-/
namespace Sys2Proof.Machine

open Sys2Proof

/-- A byte buffer in its frame index space (R40): the bytes that are not 0, at strictly rising indices. An index that is not
listed reads as `unlistedByte`. -/
abbrev Memory := List Host.Cell

/-- What an index nobody has written reads as (log entry 3: the spec leaves it arbitrary, U5). -/
def unlistedByte : Byte := 0

/-- The error tags of rule R143. Codes 7 to 15 are never produced, so they are no constructors. -/
inductive ErrTag where
  | none
  | timeout
  | protocol
  | crc
  | socket
  | bounds
  | arg
deriving DecidableEq, Repr, Inhabited

/-- `seq_state[p]` (R24). `localCmd` is the spec's LOCAL: a command is latched and its engine has not run it yet. -/
inductive SeqState where
  | idle
  | localCmd
  | xchgWait
  | rdWait
  | wrReadWait
  | wrCommitWait
deriving DecidableEq, Repr, Inhabited

/-- `arb_state` (R24). -/
inductive ArbState where
  | idle
  | tx
  | rx
  | reply
deriving DecidableEq, Repr, Inhabited

/-- `rx_state`, in the order of its codes 0 to 7 (R24). -/
inductive RxState where
  | idle
  | awaitMarker
  | awaitHeader1
  | awaitHeader2
  | accum
  | complete
  | errProtocol
  | errTimeout
deriving DecidableEq, Repr, Inhabited

/-- `FIELD0` to `FIELD5` (R30). -/
structure Fields where
  f0 : Word
  f1 : Word
  f2 : Word
  f3 : Word
  f4 : Word
  f5 : Word
deriving DecidableEq, Repr, Inhabited

/-- All six field registers 0. -/
def Fields.zero : Fields := ⟨0, 0, 0, 0, 0, 0⟩

/-- A transport result `(err, crcv, len, raw)` of rule R112; `len` is the length of `raw`. -/
structure TransportResult where
  err : ErrTag
  crcv : Byte
  raw : List Byte
deriving DecidableEq, Repr, Inhabited

/-- An entry `(port, tag, len, bytes)` of the request queue (R37); `len` is the length of `bytes`. -/
structure Request where
  port : PortId
  tag : Nat
  bytes : List Byte
deriving DecidableEq, Repr, Inhabited

/-- A reply `(port, tag, err, crcv, len, raw)` between ARB_RX and ARB_REPLY (R118). -/
structure Reply where
  port : PortId
  tag : Nat
  result : TransportResult
deriving DecidableEq, Repr, Inhabited

/-- The registers and internal state of one client port (R25 to R31). -/
structure Port where
  /-- `CTRL.IE` (R25). -/
  ie : Bool
  /-- `cmd_latch` (R26). -/
  cmdLatch : Word
  /-- `STATUS.BUSY` (R27). -/
  busy : Bool
  /-- `STATUS.DONE` (R27). -/
  done : Bool
  /-- `STATUS.WIGN` (R27). -/
  wign : Bool
  /-- `STATUS.ERR` (R27, R143). -/
  err : ErrTag
  /-- `STATUS.CRCV` (R27, R34). -/
  crcv : Byte
  /-- `DIN_LEN` (R28). -/
  dinLen : Count
  /-- `DATA_IN`, the buffer `din` (R29). -/
  din : Memory
  /-- `RES_LEN` (R30). -/
  resLen : Count
  /-- `RESULT`, the buffer `res` (R30). -/
  res : Memory
  /-- `TYPE` (R30). -/
  dataType : DataType
  /-- `RAWVAL.VALUE` (R30). -/
  rawValue : Byte
  /-- `RAWVAL.VALID` (R30). -/
  rawValid : Bool
  /-- `FIELD0` to `FIELD5` (R30). -/
  fields : Fields
  /-- `seq_state` (R24, R31). -/
  seq : SeqState
  /-- `tag`, below `2 ^ TAG_BITS` (R31). -/
  tag : Nat
  /-- `waiting` (R31). -/
  waiting : Bool
  /-- `wtimer` (R31). -/
  wtimer : Nat
  /-- `wbuf` (R31). -/
  wbuf : Memory
  /-- `wlen` (R31). -/
  wlen : Count
  /-- The model's own: the cycles left before the engine runs the latched command (R173). -/
  delay : Nat
deriving DecidableEq, Repr

/-- A port after reset (R159). The buffers hold what log entry 3 names. -/
def Port.reset : Port where
  ie := false
  cmdLatch := 0
  busy := false
  done := false
  wign := false
  err := .none
  crcv := 0
  dinLen := 0
  din := []
  resLen := 0
  res := []
  dataType := .rawOnly
  rawValue := 0
  rawValid := false
  fields := Fields.zero
  seq := .idle
  tag := 0
  waiting := false
  wtimer := 0
  wbuf := []
  wlen := 0
  delay := 0

/-- What the host bus answered in the last cycle: `h_rdata` and `h_err` of a read, `h_err` of a write (R22). -/
inductive BusResponse where
  | idle
  | read (data : Word) (err : Bool)
  | write (err : Bool)
deriving DecidableEq, Repr, Inhabited

/-- The state of the block between two clock edges. -/
structure State where
  /-- The build parameters, which no access and no reset changes (R11, R33). -/
  cfg : Params
  /-- The client ports. Ports from `NUM_PORTS` on are not there: no access and no agent reaches them. -/
  ports : Vector Port 15
  /-- `ARB_STATUS.RX_OVR` (R32, R35). -/
  rxOvr : Bool
  /-- The RX FIFO `rxq`, oldest byte first (R35). -/
  rxq : List Byte
  /-- `rx_state` (R36). -/
  rxState : RxState
  /-- `rx_buf` (R36). -/
  rxBuf : Memory
  /-- `rx_cnt` (R36). -/
  rxCnt : Count
  /-- `rx_len` (R36). -/
  rxLen : Byte
  /-- `rx_timer` (R36). -/
  rxTimer : Nat
  /-- `arb_state` (R37). -/
  arb : ArbState
  /-- The request queue `rq`, in submission order (R37). -/
  rq : List Request
  /-- The entry in service `cur` (R37). -/
  cur : Request
  /-- `tx_idx` (R37). -/
  txIdx : Count
  /-- The reply that ARB_RX built and ARB_REPLY hands over (R118, R119). -/
  reply : Reply
  /-- `h_rdata` and `h_err` of the last cycle's access (R22). -/
  bus : BusResponse
  /-- The model's own: the port whose command engine runs the command that `exec` is given. -/
  active : PortId
  /-- The model's own: the inputs of the coming cycles. When it is used up the inputs are `Config.draw`. -/
  script : List CycleInput
  /-- The model's own: the number of the cycle, at which the free values are read. -/
  cycle : Nat
  /-- The model's own record of the transmit stream of rule R40: the bytes handed to the UART, oldest first. -/
  wire : List Byte
deriving DecidableEq, Repr

/-- Port `p` of the state. -/
def State.port (s : State) (p : PortId) : Port := s.ports[p]

/-- The state with port `p` replaced. -/
def State.setPort (s : State) (p : PortId) (q : Port) : State := { s with ports := s.ports.set p q }

/-- The state with port `p` changed by `f`. -/
def State.modPort (s : State) (p : PortId) (f : Port → Port) : State := s.setPort p (f (s.port p))

/-- The ports given one by one. -/
def portsOf (f : PortId → Port) : Vector Port 15 :=
  #v[f 0, f 1, f 2, f 3, f 4, f 5, f 6, f 7, f 8, f 9, f 10, f 11, f 12, f 13, f 14]

/-- The block right after reset, built with the parameters `c` (R159). -/
def State.resetWith (c : Params) : State where
  cfg := c
  ports := portsOf fun _ => Port.reset
  rxOvr := false
  rxq := []
  rxState := .idle
  rxBuf := []
  rxCnt := 0
  rxLen := 0
  rxTimer := 0
  arb := .idle
  rq := []
  cur := { port := 0, tag := 0, bytes := [] }
  txIdx := 0
  reply := { port := 0, tag := 0, result := { err := .none, crcv := 0, raw := [] } }
  bus := .idle
  active := 0
  script := []
  cycle := 0
  wire := []

/-- The machine right after reset, for whatever build it is (R159; `Config.build` is a free value). -/
def State.reset : State := State.resetWith Config.build

/-- The spec gives the block no trap and no way to stop: every error is a completion status, and "no error resets, halts or
locks any part of the block" (R144, R149). So no step ends in a fault, and there is no constructor. -/
inductive Fault where
deriving DecidableEq, Repr

/-- Why the model declines. -/
inductive Refusal where
  /-- Raised by an arm of `exec` whose instruction has no meaning yet. Safe. No arm raises it now. -/
  | notModelled (mnemonic : String)
  /-- Raised by `State.build` for parameters that break rule R162: "A model must refuse to build such an instance" (U13).
  Safe. -/
  | unspecifiedBuild
deriving DecidableEq, Repr

/-- Building the block: the reset state of a build that meets rule R162, and a refusal of any other (U13). -/
def State.build (c : Params) : Except Refusal State :=
  if c.Valid then .ok (State.resetWith c) else .error .unspecifiedBuild

end Sys2Proof.Machine
end

