-- ==== Sys2Proof/Machine/Ops.lean ====
section
/-!
DEFINITION. The named operations of the block: byte buffers (20_memory.md rules R40, R44), the checksum (40_framer.md rule
R72), the completion of a command, which is the block's one way to report a result or an error (rules R39, R144, R149), and
the submission of a request to the controller (42_arbitration.md rule R114).
-/
namespace Sys2Proof.Machine

open Sys2Proof

/-! ### Byte buffers -/

/-- The byte at index `k`. -/
def Memory.read : Memory → Nat → Byte
  | [], _ => unlistedByte
  | (a, b) :: m, k => if k = a then b else Memory.read m k

/-- The buffer with index `k` not listed. -/
def Memory.erase : Memory → Nat → Memory
  | [], _ => []
  | (a, b) :: m, k => if k = a then Memory.erase m k else (a, b) :: Memory.erase m k

/-- The buffer with index `k` listed as `v`, in its place by address. -/
def Memory.insert : Memory → Nat → Byte → Memory
  | [], k, v => [(k, v)]
  | (a, b) :: m, k, v => if k < a then (k, v) :: (a, b) :: m else (a, b) :: Memory.insert m k v

/-- Writing one byte. A byte equal to what an unlisted index reads as is not listed, so that equal buffers are equal data. -/
def Memory.write (m : Memory) (k : Nat) (v : Byte) : Memory :=
  if v = unlistedByte then m.erase k else Memory.insert (m.erase k) k v

/-- The canonical form from index `lo` on: indices strictly rising, no byte listed that reads so unlisted. -/
def Memory.wfFrom : Nat → Memory → Bool
  | _, [] => true
  | lo, (a, b) :: m => decide (lo ≤ a) && decide (b ≠ unlistedByte) && Memory.wfFrom (a + 1) m

/-- The canonical form. -/
def Memory.wf (m : Memory) : Bool := Memory.wfFrom 0 m

/-- Buffer byte `k` of a buffer of `lim` bytes: an index past the storage reads 0 (R29, R30, R44). -/
def bufGet (lim : Nat) (m : Memory) (k : Nat) : Byte := if k < lim then m.read k else 0

/-- Writing buffer byte `k`: an index past the storage ignores the write (R29, R44). -/
def bufPut (lim : Nat) (m : Memory) (k : Nat) (v : Byte) : Memory := if k < lim then m.write k v else m

/-- Writing a byte sequence from index `k` on. -/
def bufPutBytes (lim : Nat) (m : Memory) (k : Nat) : List Byte → Memory
  | [] => m
  | b :: bs => bufPutBytes lim (bufPut lim m k b) (k + 1) bs

/-- The bytes of indices `0 .. n-1`. -/
def bufTake (lim : Nat) (m : Memory) (n : Nat) : List Byte := (List.range n).map (bufGet lim m)

/-! ### The checksum -/

/-- `csum(s) = (Σ s[k]) mod 256`, in the 8-bit accumulator of rule R72; `csum([]) = 0`. -/
def csum (bs : List Byte) : Byte := bs.foldl (fun acc b => acc + b) 0

/-- The bytes a frame's checksum covers: `f[1..L-2]` (R63, R72, R86). -/
def csumBody (f : List Byte) : List Byte := (f.drop 1).take (f.length - 2)

/-- The trailing byte `f[L-1]` of a frame. -/
def trailer (f : List Byte) : Byte := f.getLastD 0

/-- Whether the frame's trailing byte is the checksum of its body (R86). -/
def crcPasses (f : List Byte) : Bool := decide (csum (csumBody f) = trailer f)

/-! ### Completing a command

The spec has no trap entry and no return from one (R149, R150): an error, like a success, is a completion. These are the
writes of the completion cycle (R39), on one port. -/

/-- `RESULT[0..len-1] <- raw`, `RES_LEN <- len`. Bytes of `RESULT` past `len` stay as they were (R30, R167). -/
def Port.putResult (lim : Nat) (raw : List Byte) (q : Port) : Port :=
  { q with res := bufPutBytes lim q.res 0 raw, resLen := BitVec.ofNat 9 raw.length }

/-- `TYPE <- t`. -/
def Port.putType (t : DataType) (q : Port) : Port := { q with dataType := t }

/-- `FIELD0..FIELD5 <- fl`. -/
def Port.putFields (fl : Fields) (q : Port) : Port := { q with fields := fl }

/-- `ERR <- e`, `CRCV <- c`. -/
def Port.putStatus (e : ErrTag) (c : Byte) (q : Port) : Port := { q with err := e, crcv := c }

/-- `RAWVAL <- (VALID, VALUE)` (R109). -/
def Port.putRaw (valid : Bool) (value : Byte) (q : Port) : Port := { q with rawValid := valid, rawValue := value }

/-- The end of a command: `BUSY <- 0`, `DONE <- 1`, `seq_state <- IDLE` (R27, R39). -/
def Port.finish (q : Port) : Port := { q with busy := false, done := true, seq := .idle }

/-- A completion that writes the frame `raw`, the type and the fields with the tag (the rows of rule R39's table that write
every result register). -/
def Port.completeFrame (lim : Nat) (e : ErrTag) (c : Byte) (raw : List Byte) (t : DataType) (fl : Fields) (q : Port) : Port :=
  ((((q.putResult lim raw).putType t).putFields fl).putStatus e c).finish

/-- `raise ARG` (R67, R143): the command completes with `ERR = ARG` and `CRCV = 0` and does nothing else. -/
def Port.failArg (q : Port) : Port := (q.putStatus .arg 0).finish

/-- `raise ARG` on port `p`. -/
def State.failArg (p : PortId) (s : State) : State := s.modPort p Port.failArg

/-! ### Submitting a request -/

/-- The result a port is handed when its wait times out or the queue is full: `(SOCKET, 0, 0, [])` (R114, R121). -/
def TransportResult.socket : TransportResult := { err := .socket, crcv := 0, raw := [] }

/-- The next tag: `(tag + 1) mod 2^TAG_BITS` (R114). -/
def nextTag (c : Params) (tag : Nat) : Nat := (tag + 1) % 2 ^ c.tagBits

/-- What a submission writes in its port: the new tag, the wait and its budget (R114), and the wait state (R124). -/
def Port.startWait (c : Params) (w : SeqState) (q : Port) : Port :=
  { q with seq := w, tag := nextTag c q.tag, waiting := true, wtimer := c.clientTimeout }

/-- Submission of the request bytes `t` by port `p`, which enters wait state `w` (R114). On a full queue nothing is queued
and there is no state: the port is handed `TransportResult.socket` at once. -/
def State.submit (p : PortId) (w : SeqState) (t : List Byte) (s : State) : Option State :=
  if s.rq.length = s.cfg.qDepth then none
  else
    some { s.modPort p (Port.startWait s.cfg w) with
      rq := s.rq ++ [{ port := p, tag := nextTag s.cfg (s.port p).tag, bytes := t }] }

end Sys2Proof.Machine
end

