-- ==== Sys2Proof/Machine/Operands.lean ====
section
/-!
DEFINITION. Operands: the byte sequences and fields a command reads (30_encoding.md rules R66, R69), the frames the block
builds (rules R59, R61), the data types (rule R68), the classifier and the field extractors (41_dispatch.md rules R91 to R107).
-/
namespace Sys2Proof.Machine

open Sys2Proof

/-! ### Data-type codes (R68) -/

/-- The code of a data type (R68). -/
def typeCode : DataType → Nat
  | .rawOnly => 0
  | .temp100 => 1
  | .device => 2
  | .datetime => 3
  | .l1Settings1 => 4
  | .l1Settings2 => 5
  | .l1Info => 6

/-- The data type of a code; code 7 and above are no type (R68). -/
def typeOfCode (code : Byte) : Option DataType :=
  match code.toNat with
  | 0 => some .rawOnly
  | 1 => some .temp100
  | 2 => some .device
  | 3 => some .datetime
  | 4 => some .l1Settings1
  | 5 => some .l1Settings2
  | 6 => some .l1Info
  | _ => none

/-! ### Operand bytes and their limits -/

/-- `DIN_LEN` as a number. -/
def Port.dinCount (q : Port) : Nat := q.dinLen.toNat

/-- The byte operand `din[p][0..DIN_LEN-1]` (R69). -/
def Port.dinBytes (lim : Nat) (q : Port) : List Byte := bufTake lim q.din q.dinCount

/-- Whether a command's `DIN_LEN` is in its range (R66) and a `DECODE`'s type code is one (R67). -/
def argsOk (c : Params) (i : Instr) (n : Nat) : Bool :=
  match i with
  | .xchg => decide (n ≤ c.frameMax)
  | .read _ => true
  | .writeDry _ _ => decide (n ≤ c.frameMax)
  | .writeCommit _ _ => decide (n ≤ c.frameMax)
  | .encode _ _ => decide (n ≤ c.frameMax - 6)
  | .validate => decide (2 ≤ n) && decide (n ≤ c.frameMax)
  | .classify _ => true
  | .decode code => decide (code.toNat ≤ 6) && decide (n ≤ c.frameMax)
  | .rawbyte _ => true

/-- Whether a word written to `CMD` is one of the nine commands with its limits kept (R67). -/
def legalCommand (c : Params) (w : Word) (n : Nat) : Bool :=
  match decode w with
  | .ok i => argsOk c i n
  | .error _ => false

/-! ### Multi-byte values (R16) -/

/-- `be16(a, b)`: `a` is the high byte. -/
def be16 (a b : Byte) : BitVec 16 := a ++ b

/-- `le32(a, b, c, d)`: `a` is the low byte. -/
def le32 (a b c d : Byte) : Word := d ++ c ++ b ++ a

/-- `sext_32` of a 16-bit value. -/
def sext32 (v : BitVec 16) : Word := v.signExtend 32

/-- `zext_32` of a 16-bit value. -/
def zext32of16 (v : BitVec 16) : Word := v.setWidth 32

/-! ### Frames the block builds -/

/-- A request frame `[0x02, op, 0x02, 0x00, id] ++ payload ++ [csum]`: byte 2 is the constant 0x02 (R61). -/
def requestFrame (op id : Byte) (payload : List Byte) : List Byte :=
  let body := [op, 0x02, 0x00, id] ++ payload
  0x02 :: body ++ [csum body]

/-- The six-byte read request of register `id` (R59, R131). -/
def readRequest (c : Params) (id : Byte) : List Byte := requestFrame c.readOpcode id []

/-- The payload `f[5..L-2]` of a frame, empty where `L ≤ 6` (R96). -/
def payload (f : List Byte) : List Byte := (f.drop 5).take (f.length - 6)

/-- The bytes `data` laid over `f` from index `k` on, no index past the end of `f` written. -/
def overlay : List Byte → Nat → List Byte → List Byte
  | f, _, [] => f
  | f, k, b :: data => overlay (f.set k b) (k + 1) data

/-- The frame `W` of rule R137 before its checksum: the read frame less its last byte, byte 1 the write opcode, the data laid
over the payload from absolute index `5 + offset` on. -/
def writeBody (c : Params) (f : List Byte) (offset : Nat) (data : List Byte) : List Byte :=
  overlay ((f.take (f.length - 1)).set 1 c.writeOpcode) (5 + offset) data

/-- The checksum of a write frame: `csum(W[1..L-2])` (R137). -/
def writeChecksum (c : Params) (f : List Byte) (offset : Nat) (data : List Byte) : Byte :=
  csum ((writeBody c f offset data).drop 1)

/-- The write frame `F` of rule R137. -/
def writeFrame (c : Params) (f : List Byte) (offset : Nat) (data : List Byte) : List Byte :=
  writeBody c f offset data ++ [writeChecksum c f offset data]

/-! ### The classifier -/

/-- Whether an entry matches an id: `id = idStart`, or `idEnd ≥ idStart` and `id` in the inclusive range (R92). A reversed
range matches its start only (R93). -/
def IdEntry.matchesId (e : IdEntry) (id : Byte) : Bool :=
  decide (id = e.idStart) || (decide (e.idStart ≤ e.idEnd) && decide (e.idStart ≤ id) && decide (id ≤ e.idEnd))

/-- The first entry in table order that matches gives the type; no match gives raw-only (R92, R94). -/
def classify : List IdEntry → Byte → DataType
  | [], _ => .rawOnly
  | e :: rest, id => if IdEntry.matchesId e id then e.dataType else classify rest id

/-! ### Field extraction -/

/-- `REQ(t)`: the payload bytes a type's layout reads (R97). -/
def requiredLength : DataType → Nat
  | .rawOnly => 0
  | .temp100 => 2
  | .device => 18
  | .datetime => 7
  | .l1Settings1 => 22
  | .l1Settings2 => 11
  | .l1Info => 15

/-- Payload byte `k`. Past the end it reads 0; extraction never reads there (R98). -/
def at8 (pl : List Byte) (k : Nat) : Byte := pl.getD k 0

/-- `temp_100` (R99). -/
def fieldsTemp100 (pl : List Byte) : Fields :=
  { Fields.zero with f0 := sext32 (be16 (at8 pl 0) (at8 pl 1)) }

/-- `device` (R100). -/
def fieldsDevice (pl : List Byte) : Fields where
  f0 := le32 (at8 pl 0) (at8 pl 1) (at8 pl 2) (at8 pl 3)
  f1 := le32 (at8 pl 4) (at8 pl 5) (at8 pl 6) (at8 pl 7)
  f2 := zext32 (at8 pl 8)
  f3 := le32 (at8 pl 9) (at8 pl 10) (at8 pl 11) (at8 pl 12)
  f4 := le32 (at8 pl 13) (at8 pl 14) (at8 pl 15) (at8 pl 16)
  f5 := zext32 (at8 pl 17)

/-- `datetime` (R101). -/
def fieldsDatetime (pl : List Byte) : Fields where
  f0 := zext32of16 (be16 (at8 pl 0) (at8 pl 1))
  f1 := zext32 (at8 pl 2)
  f2 := zext32 (at8 pl 3)
  f3 := zext32 (at8 pl 4)
  f4 := zext32 (at8 pl 5)
  f5 := zext32 (at8 pl 6)

/-- `L1_settings1` (R102). -/
def fieldsL1Settings1 (pl : List Byte) : Fields where
  f0 := zext32 (at8 pl 0)
  f1 := zext32 (at8 pl 1)
  f2 := zext32 (at8 pl 2)
  f3 := zext32 (at8 pl 3)
  f4 := zext32 (at8 pl 4)
  f5 := zext32 (at8 pl 21)

/-- `L1_settings2` (R103). -/
def fieldsL1Settings2 (pl : List Byte) : Fields := { Fields.zero with f0 := zext32 (at8 pl 10) }

/-- `L1_info` (R104). -/
def fieldsL1Info (pl : List Byte) : Fields :=
  { Fields.zero with f0 := zext32 (at8 pl 0), f1 := zext32 (at8 pl 14) }

/-- The fields of a payload that is long enough for its type (R106). -/
def fieldsOf (t : DataType) (pl : List Byte) : Fields :=
  match t with
  | .rawOnly => Fields.zero
  | .temp100 => fieldsTemp100 pl
  | .device => fieldsDevice pl
  | .datetime => fieldsDatetime pl
  | .l1Settings1 => fieldsL1Settings1 pl
  | .l1Settings2 => fieldsL1Settings2 pl
  | .l1Info => fieldsL1Info pl

/-- `extract(t, pl)` (R107): a payload shorter than `REQ(t)` is `PROTOCOL` with every field 0 (R98). -/
def extract (t : DataType) (pl : List Byte) : ErrTag × Fields :=
  if pl.length < requiredLength t then (.protocol, Fields.zero) else (.none, fieldsOf t pl)

/-- Whether a transport result has no frame: `TIMEOUT`, `PROTOCOL` or `SOCKET` (R133). -/
def noFrame (e : ErrTag) : Bool := decide (e = .timeout) || decide (e = .protocol) || decide (e = .socket)

/-- What a read reports: tag, type and fields. -/
structure ReadResult where
  err : ErrTag
  dataType : DataType
  fields : Fields
deriving DecidableEq, Repr

/-- `read_compose(id, err, raw)` (R133): no frame, no fields; else the payload is decoded under the requested id's type, and
a `CRC` tag wins over the decoder's. Nothing of the response is compared with the request (R134). -/
def readCompose (c : Params) (id : Byte) (r : TransportResult) : ReadResult :=
  if noFrame r.err then { err := r.err, dataType := .rawOnly, fields := Fields.zero }
  else
    let t := classify c.idTable id
    let x := extract t (payload r.raw)
    { err := if r.err = .crc then .crc else x.1, dataType := t, fields := x.2 }

end Sys2Proof.Machine
end

