-- ==== Sys2Proof/Machine/Flags.lean ====
section
/-!
DEFINITION. The status flags and the words the host reads them in (10_state.md rules R25 to R33, R38): codes, register words,
the interrupt lines (60_exceptions.md rule R148) and the transmit outputs (rule R22).
-/
namespace Sys2Proof.Machine

open Sys2Proof

/-- The code of an error tag (R143). -/
def errCode : ErrTag → Nat
  | .none => 0
  | .timeout => 1
  | .protocol => 2
  | .crc => 3
  | .socket => 4
  | .bounds => 5
  | .arg => 6

/-- The code of `rx_state` (R24). -/
def rxCode : RxState → Nat
  | .idle => 0
  | .awaitMarker => 1
  | .awaitHeader1 => 2
  | .awaitHeader2 => 3
  | .accum => 4
  | .complete => 5
  | .errProtocol => 6
  | .errTimeout => 7

/-- A flag as one bit. -/
def bit (b : Bool) : BitVec 1 := BitVec.ofBool b

/-- `CTRL`: `IE` in bit 0 (R25). -/
def ctrlWord (q : Port) : Word := 0#31 ++ bit q.ie

/-- `STATUS`: `CRCV` [15:8], `ERR` [7:4], `WIGN` [2], `DONE` [1], `BUSY` [0], the rest 0 (R27). -/
def statusWord (q : Port) : Word :=
  0#16 ++ q.crcv ++ BitVec.ofNat 4 (errCode q.err) ++ 0#1 ++ bit q.wign ++ bit q.done ++ bit q.busy

/-- `DIN_LEN` (R28). -/
def dinLenWord (q : Port) : Word := q.dinLen.setWidth 32

/-- `RES_LEN` (R30). -/
def resLenWord (q : Port) : Word := q.resLen.setWidth 32

/-- `TYPE`: the data-type code in [2:0] (R30). -/
def typeWord (q : Port) : Word := BitVec.ofNat 32 (typeCode q.dataType)

/-- `RAWVAL`: `VALID` in [8], `VALUE` in [7:0] (R30). -/
def rawvalWord (q : Port) : Word := 0#23 ++ bit q.rawValid ++ q.rawValue

/-- `FIELDn` (R30). -/
def fieldWord (q : Port) (n : Fin 6) : Word :=
  match n with
  | 0 => q.fields.f0
  | 1 => q.fields.f1
  | 2 => q.fields.f2
  | 3 => q.fields.f3
  | 4 => q.fields.f4
  | 5 => q.fields.f5

/-- Word `w` of a buffer window: bytes `4w .. 4w+3`, the lowest index least significant (R44). -/
def bufferWord (lim : Nat) (m : Memory) (w : Nat) : Word :=
  le32 (bufGet lim m (4 * w)) (bufGet lim m (4 * w + 1)) (bufGet lim m (4 * w + 2)) (bufGet lim m (4 * w + 3))

/-- The four bytes of a word in buffer order (R44). -/
def wordBytes (w : Word) : List Byte :=
  [w.extractLsb' 0 8, w.extractLsb' 8 8, w.extractLsb' 16 8, w.extractLsb' 24 8]

/-- `INFO`: `QDEPTH mod 256`, `TERM_BIAS`, `ID_TABLE_LEN`, `NUM_PORTS` (R32). -/
def infoWord (c : Params) : Word :=
  BitVec.ofNat 8 c.qDepth ++ BitVec.ofNat 8 c.termBias ++ BitVec.ofNat 8 c.idTable.length ++ BitVec.ofNat 8 c.numPorts

/-- `OPCODES` (R32). -/
def opcodesWord (c : Params) : Word := 0#16 ++ c.writeOpcode ++ c.readOpcode

/-- `ID_ENTRY[k]`: the type code, `idEnd`, `idStart` (R33). -/
def idEntryWord (e : IdEntry) : Word := 0#13 ++ BitVec.ofNat 3 (typeCode e.dataType) ++ e.idEnd ++ e.idStart

/-- `ARB_BUSY`: `arb_state` is not ARB_IDLE (R32). -/
def State.arbBusy (s : State) : Bool := decide (s.arb ≠ .idle)

/-- `CUR_PORT`: the port in service, 0 when `ARB_BUSY` is 0 (R32). -/
def State.curPort (s : State) : BitVec 4 := if s.arbBusy then BitVec.ofNat 4 s.cur.port.val else 0

/-- `ARB_STATUS`: `RX_STATE` [18:16], `QCOUNT` [15:8], `CUR_PORT` [7:4], `RX_OVR` [1], `ARB_BUSY` [0] (R32). A count that does
not fit `QCOUNT` is taken mod 256 (R16). -/
def arbStatusWord (s : State) : Word :=
  0#13 ++ BitVec.ofNat 3 (rxCode s.rxState) ++ BitVec.ofNat 8 s.rq.length ++ s.curPort ++ 0#2 ++ bit s.rxOvr ++ bit s.arbBusy

/-- `irq[p] = CTRL.IE & STATUS.DONE`, for a port that is there (R148). -/
def State.irq (s : State) (p : PortId) : Bool :=
  decide (p.val < s.cfg.numPorts) && (s.port p).ie && (s.port p).done

/-- The byte on `tx_data` while `tx_valid` is 1, that is in ARB_TX while `tx_idx < cur.len`; nothing while it is 0 (R117). -/
def State.txByte (s : State) : Option Byte :=
  if s.arb = .tx then s.cur.bytes[s.txIdx.toNat]? else none

end Sys2Proof.Machine
end

