-- ==== Sys2Proof/Machine/HostBus.lean ====
section
/-!
DEFINITION. The host bus (20_memory.md rules R41 to R48): the register map, what a read returns and what a write does.
-/
namespace Sys2Proof.Machine

open Sys2Proof

/-- A register of a port window, at the offsets of rule R41. -/
inductive PortReg where
  | ctrl
  | cmd
  | status
  | dinLen
  | resLen
  | dataType
  | rawval
  | field (n : Fin 6)
  /-- Word `w` of `DATA_IN`. -/
  | dataIn (w : Nat)
  /-- Word `w` of `RESULT`. -/
  | result (w : Nat)
deriving DecidableEq, Repr

/-- A register of the global window (R32, R33, R41). -/
inductive GlobalReg where
  | info
  | opcodes
  | arbStatus
  | gctrl
  | byteTmo
  | clientTmo
  | idEntry (e : IdEntry)
deriving DecidableEq, Repr

/-- What an address of the host register space names. -/
inductive HostTarget where
  /-- `h_addr[1:0] ≠ 0` (R42). -/
  | misaligned
  /-- No register is there (R41, R43). -/
  | unmapped
  | portReg (p : PortId) (r : PortReg)
  | globalReg (r : GlobalReg)
deriving DecidableEq, Repr

/-- The register at an aligned offset of a port window (R41). -/
def portRegAt (off : Nat) : Option PortReg :=
  match off with
  | 0x000 => some .ctrl
  | 0x004 => some .cmd
  | 0x008 => some .status
  | 0x00C => some .dinLen
  | 0x010 => some .resLen
  | 0x014 => some .dataType
  | 0x018 => some .rawval
  | 0x020 => some (.field 0)
  | 0x024 => some (.field 1)
  | 0x028 => some (.field 2)
  | 0x02C => some (.field 3)
  | 0x030 => some (.field 4)
  | 0x034 => some (.field 5)
  | off =>
    if 0x400 ≤ off ∧ off ≤ 0x503 then some (.dataIn ((off - 0x400) / 4))
    else if 0x800 ≤ off ∧ off ≤ 0x903 then some (.result ((off - 0x800) / 4))
    else none

/-- The register at an aligned offset of the global window; `ID_ENTRY[k]` is there for `k < ID_TABLE_LEN` (R33, R41). -/
def globalRegAt (c : Params) (off : Nat) : Option GlobalReg :=
  match off with
  | 0x000 => some .info
  | 0x004 => some .opcodes
  | 0x008 => some .arbStatus
  | 0x00C => some .gctrl
  | 0x010 => some .byteTmo
  | 0x014 => some .clientTmo
  | off => if 0x100 ≤ off then (c.idTable[(off - 0x100) / 4]?).map GlobalReg.idEntry else none

/-- The register map (R41): port p's window at `0x1000 * p` for `p < NUM_PORTS`, the global window at `0xF000`. -/
def hostTarget (c : Params) (addr : HostAddr) : HostTarget :=
  let a := addr.toNat
  if a % 4 ≠ 0 then .misaligned
  else
    let off := a % 0x1000
    if h : a / 0x1000 < 15 then
      if a / 0x1000 < c.numPorts then
        match portRegAt off with
        | some r => .portReg ⟨a / 0x1000, h⟩ r
        | none => .unmapped
      else .unmapped
    else
      match globalRegAt c off with
      | some r => .globalReg r
      | none => .unmapped

/-- What a port register reads as. `CMD` is write-only and reads 0 (R26, R43). -/
def readPortReg (c : Params) (q : Port) (r : PortReg) : Word :=
  match r with
  | .ctrl => ctrlWord q
  | .cmd => 0
  | .status => statusWord q
  | .dinLen => dinLenWord q
  | .resLen => resLenWord q
  | .dataType => typeWord q
  | .rawval => rawvalWord q
  | .field n => fieldWord q n
  | .dataIn w => bufferWord c.frameMax q.din w
  | .result w => bufferWord c.frameMax q.res w

/-- What a global register reads as. `GCTRL` is write-only and reads 0 (R32, R43). -/
def readGlobalReg (s : State) (r : GlobalReg) : Word :=
  match r with
  | .info => infoWord s.cfg
  | .opcodes => opcodesWord s.cfg
  | .arbStatus => arbStatusWord s
  | .gctrl => 0
  | .byteTmo => BitVec.ofNat 32 s.cfg.byteTimeout
  | .clientTmo => BitVec.ofNat 32 s.cfg.clientTimeout
  | .idEntry e => idEntryWord e

/-- `MemRead(addr, 4)`: the data and `h_err`. A misaligned or unmapped access answers 0 with `h_err = 1` (R42, R43). -/
def hostRead (s : State) (addr : HostAddr) : Word × Bool :=
  match hostTarget s.cfg addr with
  | .misaligned => (0, true)
  | .unmapped => (0, true)
  | .portReg p r => (readPortReg s.cfg (s.port p) r, false)
  | .globalReg r => (readGlobalReg s r, false)

/-- `h_err` of an access: 1 exactly where it is misaligned or unmapped (R42, R43). -/
def hostErr (c : Params) (addr : HostAddr) : Bool :=
  decide (hostTarget c addr = .misaligned) || decide (hostTarget c addr = .unmapped)

/-- What the bus answers to an access, from the state at the start of the cycle. -/
def busResponse (s : State) (a : HostAccess) : BusResponse :=
  match a with
  | .idle => .idle
  | .read addr => .read (hostRead s addr).1 (hostRead s addr).2
  | .write addr _ => .write (hostErr s.cfg addr)

/-- A `CMD` write with `BUSY = 0` (R26): the word is latched, `BUSY <- 1`, `DONE <- 0`. `delay` is the draw of rule R173; a
word that is illegal completes in its first cycle (R67), so it waits for nothing. -/
def Port.accept (c : Params) (w : Word) (delay : Nat) (q : Port) : Port :=
  { q with
    cmdLatch := w
    busy := true
    done := false
    seq := .localCmd
    delay := if legalCommand c w q.dinCount then delay else 0 }

/-- A write that is ignored because `BUSY = 1` (R26, R28, R29). -/
def Port.ignoreWrite (q : Port) : Port := { q with wign := true }

/-- A write to a port register. Read-only registers ignore it (R43). -/
def writePortReg (c : Params) (delay : Nat) (r : PortReg) (data : Word) (q : Port) : Port :=
  match r with
  | .ctrl => { q with ie := data.getLsbD 0 }
  | .cmd => if q.busy then q.ignoreWrite else q.accept c data delay
  | .status => { q with done := q.done && !data.getLsbD 1, wign := q.wign && !data.getLsbD 2 }
  | .dinLen => if q.busy then q.ignoreWrite else { q with dinLen := data.extractLsb' 0 9 }
  | .dataIn w =>
    if q.busy then q.ignoreWrite else { q with din := bufPutBytes c.frameMax q.din (4 * w) (wordBytes data) }
  | .resLen => q
  | .dataType => q
  | .rawval => q
  | .field _ => q
  | .result _ => q

/-- A write to a global register: only `ARB_STATUS.RX_OVR` changes here (R32, R48); `GCTRL.SRST` is `softReset`. -/
def writeGlobalReg (r : GlobalReg) (data : Word) (s : State) : State :=
  match r with
  | .arbStatus => { s with rxOvr := s.rxOvr && !data.getLsbD 1 }
  | .info => s
  | .opcodes => s
  | .gctrl => s
  | .byteTmo => s
  | .clientTmo => s
  | .idEntry _ => s

/-- `MemWrite(addr, 4, data)`: a misaligned or unmapped access changes nothing (R42, R43). -/
def hostWrite (delay : Nat) (addr : HostAddr) (data : Word) (s : State) : State :=
  match hostTarget s.cfg addr with
  | .misaligned => s
  | .unmapped => s
  | .portReg p r => s.modPort p (writePortReg s.cfg delay r data)
  | .globalReg r => writeGlobalReg r data s

/-- The host bus's part of a cycle. -/
def hostTurn (x : CycleInput) (s : State) : State :=
  match x.host with
  | .idle => s
  | .read _ => s
  | .write addr data => hostWrite x.delay addr data s

/-- Whether the access writes 1 to `GCTRL.SRST` (R32, R158). -/
def softReset (c : Params) (a : HostAccess) : Bool :=
  match a with
  | .idle => false
  | .read _ => false
  | .write addr data => decide (hostTarget c addr = .globalReg .gctrl) && data.getLsbD 0

/-- Whether the access writes 1 to `ARB_STATUS.RX_OVR` (R32). -/
def clearsOverflow (c : Params) (a : HostAccess) : Bool :=
  match a with
  | .idle => false
  | .read _ => false
  | .write addr data => decide (hostTarget c addr = .globalReg .arbStatus) && data.getLsbD 1

end Sys2Proof.Machine
end

