-- ==== Sys2Proof/Machine/Framer.lean ====
section
/-!
DEFINITION. The RX FIFO (10_state.md rule R35) and the receive framer (40_framer.md rules R74 to R86). Every function of a
turn takes the state at the start of the cycle, `s0`, from which it decides, and the state being built, `s`, which it changes.
-/
namespace Sys2Proof.Machine

open Sys2Proof

/-- The waiting states (40_framer.md section 2). -/
def RxState.isWaiting : RxState → Bool
  | .awaitMarker => true
  | .awaitHeader1 => true
  | .awaitHeader2 => true
  | .accum => true
  | .idle => false
  | .complete => false
  | .errProtocol => false
  | .errTimeout => false

/-- Arming (R74), but for the FIFO, which `receiveTurn` flushes. -/
def State.armFramer (s : State) : State :=
  { s with rxState := .awaitMarker, rxCnt := 0, rxLen := 0, rxTimer := s.cfg.byteTimeout }

/-- AWAIT_MARKER on byte `b` (R76). -/
def takeMarker (b : Byte) (s : State) : State :=
  if b = 0x02 then { s with rxBuf := bufPut s.cfg.frameMax s.rxBuf 0 b, rxCnt := 1, rxState := .awaitHeader1 }
  else { s with rxState := .errProtocol, rxCnt := 0 }

/-- AWAIT_HEADER1 on byte `b` (R77). -/
def takeHeader1 (b : Byte) (s : State) : State :=
  { s with rxBuf := bufPut s.cfg.frameMax s.rxBuf 1 b, rxCnt := 2, rxState := .awaitHeader2 }

/-- AWAIT_HEADER2 on byte `b` (R78). -/
def takeHeader2 (b : Byte) (s : State) : State :=
  { s with rxBuf := bufPut s.cfg.frameMax s.rxBuf 2 b, rxCnt := 3, rxLen := b, rxState := .accum }

/-- ACCUM on byte `b` (R79): complete at `rx_cnt ≥ N + TERM_BIAS`. -/
def takeAccum (b : Byte) (s : State) : State :=
  let cnt := s.rxCnt + 1
  { s with
    rxBuf := bufPut s.cfg.frameMax s.rxBuf s.rxCnt.toNat b
    rxCnt := cnt
    rxState := if s.rxLen.toNat + s.cfg.termBias ≤ cnt.toNat then .complete else .accum }

/-- The framer takes byte `b` and reloads its budget (R75). Outside the waiting states it takes none (R83). -/
def takeByte (b : Byte) (s : State) : State :=
  let t := { s with rxTimer := s.cfg.byteTimeout }
  match s.rxState with
  | .awaitMarker => takeMarker b t
  | .awaitHeader1 => takeHeader1 b t
  | .awaitHeader2 => takeHeader2 b t
  | .accum => takeAccum b t
  | .idle => s
  | .complete => s
  | .errProtocol => s
  | .errTimeout => s

/-- A tick while the framer waits and no byte is there (R81). -/
def byteTick (s : State) : State :=
  if s.rxTimer ≤ 1 then { s with rxState := .errTimeout, rxCnt := 0 } else { s with rxTimer := s.rxTimer - 1 }

/-- `tx_idx` after the transmit handshake of this cycle (R117). -/
def txNext (x : CycleInput) (s0 : State) : Count :=
  if s0.txByte.isSome && x.txReady then s0.txIdx + 1 else s0.txIdx

/-- Whether the controller arms the framer in this cycle: it is in ARB_TX and the whole request is handed over (R117). -/
def armsNow (x : CycleInput) (s0 : State) : Bool :=
  decide (s0.arb = .tx) && decide ((txNext x s0).toNat = s0.cur.bytes.length)

/-- A received byte that found the FIFO full is dropped and `RX_OVR` set (R35). Where the host clears the flag in the same
cycle the spec gives no order: free (log entry 7). -/
def overflow (x : CycleInput) (s0 s : State) : State :=
  { s with
    rxOvr := if clearsOverflow s0.cfg x.host then Config.race .overflowAgainstClear s0.cycle else true }

/-- A received byte while the framer takes none: pushed if there is room, else dropped (R35). -/
def pushByte (x : CycleInput) (s0 s : State) : State :=
  match x.rx with
  | none => s
  | some b => if s0.rxq.length < s0.cfg.rxFifoDepth then { s with rxq := s.rxq ++ [b] } else overflow x s0 s

/-- The FIFO in the cycle that arms the framer with `RX_FLUSH_ON_ARM = 1` (R74). Whether a byte that arrives in that very
cycle is flushed too is free (log entry 8). -/
def flushFifo (x : CycleInput) (s0 s : State) : State :=
  match x.rx with
  | none => { s with rxq := [] }
  | some b =>
    if Config.race .flushAgainstArrival s0.cycle then { s with rxq := [b] }
    else { pushByte x s0 s with rxq := [] }

/-- The receive side's part of a cycle (R35, R74, R75, R81, R82): a waiting framer takes the oldest byte, one that arrives in
this cycle included; it counts a tick only when there is none. -/
def receiveTurn (x : CycleInput) (s0 s : State) : State :=
  if armsNow x s0 && s0.cfg.rxFlushOnArm then flushFifo x s0 s
  else if s0.rxState.isWaiting then
    match s0.rxq ++ x.rx.toList with
    | b :: rest => { takeByte b s with rxq := rest }
    | [] => if x.tick then byteTick s else s
  else pushByte x s0 s

/-- The frame `rx_buf[0..rx_cnt-1]` (R83). -/
def State.rxFrame (s : State) : List Byte := bufTake s.cfg.frameMax s.rxBuf s.rxCnt.toNat

/-- The transport result of an exchange whose framer has come to rest (R112): a frame with its computed checksum, tagged
`CRC` where the trailing byte differs, or no frame. While the framer is not at rest there is none. -/
def exchangeResult (s : State) : Option TransportResult :=
  match s.rxState with
  | .complete =>
    some
      { err := if crcPasses s.rxFrame then .none else .crc, crcv := csum (csumBody s.rxFrame), raw := s.rxFrame }
  | .errProtocol => some { err := .protocol, crcv := 0, raw := [] }
  | .errTimeout => some { err := .timeout, crcv := 0, raw := [] }
  | .idle => none
  | .awaitMarker => none
  | .awaitHeader1 => none
  | .awaitHeader2 => none
  | .accum => none

end Sys2Proof.Machine
end

