-- ==== Sys2Proof/Machine/Arbiter.lean ====
section
/-!
DEFINITION. The arbitration controller (42_arbitration.md rules R115 to R120): the loop that pops a request, transmits it,
receives the answer and hands it over.
-/
namespace Sys2Proof.Machine

open Sys2Proof

/-- `cur <- pop(rq); tx_idx <- 0; arb_state <- ARB_TX` (R116). -/
def State.popRequest (s : State) : State :=
  match s.rq with
  | [] => s
  | r :: rest => { s with rq := rest, cur := r, txIdx := 0, arb := .tx }

/-- Whether the controller is in ARB_IDLE at some time of this cycle: it starts there, or it comes there from ARB_REPLY and
passes on in the same cycle. R119 and R116 take a cycle each, and R174 says that the next request's first byte may go out in
the cycle after the hand-over: whether the controller passes on at once is free (DESIGN CHOICE, log entry 28). -/
def idlesNow (s0 : State) : Bool :=
  decide (s0.arb = .idle) || (decide (s0.arb = .reply) && Config.race .popAfterReply s0.cycle)

/-- Whether the controller pops a request in this cycle: it is in ARB_IDLE and the queue is not empty at the start of the
cycle, so a request is never popped in the cycle it was pushed in (R116). -/
def popsNow (s0 : State) : Bool := !s0.rq.isEmpty && idlesNow s0

/-- Whether the pop of this cycle comes after all its submissions, and not before them all. It decides what the submissions of
the cycle count as `count(rq)`: on a full queue, and where several ports submit and the queue is almost full, they then find
no room (R114). The spec gives no order for the two: free (DESIGN CHOICE, log entry 9). -/
def popsLast (s0 : State) : Bool := popsNow s0 && Config.race .submitAgainstPop s0.cycle

/-- The pop that comes before the submissions of its cycle. -/
def earlyPop (s0 s : State) : State := if popsNow s0 && !popsLast s0 then s.popRequest else s

/-- The controller's part of a cycle (R116 to R119), but for the pop that comes last and for the hand-over of a reply, which
is the port's turn. -/
def arbiterTurn (x : CycleInput) (s0 s : State) : State :=
  match s0.arb with
  | .idle => earlyPop s0 s
  | .tx =>
    if armsNow x s0 then State.armFramer { s with txIdx := txNext x s0, arb := .rx }
    else { s with txIdx := txNext x s0 }
  | .rx =>
    match exchangeResult s0 with
    | some r =>
      { s with reply := { port := s0.cur.port, tag := s0.cur.tag, result := r }, rxState := .idle, arb := .reply }
    | none => s
  | .reply => earlyPop s0 { s with arb := .idle }

/-- The pop that comes after the submissions of its cycle. -/
def latePop (s0 s : State) : State := if popsLast s0 then s.popRequest else s

/-- Whether the reply in hand is for port `p`, which still waits under its tag (R119). Any other reply is dropped (R120). -/
def replyFor (s0 : State) (p : PortId) : Bool :=
  decide (s0.arb = .reply) && decide (s0.reply.port = p) && (s0.port p).waiting && decide ((s0.port p).tag = s0.reply.tag)

end Sys2Proof.Machine
end

