-- ==== Sys2Proof/Machine/Codec.lean ====
section
/-!
DEFINITION. The codec commands (40_framer.md rules R88, R90): `ENCODE` and `VALIDATE`.
-/
namespace Sys2Proof.Machine

open Sys2Proof

/-- `ENCODE` (R88): the request frame of opcode byte `op`, register `id` and the payload in `DATA_IN` goes to `RESULT`, its
checksum to `CRCV`. Nothing goes on the wire. -/
def execEncode (op id : Byte) (s : State) : Host.Outcome State Fault Refusal :=
  let p := s.active
  let q := s.port p
  let frame := requestFrame op id (q.dinBytes s.cfg.frameMax)
  .next
    (if argsOk s.cfg (.encode op id) q.dinCount then
      s.modPort p (Port.completeFrame s.cfg.frameMax .none (trailer frame) frame .rawOnly Fields.zero)
    else s.failArg p)

/-- `VALIDATE` (R90): the checksum of the frame in `DATA_IN` goes to `CRCV`; `ERR` says whether the trailing byte agrees.
Nothing else is written. -/
def execValidate (s : State) : Host.Outcome State Fault Refusal :=
  let p := s.active
  let q := s.port p
  let frame := q.dinBytes s.cfg.frameMax
  .next
    (if argsOk s.cfg .validate q.dinCount then
      s.modPort p fun q => (q.putStatus (if crcPasses frame then .none else .crc) (csum (csumBody frame))).finish
    else s.failArg p)

end Sys2Proof.Machine
end

