-- ==== Sys2Proof/Machine/RegisterOps.lean ====
section
/-!
DEFINITION. The register operations (43_register_ops.md rules R131 to R142): `READ`, `WRITE_DRY` and `WRITE_COMMIT`. Each
starts with an exchange; what a port does when it is handed the result is the second half of its command.
-/
namespace Sys2Proof.Machine

open Sys2Proof

/-- The end of a read of register `id` (R132, R133), and of a write whose read step failed (R135). -/
def finishRead (p : PortId) (id : Byte) (r : TransportResult) (s : State) : State :=
  let x := readCompose s.cfg id r
  s.modPort p (Port.completeFrame s.cfg.frameMax x.err r.crcv r.raw x.dataType x.fields)

/-- `READ` (R132): the read request of register `id` is submitted and the port waits for the transport result, which
`finishRead` decodes. -/
def execRead (id : Byte) (s : State) : Host.Outcome State Fault Refusal :=
  let p := s.active
  .next
    (match s.submit p .rdWait (readRequest s.cfg id) with
    | some s' => s'
    | none => finishRead p id TransportResult.socket s)

/-- `ERR = BOUNDS` (R136): the read frame stays in `RESULT`, no write is made. -/
def finishBounds (p : PortId) (f : List Byte) (s : State) : State :=
  s.modPort p (Port.completeFrame s.cfg.frameMax .bounds 0 f .rawOnly Fields.zero)

/-- Whether `offset + n` fits the payload of the read frame `f` (R136). -/
def writeFits (f : List Byte) (offset n : Nat) : Bool := decide (offset + n ≤ f.length - 6)

/-- `wbuf <- F`, `wlen <- L` (R137). -/
def Port.putWork (lim : Nat) (frame : List Byte) (q : Port) : Port :=
  { q with wbuf := bufPutBytes lim q.wbuf 0 frame, wlen := BitVec.ofNat 9 frame.length }

/-- What the read step of a write leads to: the command has completed, or the write frame stands in `wbuf`. -/
inductive WriteStep where
  | stopped (s : State)
  | built (frame : List Byte) (crc : Byte) (s : State)

/-- The read step, the bounds check and the building of the write frame, common to both write commands (R135 to R137). -/
def writeStep (p : PortId) (id offset : Byte) (r : TransportResult) (s : State) : WriteStep :=
  let q := s.port p
  let f := r.raw
  if (readCompose s.cfg id r).err ≠ .none then .stopped (finishRead p id r s)
  else if !writeFits f offset.toNat q.dinCount then .stopped (finishBounds p f s)
  else
    let data := q.dinBytes s.cfg.frameMax
    let frame := writeFrame s.cfg f offset.toNat data
    .built frame (writeChecksum s.cfg f offset.toNat data) (s.modPort p (Port.putWork s.cfg.frameMax frame))

/-- The second half of `WRITE_DRY` (R138): the frame that would be sent goes to `RESULT`. -/
def finishWriteDry (p : PortId) (id offset : Byte) (r : TransportResult) (s : State) : State :=
  match writeStep p id offset r s with
  | .stopped s' => s'
  | .built frame crc s' => s'.modPort p (Port.completeFrame s'.cfg.frameMax .none crc frame .rawOnly Fields.zero)

/-- `WRITE_DRY` (R138): starts with the read step (R135). -/
def execWriteDry (id offset : Byte) (s : State) : Host.Outcome State Fault Refusal :=
  let p := s.active
  let q := s.port p
  .next
    (if argsOk s.cfg (.writeDry id offset) q.dinCount then
      match s.submit p .wrReadWait (readRequest s.cfg id) with
      | some s' => s'
      | none => finishWriteDry p id offset TransportResult.socket s
    else s.failArg p)

/-- The end of a commit exchange (R139): the device's answer goes to the result registers, undecoded. -/
def finishCommit (p : PortId) (r : TransportResult) (s : State) : State :=
  s.modPort p (Port.completeFrame s.cfg.frameMax r.err r.crcv r.raw .rawOnly Fields.zero)

/-- The middle of `WRITE_COMMIT` (R139): after the read step the write frame is submitted, a second exchange. -/
def commitWrite (p : PortId) (id offset : Byte) (r : TransportResult) (s : State) : State :=
  match writeStep p id offset r s with
  | .stopped s' => s'
  | .built frame _ s' =>
    match s'.submit p .wrCommitWait frame with
    | some s'' => s''
    | none => finishCommit p TransportResult.socket s'

/-- `WRITE_COMMIT` (R139): starts with the read step (R135). -/
def execWriteCommit (id offset : Byte) (s : State) : Host.Outcome State Fault Refusal :=
  let p := s.active
  let q := s.port p
  .next
    (if argsOk s.cfg (.writeCommit id offset) q.dinCount then
      match s.submit p .wrReadWait (readRequest s.cfg id) with
      | some s' => s'
      | none => commitWrite p id offset TransportResult.socket s
    else s.failArg p)

end Sys2Proof.Machine
end

