-- ==== Sys2Proof/Machine/Registry.lean ====
section
/-!
DEFINITION. The register-dispatch commands (41_dispatch.md rules R95, R108, R109): `CLASSIFY`, `DECODE` and `RAWBYTE`.
-/
namespace Sys2Proof.Machine

open Sys2Proof

/-- `CLASSIFY` (R95): the type of register `id` goes to `TYPE`. A miss is no error. -/
def execClassify (id : Byte) (s : State) : Host.Outcome State Fault Refusal :=
  .next (s.modPort s.active fun q => ((q.putType (classify s.cfg.idTable id)).putStatus .none 0).finish)

/-- `DECODE` (R108): the payload in `DATA_IN` is decoded as the type of this code. A code above 6 or a `DIN_LEN` out of range
is `ARG`; a payload shorter than the type needs is `PROTOCOL`, with the type written and the fields 0. -/
def execDecode (code : Byte) (s : State) : Host.Outcome State Fault Refusal :=
  let p := s.active
  let q := s.port p
  .next
    (match typeOfCode code with
    | none => s.failArg p
    | some t =>
      if argsOk s.cfg (.decode code) q.dinCount then
        let x := extract t (q.dinBytes s.cfg.frameMax)
        s.modPort p fun q => (((q.putType t).putFields x.2).putStatus x.1 0).finish
      else s.failArg p)

/-- `RAWBYTE` (R109): byte `5 + offset` of the frame in `RESULT` goes to `RAWVAL`, or `VALID = 0` where the frame has no such
byte. `ERR` and `CRCV` stay. -/
def execRawbyte (offset : Byte) (s : State) : Host.Outcome State Fault Refusal :=
  let p := s.active
  let q := s.port p
  let i := 5 + offset.toNat
  .next
    (if i < q.resLen.toNat then s.modPort p fun q => (q.putRaw true (bufGet s.cfg.frameMax q.res i)).finish
    else s.modPort p fun q => (q.putRaw false 0).finish)

end Sys2Proof.Machine
end

