-- ==== Sys2Proof/Machine/Transport.lean ====
section
/-!
DEFINITION. The raw exchange command (42_arbitration.md rule R126): `XCHG`.
-/
namespace Sys2Proof.Machine

open Sys2Proof

/-- The end of an `XCHG` (R126): the transport result goes to the result registers, undecoded. -/
def finishXchg (p : PortId) (r : TransportResult) (s : State) : State :=
  s.modPort p (Port.completeFrame s.cfg.frameMax r.err r.crcv r.raw .rawOnly Fields.zero)

/-- `XCHG` (R126): the bytes of `DATA_IN` are submitted verbatim (R113) and the port waits for the transport result, which
`finishXchg` writes. A full queue answers `SOCKET` at once (R114). -/
def execXchg (s : State) : Host.Outcome State Fault Refusal :=
  let p := s.active
  let q := s.port p
  .next
    (if argsOk s.cfg .xchg q.dinCount then
      match s.submit p .xchgWait (q.dinBytes s.cfg.frameMax) with
      | some s' => s'
      | none => finishXchg p TransportResult.socket s
    else s.failArg p)

end Sys2Proof.Machine
end

