-- ==== Sys2Proof/Machine/Dispatch.lean ====
section
/-!
DEFINITION. The dispatch of the nine commands (30_encoding.md rule R65): one arm a command, each one call of its meaning. The
command runs on the port `active` of the state.
-/
namespace Sys2Proof.Machine

def exec (i : Instr) (s : State) : Host.Outcome State Fault Refusal :=
  match i with
  | .xchg => Sys2Proof.Machine.execXchg s
  | .read id => Sys2Proof.Machine.execRead id s
  | .writeDry id offset => Sys2Proof.Machine.execWriteDry id offset s
  | .writeCommit id offset => Sys2Proof.Machine.execWriteCommit id offset s
  | .encode op id => Sys2Proof.Machine.execEncode op id s
  | .validate => Sys2Proof.Machine.execValidate s
  | .classify id => Sys2Proof.Machine.execClassify id s
  | .decode code => Sys2Proof.Machine.execDecode code s
  | .rawbyte offset => Sys2Proof.Machine.execRawbyte offset s

end Sys2Proof.Machine
end

