-- ==== Sys2Proof/Machine/Engine.lean ====
section
/-!
DEFINITION. The command engines of the ports (42_arbitration.md rules R119, R121, R122, R124; 70_reset_and_hazards.md rule
R173): running a latched command, being handed a transport result, and the client timeout.
-/
namespace Sys2Proof.Machine

open Sys2Proof

/-- What a port does with the transport result it is handed, by the wait it is in (R124). Its command's operands are those of
`cmd_latch`; which of the two write commands waits in WR_READ_WAIT is the latch's `OP`. -/
def deliver (p : PortId) (r : TransportResult) (s : State) : State :=
  let w := (s.port p).cmdLatch
  match (s.port p).seq with
  | .idle => s
  | .localCmd => s
  | .xchgWait => finishXchg p r s
  | .rdWait => finishRead p (cmdA w) r s
  | .wrReadWait =>
    if cmdOp w = 0x04 then commitWrite p (cmdA w) (cmdB w) r s else finishWriteDry p (cmdA w) (cmdB w) r s
  | .wrCommitWait => finishCommit p r s

/-- `waiting[p] <- 0`. -/
def Port.stopWait (q : Port) : Port := { q with waiting := false }

/-- A reply or a timeout is handed to port `p`: its wait ends and its engine goes on (R119, R121). -/
def handOver (p : PortId) (r : TransportResult) (s : State) : State := deliver p r (s.modPort p Port.stopWait)

/-- A tick of a waiting port's client timer (R121). -/
def clientTick (p : PortId) (s : State) : State :=
  if (s.port p).wtimer ≤ 1 then handOver p TransportResult.socket s
  else s.modPort p fun q => { q with wtimer := q.wtimer - 1 }

/-- The command engine runs the latched command: `exec` on port `p`, or `ARG` for a word that is no command (R67). -/
def runCommand (p : PortId) (s : State) : Host.Outcome State Fault Refusal :=
  match decode (s.port p).cmdLatch with
  | .ok i => exec i { s with active := p }
  | .error _ => .next (s.failArg p)

/-- Whether port `p`'s engine runs its latched command in this cycle (R173). -/
def runsNow (s0 : State) (p : PortId) : Bool :=
  decide ((s0.port p).seq = .localCmd) && decide ((s0.port p).delay = 0)

/-- Whether port `p`'s engine holds a latched command that it does not run yet (R173). -/
def delaysNow (s0 : State) (p : PortId) : Bool :=
  decide ((s0.port p).seq = .localCmd) && decide ((s0.port p).delay ≠ 0)

/-- What an engine does in a cycle in which it runs no command: count down its delay, take the reply, or count a tick; a
reply wins over a client timeout (R122). -/
def engineWait (x : CycleInput) (s0 : State) (p : PortId) (s : State) : State :=
  if delaysNow s0 p then s.modPort p fun q => { q with delay := q.delay - 1 }
  else if replyFor s0 p then handOver p s0.reply.result s
  else if x.tick && (s0.port p).waiting && decide (s0.cfg.clientTimeout ≠ 0) then clientTick p s
  else s

/-- Port `p`'s part of a cycle. -/
def engineTurn (x : CycleInput) (s0 : State) (p : PortId) (s : State) : Host.Outcome State Fault Refusal :=
  if runsNow s0 p then runCommand p s else .next (engineWait x s0 p s)

/-- The ports in ascending index, the order in which same-cycle submissions are pushed (R115). -/
def allPorts : List PortId := [0, 1, 2, 3, 4, 5, 6, 7, 8, 9, 10, 11, 12, 13, 14]

/-- The engines of the listed ports, one after the other. -/
def enginesTurn (x : CycleInput) (s0 : State) : List PortId → State → Host.Outcome State Fault Refusal
  | [], s => .next s
  | p :: ps, s =>
    match engineTurn x s0 p s with
    | .next s' => enginesTurn x s0 ps s'
    | .fault f => .fault f
    | .refused r => .refused r

end Sys2Proof.Machine
end

