-- ==== Sys2Proof/Machine/Cycle.lean ====
section
/-!
DEFINITION. One clock cycle of the block (10_state.md rules R21, R22; 60_exceptions.md rule R147; 70_reset_and_hazards.md
rules R158 to R160): the inputs, the outputs, the reset, and the agents' turns put together.
-/
namespace Sys2Proof.Machine

open Sys2Proof

/-- The inputs of this cycle: the head of the script, or a free draw when it is used up (R19). -/
def State.input (s : State) : CycleInput :=
  match s.script with
  | [] => Config.draw s.cycle
  | x :: _ => x

/-- What every cycle does whatever the agents do: the script and the cycle number go on, the bus answers from the state at
the start of the cycle, and a byte offered to a ready UART is handed over (R22, R87). -/
def State.outputs (x : CycleInput) (s : State) : State :=
  { s with
    script := s.script.tail
    cycle := s.cycle + 1
    bus := busResponse s x.host
    wire := if x.txReady then s.wire ++ s.txByte.toList else s.wire }

/-- Whether this cycle resets the block: `rst_n = 0`, or a write of 1 to `GCTRL.SRST` (R158). -/
def resetsNow (x : CycleInput) (s : State) : Bool := !x.rstN || softReset s.cfg x.host

/-- The contents of a buffer after the reset in cycle `n`: unspecified, so free (R159, U5). -/
def freeBuffer (c : Params) (b : BufferId) (n : Nat) : Memory :=
  bufPutBytes c.frameMax [] 0 (Config.resetBytes b n)

/-- A port after a reset in cycle `n`. -/
def freshPort (c : Params) (n : Nat) (p : PortId) : Port :=
  { Port.reset with
    din := freeBuffer c (.din p) n
    res := freeBuffer c (.res p) n
    wbuf := freeBuffer c (.wbuf p) n }

/-- The reset state (R159): every register as `State.resetWith` has it, the byte buffers free. The build parameters, the
environment's script and the record of the wire are not the block's to reset (R33, R160). -/
def blockReset (n : Nat) (s : State) : State :=
  { State.resetWith s.cfg with
    ports := portsOf (freshPort s.cfg n)
    rxBuf := freeBuffer s.cfg .rxBuf n
    bus := s.bus
    script := s.script
    cycle := s.cycle
    wire := s.wire }

/-- The cycle up to the engines: the host's access, the receive side and the controller, each deciding from `s0`. -/
def beforeEngines (x : CycleInput) (s0 : State) : State :=
  arbiterTurn x s0 (receiveTurn x s0 (hostTurn x (s0.outputs x)))

/-- One clock cycle with the inputs `x`. -/
def cycleWith (x : CycleInput) (s0 : State) : Host.Outcome State Fault Refusal :=
  if resetsNow x s0 then .next (blockReset s0.cycle (s0.outputs x))
  else
    match enginesTurn x s0 allPorts (beforeEngines x s0) with
    | .next s => .next (latePop s0 s)
    | .fault f => .fault f
    | .refused r => .refused r

/-- A port that has just accepted the command word `w` and runs it in the next cycle. -/
def Port.latched (w : Word) (q : Port) : Port :=
  { q with cmdLatch := w, busy := true, done := false, seq := .localCmd, delay := 0 }

/-- The state whose next cycle is quiet but for port 0, which runs the command word `w` (R26; log entry 11). -/
def State.latchCommand (w : Word) (s : State) : State :=
  { s.modPort 0 (Port.latched w) with script := CycleInput.quiet :: s.script }

end Sys2Proof.Machine
end

