-- ==== Sys2Proof/Machine/Step.lean ====
section
/-!
DEFINITION. One step is one clock cycle (10_state.md rule R21); and the placing of one command where the next step runs it.
-/
namespace Sys2Proof.Machine

open Sys2Proof

/-- One step: one clock cycle with the inputs the state holds for it. -/
def step (s : State) : Host.Outcome State Fault Refusal := cycleWith s.input s

/-- The state whose very next step runs the command word in the low `nbits` bits of `w`, on port 0. -/
def State.withFetchWord (s : State) (nbits w : Nat) : State := s.latchCommand (BitVec.ofNat 32 (w % 2 ^ nbits))

end Sys2Proof.Machine
end

