-- ==== Sys2Proof/Machine/HostSoftware.lean ====
section
/-!
DEFINITION. The host's side of the interface: the assembler of command lines (30_encoding.md rule R70) and the host
pseudo-instructions as host-bus accesses (rule R71). They are not commands of the block. Text is a list of characters.
-/
namespace Sys2Proof.Machine

open Sys2Proof

/-! ### The assembler -/

/-- A white-space character between words. -/
def isBlank (c : Char) : Bool := c = ' ' || c = '\t'

/-- Without leading and trailing blanks. -/
def trim (cs : List Char) : List Char := ((cs.dropWhile isBlank).reverse.dropWhile isBlank).reverse

/-- A line without its comment, which `;` starts (R70). -/
def cutComment (cs : List Char) : List Char := cs.takeWhile fun c => c ≠ ';'

/-- The parts of a text between commas, each trimmed; the text read so far is `acc`, reversed. -/
def splitCommas : List Char → List Char → List (List Char)
  | acc, [] => [trim acc.reverse]
  | acc, c :: cs => if c = ',' then trim acc.reverse :: splitCommas [] cs else splitCommas (c :: acc) cs

/-- The operands after a mnemonic; none where nothing is left. -/
def operandsOf (cs : List Char) : List (List Char) := if trim cs = [] then [] else splitCommas [] cs

/-- The value of a digit below `base`. Capital hex digits are read like small ones. -/
def digitValue (base : Nat) (c : Char) : Option Nat :=
  let n := c.toNat
  let v :=
    if 48 ≤ n ∧ n ≤ 57 then n - 48
    else if 97 ≤ n ∧ n ≤ 102 then n - 87
    else if 65 ≤ n ∧ n ≤ 70 then n - 55
    else base
  if v < base then some v else none

/-- The value of a string of digits, the most significant first; `acc` is the value so far. -/
def digitsValue (base : Nat) : Nat → List Char → Option Nat
  | acc, [] => some acc
  | acc, c :: cs =>
    match digitValue base c with
    | some v => digitsValue base (acc * base + v) cs
    | none => none

/-- A number: decimal, or hexadecimal after `0x`, in 0..255 (R70). -/
def parseByte (cs : List Char) : Option Byte :=
  let n :=
    match cs with
    | [] => none
    | ['0', 'x'] => none
    | '0' :: 'x' :: ds => digitsValue 16 0 ds
    | ds => digitsValue 10 0 ds
  match n with
  | some v => if v ≤ 255 then some (BitVec.ofNat 8 v) else none
  | none => none

/-- The name of a data type as an operand (R70). -/
def typeName : DataType → List Char
  | .rawOnly => ['r', 'a', 'w']
  | .temp100 => ['t', 'e', 'm', 'p', '_', '1', '0', '0']
  | .device => ['d', 'e', 'v', 'i', 'c', 'e']
  | .datetime => ['d', 'a', 't', 'e', 't', 'i', 'm', 'e']
  | .l1Settings1 => ['L', '1', '_', 's', 'e', 't', 't', 'i', 'n', 'g', 's', '1']
  | .l1Settings2 => ['L', '1', '_', 's', 'e', 't', 't', 'i', 'n', 'g', 's', '2']
  | .l1Info => ['L', '1', '_', 'i', 'n', 'f', 'o']

/-- The data types in code order. -/
def allTypes : List DataType := [.rawOnly, .temp100, .device, .datetime, .l1Settings1, .l1Settings2, .l1Info]

/-- A type operand: a type's name or a number (R70). -/
def parseType (cs : List Char) : Option Byte :=
  match allTypes.find? fun t => typeName t = cs with
  | some t => some (BitVec.ofNat 8 (typeCode t))
  | none => parseByte cs

/-- A mnemonic of rule R70. -/
inductive Mnemonic where
  | xchg
  | read
  | writeDry
  | writeCommit
  | encode
  | validate
  | classify
  | decode
  | rawbyte
deriving DecidableEq, Repr

/-- The spelling of a mnemonic (R70). -/
def Mnemonic.text : Mnemonic → List Char
  | .xchg => ['x', 'c', 'h', 'g']
  | .read => ['r', 'e', 'a', 'd']
  | .writeDry => ['w', 'r', 'i', 't', 'e', '.', 'd', 'r', 'y']
  | .writeCommit => ['w', 'r', 'i', 't', 'e', '.', 'c', 'o', 'm', 'm', 'i', 't']
  | .encode => ['e', 'n', 'c', 'o', 'd', 'e']
  | .validate => ['v', 'a', 'l', 'i', 'd', 'a', 't', 'e']
  | .classify => ['c', 'l', 'a', 's', 's', 'i', 'f', 'y']
  | .decode => ['d', 'e', 'c', 'o', 'd', 'e']
  | .rawbyte => ['r', 'a', 'w', 'b', 'y', 't', 'e']

/-- The mnemonics. -/
def allMnemonics : List Mnemonic :=
  [.xchg, .read, .writeDry, .writeCommit, .encode, .validate, .classify, .decode, .rawbyte]

/-- A command from its mnemonic and its operands (R70). -/
def assembleCommand (m : Mnemonic) (ops : List (List Char)) : Option Instr :=
  match m, ops with
  | .xchg, [] => some .xchg
  | .read, [a] => (parseByte a).map Instr.read
  | .writeDry, [a, b] => (parseByte a).bind fun x => (parseByte b).map (Instr.writeDry x)
  | .writeCommit, [a, b] => (parseByte a).bind fun x => (parseByte b).map (Instr.writeCommit x)
  | .encode, [a, b] => (parseByte a).bind fun x => (parseByte b).map (Instr.encode x)
  | .validate, [] => some .validate
  | .classify, [a] => (parseByte a).map Instr.classify
  | .decode, [a] => (parseType a).map Instr.decode
  | .rawbyte, [a] => (parseByte a).map Instr.rawbyte
  | _, _ => none

/-- One line of assembler (R70). -/
def assembleLine (line : List Char) : Option Instr :=
  let cs := trim (cutComment line)
  let word := cs.takeWhile fun c => !isBlank c
  match allMnemonics.find? fun m => m.text = word with
  | some m => assembleCommand m (operandsOf (cs.drop word.length))
  | none => none

/-! ### Host pseudo-instructions -/

/-- The window base `0x1000 * p` plus an offset, as a host address (R71). -/
def portAddr (p : PortId) (off : Nat) : HostAddr := BitVec.ofNat 16 (0x1000 * p.val + off)

/-- The `DATA_IN` writes of `din`, from word `w` on: `n` words of the bytes `bs`, missing bytes 0 (R71). -/
def dinWords (p : PortId) (bs : List Byte) : Nat → Nat → List HostAccess
  | _, 0 => []
  | w, n + 1 =>
    .write (portAddr p (0x400 + 4 * w))
      (le32 (bs.getD (4 * w) 0) (bs.getD (4 * w + 1) 0) (bs.getD (4 * w + 2) 0) (bs.getD (4 * w + 3) 0)) ::
      dinWords p bs (w + 1) n

/-- `din p, b0, …`: the words of `DATA_IN`, then `DIN_LEN` (R71). -/
def pseudoDin (p : PortId) (bs : List Byte) : List HostAccess :=
  dinWords p bs 0 ((bs.length + 3) / 4) ++ [.write (portAddr p 0x00C) (BitVec.ofNat 32 bs.length)]

/-- `issue p, <command>` (R71). -/
def pseudoIssue (p : PortId) (i : Instr) : List HostAccess := [.write (portAddr p 0x004) (encode i)]

/-- The read that `wait p` repeats (R71). -/
def pseudoPoll (p : PortId) : HostAccess := .read (portAddr p 0x008)

/-- The value at which `wait p` ends: `DONE` is set (R71). -/
def pollEnds (status : Word) : Bool := status.getLsbD 1

/-- `ack p`: clears `DONE` (R71). -/
def pseudoAck (p : PortId) : List HostAccess := [.write (portAddr p 0x008) 2]

/-- One thing the host does on the bus: one access, or a read of a port's `STATUS` repeated until `DONE` is set (R71). -/
inductive HostAction where
  | access (a : HostAccess)
  | poll (p : PortId)
deriving DecidableEq, Repr

/-- `wait p`: repeat the read until it answers `DONE = 1` (R71). -/
def pseudoWait (p : PortId) : List HostAction := [.poll p]

/-- `do p, <command>`: `issue p, <command>`, then `wait p` (R71). -/
def pseudoDo (p : PortId) (i : Instr) : List HostAction := (pseudoIssue p i).map HostAction.access ++ pseudoWait p

/-- A host pseudo-instruction of rule R71. -/
inductive Pseudo where
  | din (p : PortId) (bs : List Byte)
  | issue (p : PortId) (i : Instr)
  | wait (p : PortId)
  | ack (p : PortId)
  | run (p : PortId) (i : Instr)
deriving DecidableEq, Repr

/-- The host-bus sequence that a pseudo-instruction names; `run` is the spec's `do` (R71). -/
def Pseudo.actions : Pseudo → List HostAction
  | .din p bs => (pseudoDin p bs).map HostAction.access
  | .issue p i => (pseudoIssue p i).map HostAction.access
  | .wait p => pseudoWait p
  | .ack p => (pseudoAck p).map HostAction.access
  | .run p i => pseudoDo p i

/-- What a host program of pseudo-instructions does on the bus, one after the other. -/
def programActions (program : List Pseudo) : List HostAction := program.flatMap Pseudo.actions

/-- The access a host makes next; one that has nothing left to do makes none. -/
def nextAccess : List HostAction → HostAccess
  | [] => .idle
  | .access a :: _ => a
  | .poll p :: _ => pseudoPoll p

/-- Whether a poll is over with this answer of the bus (R71). -/
def pollAnswered : BusResponse → Bool
  | .read status _ => pollEnds status
  | .idle => false
  | .write _ => false

/-- What a host has left to do after its access was answered: an access is done with, a poll only if `DONE` was set. -/
def afterAnswer (r : BusResponse) : List HostAction → List HostAction
  | [] => []
  | .access _ :: rest => rest
  | .poll p :: rest => if pollAnswered r then rest else .poll p :: rest

/-- The accesses one per cycle, in order (R51), with nothing else coming in. -/
def accessScript (accesses : List HostAccess) : List CycleInput :=
  accesses.map fun a => { CycleInput.quiet with host := a }

end Sys2Proof.Machine
end

