-- ==== Sys2Proof/Machine/Liveness.lean ====
section
/-!
DEFINITION. Runs of the block, and the two assumptions on its environment under which every exchange ends (42_arbitration.md
rule R129): the UART takes every byte it is offered, and ticks go on coming. They are assumptions and no behaviour of the block,
and without them it may stay in ARB_TX or in ARB_RX for ever.
-/
namespace Sys2Proof.Machine

open Sys2Proof

/-- A run without a reset: state `s (n + 1)` is what the cycle with the inputs `x n` makes of state `s n`. -/
def IsRun (x : Nat → CycleInput) (s : Nat → State) : Prop :=
  ∀ n, resetsNow (x n) (s n) = false ∧ cycleWith (x n) (s n) = .next (s (n + 1))

/-- FAIRNESS of the UART: `tx_ready` is asserted infinitely often, so that every byte offered is taken within finitely many
cycles (R129). -/
def UartFair (x : Nat → CycleInput) : Prop := ∀ n, ∃ m, n ≤ m ∧ (x m).txReady = true

/-- FAIRNESS of the tick source: `tick` pulses infinitely often (R129). -/
def TickFair (x : Nat → CycleInput) : Prop := ∀ n, ∃ m, n ≤ m ∧ (x m).tick = true

/-- In how many of the `k` cycles from cycle `n` on `f` is true. -/
def tally (f : Nat → Bool) : Nat → Nat → Nat
  | _, 0 => 0
  | n, k + 1 => (f n).toNat + tally f (n + 1) k

/-- The UART takes a byte in this cycle (R22, R87). -/
def handshake (x : CycleInput) (s : State) : Bool := x.txReady && s.txByte.isSome

/-- The framer takes a byte in this cycle (R75). -/
def takesByte (x : CycleInput) (s : State) : Bool := s.rxState.isWaiting && !(s.rxq ++ x.rx.toList).isEmpty

/-- A tick comes while the framer waits (R81). -/
def ticksFramer (x : CycleInput) (s : State) : Bool := s.rxState.isWaiting && x.tick

end Sys2Proof.Machine
end

