-- ==== Sys2Proof/Machine/Render.lean ====
section
/-!
DEFINITION. What a host makes of the block's registers: the rendering of decoded fields (41_dispatch.md rule R105), the hex dump
of the logging path (rule R110) and the text envelope (42_arbitration.md rule R130). The block computes none of it. Text is a
list of characters.
-/
namespace Sys2Proof.Machine

open Sys2Proof

/-- Hundredths as an exact rational (R105). -/
def hundredths (n : Int) : ℚ := (n : ℚ) / 100

/-- `temperature` in °C: the signed value of `FIELD0` / 100 (R99, R105). -/
def temperature (fl : Fields) : ℚ := hundredths fl.f0.toInt

/-- `firmwareVersion`: `FIELD2` / 100 (R100, R105). -/
def firmwareVersion (fl : Fields) : ℚ := hundredths fl.f2.toNat

/-- A decimal digit. -/
def decimalDigit (n : Nat) : Char := ['0', '1', '2', '3', '4', '5', '6', '7', '8', '9'].getD (n % 10) '0'

/-- The decimal digits of a number, by at most `fuel` digits before the last. -/
def decimalUpTo : Nat → Nat → List Char
  | 0, n => [decimalDigit n]
  | fuel + 1, n => if n < 10 then [decimalDigit n] else decimalUpTo fuel (n / 10) ++ [decimalDigit n]

/-- A 32-bit number in decimal with no padding: at most ten digits. -/
def decimal (w : Word) : List Char := decimalUpTo 9 w.toNat

/-- Two decimal digits with a leading zero; a number of three digits or more keeps all of them. -/
def decimal02 (w : Word) : List Char := if w.toNat < 10 then '0' :: decimal w else decimal w

/-- `date`: "day.month.year" (R105). -/
def renderDate (fl : Fields) : List Char := decimal fl.f2 ++ ['.'] ++ decimal fl.f1 ++ ['.'] ++ decimal fl.f0

/-- `time`: "hour:minute:second", minute and second padded to two digits (R105). -/
def renderTime (fl : Fields) : List Char := decimal fl.f3 ++ [':'] ++ decimal02 fl.f4 ++ [':'] ++ decimal02 fl.f5

/-- A lower-case hex digit (R130). -/
def hexDigit (n : Nat) : Char :=
  ['0', '1', '2', '3', '4', '5', '6', '7', '8', '9', 'a', 'b', 'c', 'd', 'e', 'f'].getD (n % 16) '0'

/-- The two hex digits of a byte, the high one first. -/
def hexByte (b : Byte) : List Char := [hexDigit (b.toNat / 16), hexDigit b.toNat]

/-- The space-separated hex dump of a frame: two digits a byte and one separator between bytes (R110). -/
def hexDump : List Byte → List Char
  | [] => []
  | [b] => hexByte b
  | b :: c :: bs => hexByte b ++ ' ' :: hexDump (c :: bs)

/-- The two characters at `(5 + offset) * 3` of a dump, which the logging path reads (R110). -/
def dumpChars (dump : List Char) (offset : Nat) : List Char := (dump.drop ((5 + offset) * 3)).take 2

/-- The envelope's `error` field: absent for NONE, and for `BOUNDS` and `ARG`, which the envelope has no text for (R130). -/
def envelopeError (e : ErrTag) (crcv : Byte) : Option (List Char) :=
  match e with
  | .none => none
  | .timeout => some ['t', 'i', 'm', 'e', 'o', 'u', 't']
  | .protocol => some ['p', 'r', 'o', 't', 'o', 'c', 'o', 'l']
  | .crc => some (['c', 'r', 'c', ' '] ++ hexByte crcv)
  | .socket => some ['s', 'o', 'c', 'k', 'e', 't']
  | .bounds => none
  | .arg => none

/-- The envelope's `raw` field: the dump of `RESULT[0..RES_LEN-1]` (R130). -/
def envelopeRaw (lim : Nat) (q : Port) : List Char := hexDump (bufTake lim q.res q.resLen.toNat)

end Sys2Proof.Machine
end

