-- ==== Sys2Proof/Safety.lean ====
section
/-!
DEFINITION. What the statements call a well-kept state, and the terms they say "unchanged" in. Each predicate below is an
invariant: it holds right after reset and every step keeps it.
-/
namespace Sys2Proof.Machine

open Sys2Proof

/-! ### Well-kept states -/

/-- A buffer of `lim` bytes in canonical form: indices rise, no listed byte is 0, no index past the storage is listed. -/
def bufferOk (lim : Nat) (m : Memory) : Prop := Memory.wf m = true ∧ ∀ c ∈ m, c.1 < lim

/-- Every byte buffer of the block is in canonical form. -/
def State.BuffersOk (s : State) : Prop :=
  bufferOk s.cfg.frameMax s.rxBuf ∧
    ∀ p, bufferOk s.cfg.frameMax (s.port p).din ∧ bufferOk s.cfg.frameMax (s.port p).res ∧
      bufferOk s.cfg.frameMax (s.port p).wbuf

/-- The wait states of a command engine (R124). -/
def SeqState.isWait : SeqState → Bool
  | .xchgWait => true
  | .rdWait => true
  | .wrReadWait => true
  | .wrCommitWait => true
  | .idle => false
  | .localCmd => false

/-- A port's flags agree with its engine: `BUSY` while the engine is not idle, `waiting` in a wait state, never `BUSY` and
`DONE` together (R27, R31, R124). That the engine is not idle from a command's acceptance on, whichever command it is, is the
model's choice (log entry 5). -/
def Port.Coherent (q : Port) : Prop :=
  (q.busy = true ↔ q.seq ≠ .idle) ∧ q.waiting = q.seq.isWait ∧ ¬(q.busy = true ∧ q.done = true)

/-- Every port is coherent, and a port from `NUM_PORTS` on is idle: nothing reaches it (R41). -/
def State.PortsOk (s : State) : Prop :=
  ∀ p, (s.port p).Coherent ∧ (s.cfg.numPorts ≤ p.val → (s.port p).seq = .idle)

/-- The length at which a frame that declares `n` is complete: `max(4, n + TERM_BIAS)` (R80). -/
def frameLength (c : Params) (n : Byte) : Nat := max 4 (n.toNat + c.termBias)

/-- The framer's count and buffer agree with its state (R76 to R80): so many bytes are buffered, byte 0 is the marker, and
byte 2 is the length in `rx_len`. -/
def State.FramerOk (s : State) : Prop :=
  match s.rxState with
  | .idle => s.rxCnt.toNat ≤ s.cfg.frameMax
  | .awaitMarker => s.rxCnt = 0
  | .awaitHeader1 => s.rxCnt = 1 ∧ bufGet s.cfg.frameMax s.rxBuf 0 = 0x02
  | .awaitHeader2 => s.rxCnt = 2 ∧ bufGet s.cfg.frameMax s.rxBuf 0 = 0x02
  | .accum =>
    3 ≤ s.rxCnt.toNat ∧ s.rxCnt.toNat < frameLength s.cfg s.rxLen ∧ bufGet s.cfg.frameMax s.rxBuf 0 = 0x02 ∧
      bufGet s.cfg.frameMax s.rxBuf 2 = s.rxLen
  | .complete =>
    s.rxCnt.toNat = frameLength s.cfg s.rxLen ∧ bufGet s.cfg.frameMax s.rxBuf 0 = 0x02 ∧
      bufGet s.cfg.frameMax s.rxBuf 2 = s.rxLen
  | .errProtocol => s.rxCnt = 0
  | .errTimeout => s.rxCnt = 0

/-- The framer is at work exactly while the controller is in ARB_RX (R111, R117, R118). -/
def State.LineOk (s : State) : Prop := (s.arb = .rx ↔ s.rxState ≠ .idle) ∧ s.FramerOk

/-- The queues stay within their depths (R35, R37), every request and the reply in hand fit a frame buffer (R112), and in
ARB_TX the next byte is one of the request's, which is empty only where nothing is to be sent (R117): so it is because the
model leaves ARB_TX in the cycle of the last handshake (log entry 6). -/
def State.QueuesOk (s : State) : Prop :=
  s.rq.length ≤ s.cfg.qDepth ∧ s.rxq.length ≤ s.cfg.rxFifoDepth ∧ (∀ r ∈ s.rq, r.bytes.length ≤ s.cfg.frameMax) ∧
    s.cur.bytes.length ≤ s.cfg.frameMax ∧ s.reply.result.raw.length ≤ s.cfg.frameMax ∧
    (s.arb = .tx → s.txIdx.toNat < s.cur.bytes.length ∨ (s.txIdx = 0 ∧ s.cur.bytes = []))

/-- The tags of port `p`'s requests that the controller still holds: the one in service, then the queued ones in order. -/
def State.liveTags (s : State) (p : PortId) : List Nat :=
  (((if s.arb = .idle then [] else [s.cur]) ++ s.rq).filter fun r => decide (r.port = p)).map Request.tag

/-- A port's live requests carry its last tags, the newest its current one, each older one a tag before (R114, R120). A
waiting port has a live request (R119, R121), and the reply in hand is that of the request in service (R118). -/
def State.TagsOk (s : State) : Prop :=
  (∀ p, (s.port p).tag < 2 ^ s.cfg.tagBits ∧ (∀ t ∈ s.liveTags p, t < 2 ^ s.cfg.tagBits) ∧
      (∀ j, j < (s.liveTags p).length →
        ((s.liveTags p).reverse.getD j 0 + j) % 2 ^ s.cfg.tagBits = (s.port p).tag) ∧
      ((s.port p).waiting = true → s.liveTags p ≠ [])) ∧
    (s.arb = .reply → s.reply.port = s.cur.port ∧ s.reply.tag = s.cur.tag)

/-- A state that keeps every invariant of a block that rule R162 allows. -/
def State.WellKept (s : State) : Prop := s.cfg.Valid ∧ s.PortsOk ∧ s.LineOk ∧ s.QueuesOk ∧ s.TagsOk

/-! ### What stays as it was -/

/-- Everything but port `p` is as it was. -/
def sameButPort (p : PortId) (s t : State) : Prop :=
  { t with ports := s.ports } = s ∧ ∀ r, r ≠ p → t.port r = s.port r

/-- Everything but port `p` and the request queue is as it was. -/
def sameButPortAndQueue (p : PortId) (s t : State) : Prop :=
  { t with ports := s.ports, rq := s.rq } = s ∧ ∀ r, r ≠ p → t.port r = s.port r

/-- A port's command has completed (R39): `BUSY` 0, `DONE` 1, the engine idle. -/
def Port.Completed (q : Port) : Prop := q.busy = false ∧ q.done = true ∧ q.seq = .idle

/-- From `q` to `q'` nothing changed but the flags of completion, `ERR` and `CRCV`. -/
def sameButStatus (q q' : Port) : Prop :=
  { q' with busy := q.busy, done := q.done, seq := q.seq, err := q.err, crcv := q.crcv } = q

/-- From `q` to `q'` nothing changed but the flags of completion, `ERR`, `CRCV`, `TYPE` and the fields. -/
def sameButFields (q q' : Port) : Prop :=
  { q' with
    busy := q.busy, done := q.done, seq := q.seq, err := q.err, crcv := q.crcv, dataType := q.dataType,
    fields := q.fields } = q

/-- From `q` to `q'` nothing changed but the flags of completion, `ERR`, `CRCV`, `TYPE`, the fields, `RES_LEN` and `RESULT`;
and `RESULT` changed in its first `n` bytes at most: a byte, "once written", "holds its value" (93_implementation_defined.md U5;
log entry 20). -/
def sameButFrame (n : Nat) (q q' : Port) : Prop :=
  { q' with
    busy := q.busy, done := q.done, seq := q.seq, err := q.err, crcv := q.crcv, dataType := q.dataType,
    fields := q.fields, resLen := q.resLen, res := q.res } = q ∧
    ∀ k, n ≤ k → q'.res.read k = q.res.read k

/-- The command `i` run in `s` raises `ARG`: it completes with `ERR = ARG` and `CRCV = 0` and changes nothing else. -/
def raisesArg (i : Instr) (s : State) : Prop :=
  ∃ t, exec i s = .next t ∧ sameButPort s.active s t ∧ sameButStatus (s.port s.active) (t.port s.active) ∧
    (t.port s.active).Completed ∧ (t.port s.active).err = .arg ∧ (t.port s.active).crcv = 0

/-- From `s` to `t` port `p` submitted the request `bytes` and entered the wait `w`, and nothing else changed (R114). -/
def submits (p : PortId) (w : SeqState) (bytes : List Byte) (s t : State) : Prop :=
  sameButPortAndQueue p s t ∧
    t.rq = s.rq ++ [{ port := p, tag := ((s.port p).tag + 1) % 2 ^ s.cfg.tagBits, bytes := bytes }] ∧
    t.port p =
      { s.port p with
        seq := w, tag := ((s.port p).tag + 1) % 2 ^ s.cfg.tagBits, waiting := true, wtimer := s.cfg.clientTimeout }

/-- From `s` to `t` port `p` completed with `SOCKET` and no frame, and nothing else changed (R114, R143). -/
def endsInSocket (p : PortId) (s t : State) : Prop :=
  sameButPort p s t ∧ sameButFrame 0 (s.port p) (t.port p) ∧ (t.port p).Completed ∧ (t.port p).err = .socket ∧
    (t.port p).crcv = 0 ∧ (t.port p).resLen = 0 ∧ (t.port p).dataType = .rawOnly ∧ (t.port p).fields = Fields.zero

/-- The registers of a port at the values of rule R159. -/
def Port.IsReset (q : Port) : Prop :=
  q.ie = false ∧ q.cmdLatch = 0 ∧ q.busy = false ∧ q.done = false ∧ q.wign = false ∧ q.err = .none ∧ q.crcv = 0 ∧
    q.dinLen = 0 ∧ q.resLen = 0 ∧ q.dataType = .rawOnly ∧ q.rawValue = 0 ∧ q.rawValid = false ∧ q.fields = Fields.zero ∧
    q.seq = .idle ∧ q.tag = 0 ∧ q.waiting = false ∧ q.wtimer = 0 ∧ q.wlen = 0

/-- The state of the block at the values of rule R159. The byte buffers are not named: their contents are unspecified. -/
def State.IsReset (s : State) : Prop :=
  (∀ p, (s.port p).IsReset ∧ s.irq p = false) ∧ s.arb = .idle ∧ s.rq = [] ∧ s.txIdx = 0 ∧ s.txByte = none ∧
    s.rxState = .idle ∧ s.rxCnt = 0 ∧ s.rxLen = 0 ∧ s.rxTimer = 0 ∧ s.rxq = [] ∧ s.rxOvr = false

/-- The registers of the receive framer (R36). -/
def State.framer (s : State) : RxState × Memory × Count × Byte × Nat := (s.rxState, s.rxBuf, s.rxCnt, s.rxLen, s.rxTimer)

/-- From `s` to `t` port `p`'s engine entered a wait state, from none or from another one (R114, R124). -/
def entersWait (s t : State) (p : PortId) : Bool := (t.port p).seq.isWait && decide ((t.port p).seq ≠ (s.port p).seq)

/-- The byte addresses of the registers of rule R41's map. -/
abbrev mappedAddr (c : Params) (a : Nat) : Prop :=
  (a / 0x1000 < 15 ∧ a / 0x1000 < c.numPorts ∧
      (a % 0x1000 < 0x01C ∨ (0x020 ≤ a % 0x1000 ∧ a % 0x1000 < 0x038) ∨ (0x400 ≤ a % 0x1000 ∧ a % 0x1000 < 0x504) ∨
        (0x800 ≤ a % 0x1000 ∧ a % 0x1000 < 0x904))) ∨
    (0xF000 ≤ a ∧ a < 0xF018) ∨ (0xF100 ≤ a ∧ a < 0xF100 + 4 * c.idTable.length)

/-- The addresses whose registers no host write changes (R30, R32, R33, R43); unmapped ones are among them. -/
abbrev readOnlyAddr (a : Nat) : Prop :=
  (a < 0xF000 ∧ 0x010 ≤ a % 0x1000 ∧ (a % 0x1000 < 0x400 ∨ 0x504 ≤ a % 0x1000)) ∨ (0xF000 ≤ a ∧ a ≠ 0xF008 ∧ a ≠ 0xF00C)

/-- The result registers of a port (R30, R49). -/
def Port.results (q : Port) : ErrTag × Byte × Count × Memory × DataType × Byte × Bool × Fields :=
  (q.err, q.crcv, q.resLen, q.res, q.dataType, q.rawValue, q.rawValid, q.fields)

/-- The operands of a port's command (R50): the latched word and the operand registers. -/
def Port.operands (q : Port) : Word × Count × Memory := (q.cmdLatch, q.dinLen, q.din)

/-- The frame in `RESULT[0..RES_LEN-1]`. -/
def Port.resultFrame (lim : Nat) (q : Port) : List Byte := bufTake lim q.res q.resLen.toNat

/-- The reply in hand is for port `p`, which still waits under its tag (R119). -/
abbrev replyReaches (s : State) (p : PortId) : Prop :=
  s.arb = .reply ∧ s.reply.port = p ∧ (s.port p).waiting = true ∧ (s.port p).tag = s.reply.tag

/-- Port `p` holds a latched command whose delay is over (R173; log entry 4). -/
abbrev commandDue (s : State) (p : PortId) : Prop := (s.port p).seq = .localCmd ∧ (s.port p).delay = 0

/-- Port `p`'s client timer sees a tick (R121). -/
abbrev tickCounts (x : CycleInput) (s : State) (p : PortId) : Prop :=
  x.tick = true ∧ (s.port p).waiting = true ∧ s.cfg.clientTimeout ≠ 0

/-- Nothing of port `p`'s engine happens in the cycle with inputs `x`: it holds no command to run or to wait for, and no reply
and no counted tick reaches it. -/
def engineIdle (x : CycleInput) (s : State) (p : PortId) : Bool :=
  decide ((s.port p).seq ≠ .localCmd) && !decide (replyReaches s p) && !decide (tickCounts x s p)

/-- How many requests a submission of port `p` can find queued in the cycle from `s` to `t` (R114, R115): those queued at the
start of the cycle and one of each lower port that enters a wait in it, or one less where the controller pops first (log
entries 9 and 28). -/
def countsFor (s t : State) (p : PortId) (n : Nat) : Prop :=
  let count := s.rq.length + (allPorts.filter fun r => entersWait s t r && decide (r < p)).length
  n = count ∨ (s.rq ≠ [] ∧ (s.arb = .idle ∨ s.arb = .reply) ∧ n + 1 = count)

/-- A state in which the controller and the framer are idle and no port holds a command to run. -/
def State.Calm (s : State) : Prop :=
  s.arb = .idle ∧ s.rq = [] ∧ s.rxState = .idle ∧ ∀ p, (s.port p).seq ≠ .localCmd

end Sys2Proof.Machine
end

