-- ==== Sys2Proof/Certificates/Slice0/Obligations.lean ====
section
/-!
DEFINITION. The statements about the model, for the provers. `OBLIGATIONS.json` lists them with the rules they rest on.
-/

open Sys2Proof Sys2Proof.Machine

/-! ### Encoding -/

/-- R64, R65, R67, R70: decoding the word of a command gives the command back; a word decodes to a command exactly if it
agrees with the command's word on the bits its table row fixes or reads; the decoder refuses the words with a non-zero `RSV`,
with `OP` 0 and with `OP` above 9. Rule R67 lists a `DECODE` with `A` above 6 as illegal too: that the decoder reads it as an
ill-formed `DECODE`, on which the meaning raises `ARG`, is the model's choice (log entry 16). -/
def Obligations.DecodeAndEncodeAgree : Prop :=
  (∀ i : Instr, decode (encode i) = .ok i) ∧
    (∀ (w : Word) (i : Instr), decode w = .ok i ↔ w &&& encodingMask i = encode i) ∧
    ∀ w : Word,
      (∃ e, decode w = .error e) ↔ (w.extractLsb' 0 8 ≠ 0 ∨ w.extractLsb' 24 8 = 0 ∨ 9 < (w.extractLsb' 24 8).toNat)

/-- The command words that 95_test_vectors.md writes out decode to their commands. -/
def Obligations.DecodesTheSpecsWords : Prop :=
  decode 0x01000000 = .ok .xchg ∧ decode 0x02100000 = .ok (.read 0x10) ∧ decode 0x03400100 = .ok (.writeDry 0x40 1) ∧
    decode 0x04401500 = .ok (.writeCommit 0x40 21) ∧ decode 0x05521000 = .ok (.encode 0x52 0x10) ∧
    decode 0x06000000 = .ok .validate ∧ decode 0x07300000 = .ok (.classify 0x30) ∧
    decode 0x08030000 = .ok (.decode 3) ∧ decode 0x09000100 = .ok (.rawbyte 1)

/-- R68: each type has its code, codes above 6 are no type, and no two types share a code. -/
def Obligations.TypeCodesNameTheTypes : Prop :=
  typeOfCode 0 = some .rawOnly ∧ typeOfCode 1 = some .temp100 ∧ typeOfCode 2 = some .device ∧
    typeOfCode 3 = some .datetime ∧ typeOfCode 4 = some .l1Settings1 ∧ typeOfCode 5 = some .l1Settings2 ∧
    typeOfCode 6 = some .l1Info ∧ (∀ c : Byte, 6 < c.toNat → typeOfCode c = none) ∧
    ∀ (c : Byte) (t : DataType), typeOfCode c = some t ↔ c.toNat = typeCode t

/-! ### Steps run commands -/

/-- R26, R65, R173: in a cycle that resets nothing, a busy port whose latched word is a command and whose delay is over runs it,
whatever the other engines do: the port becomes what `exec` of the command makes of it as the host's access left it, with the
queue as full as the port finds it (R114, R115). Where no other engine has anything to do, the step is `exec` of that command
after the other agents' turns. A latched word that is no command raises `ARG` (R67). The delay is log entry 4, whether and
where in the cycle a request is popped log entries 9 and 28. -/
def Obligations.StepRunsTheLatchedCommand : Prop :=
  (∀ (s t : State) (p : PortId), resetsNow s.input s = false → commandDue s p → (s.port p).busy = true → step s = .next t →
      ∃ u : State, u.cfg = s.cfg ∧ u.active = p ∧ u.port p = (hostTurn s.input s).port p ∧ countsFor s t p u.rq.length ∧
        (∀ i, decode (s.port p).cmdLatch = .ok i → ∃ v, exec i u = .next v ∧ t.port p = v.port p) ∧
        ∀ e, decode (s.port p).cmdLatch = .error e → t.port p = (u.failArg p).port p) ∧
    (∀ (s : State) (p : PortId), resetsNow s.input s = false → commandDue s p → (s.port p).busy = true →
      (∀ r, r ≠ p → engineIdle s.input s r = true) →
      (∀ i, decode (s.port p).cmdLatch = .ok i →
        step s =
          match exec i { beforeEngines s.input s with active := p } with
          | .next t => .next (latePop s t)
          | .fault f => .fault f
          | .refused r => .refused r) ∧
      (∀ e, decode (s.port p).cmdLatch = .error e → step s = .next (latePop s ((beforeEngines s.input s).failArg p)))) ∧
    ∀ (s t : State) (p : PortId), resetsNow s.input s = false → (s.port p).seq = .localCmd → (s.port p).delay ≠ 0 →
      (s.port p).busy = true → step s = .next t →
      t.port p = { (hostTurn s.input s).port p with delay := (s.port p).delay - 1 }

/-- From a calm state with a command's word placed, the very next step is `exec` of that command on port 0 (log entry 11). -/
def Obligations.StepRunsTheFetchedWord : Prop :=
  ∀ (s : State) (i : Instr), s.Calm →
    step (s.withFetchWord 32 (encode i).toNat) =
      exec i { s.modPort 0 (Port.latched (encode i)) with cycle := s.cycle + 1, bus := .idle, active := 0 }

/-- R33, R128, R144: the block never stops: every step of every state answers a next state, with the same build parameters. -/
def Obligations.EveryStepAnswersANextState : Prop := ∀ s : State, ∃ t, step s = .next t ∧ t.cfg = s.cfg

/-! ### The codec -/

/-- R72: the checksum is the sum of the bytes mod 256, in any order, over the bytes from index 1 up to the one before the
trailer. -/
def Obligations.ChecksumIsTheSumOfTheBytes : Prop :=
  (∀ bs : List Byte, (csum bs).toNat = (bs.map BitVec.toNat).sum % 256) ∧
    (∀ bs cs : List Byte, bs.Perm cs → csum bs = csum cs) ∧
    (∀ f : List Byte, (csumBody f).length = f.length - 2 ∧ ∀ k, k < f.length - 2 → (csumBody f)[k]? = f[k + 1]?) ∧
    csum [] = 0 ∧ csum (List.replicate 256 0x01) = 0 ∧ csum [0xFF, 0x01] = 0 ∧ csum [0x52, 0x02, 0x00, 0x10] = 0x64

/-- R73: the checksum laws. -/
def Obligations.ChecksumLawsHold : Prop :=
  (∀ a b : List Byte, csum (a ++ b) = csum a + csum b) ∧
    (∀ (bs : List Byte) (i : Nat) (v : Byte), i < bs.length → csum (bs.set i v) = csum bs + (v - bs.getD i 0)) ∧
    ∀ (bs : List Byte) (i j : Nat), i < bs.length → j < bs.length →
      csum ((bs.set i (bs.getD j 0)).set j (bs.getD i 0)) = csum bs

/-- R88: `ENCODE` with a payload within its limit completes with the request frame in `RESULT`. That `RESULT` past the frame
stays is log entry 20. -/
def Obligations.EncodeBuildsTheRequestFrame : Prop :=
  ∀ (op id : Byte) (s : State), s.cfg.Valid → (s.port s.active).dinLen.toNat ≤ s.cfg.frameMax - 6 →
    ∃ t, exec (.encode op id) s = .next t ∧ sameButPort s.active s t ∧
      let q := s.port s.active
      let q' := t.port s.active
      let data := bufTake s.cfg.frameMax q.din q.dinLen.toNat
      sameButFrame (q.dinLen.toNat + 6) q q' ∧ q'.Completed ∧ q'.err = .none ∧
        q'.crcv = op + 0x02 + 0x00 + id + csum data ∧ q'.resLen.toNat = q.dinLen.toNat + 6 ∧
        q'.resultFrame s.cfg.frameMax = [0x02, op, 0x02, 0x00, id] ++ data ++ [q'.crcv] ∧ q'.dataType = .rawOnly ∧
        q'.fields = Fields.zero

/-- R90: `VALIDATE` of 2 to `FRAME_MAX` bytes completes with the checksum of bytes 1 to n-2 in `CRCV` and `NONE` or `CRC` as
the last byte agrees. -/
def Obligations.ValidateComparesTheChecksum : Prop :=
  ∀ s : State, 2 ≤ (s.port s.active).dinLen.toNat → (s.port s.active).dinLen.toNat ≤ s.cfg.frameMax →
    ∃ t, exec .validate s = .next t ∧ sameButPort s.active s t ∧
      let q := s.port s.active
      let q' := t.port s.active
      let n := q.dinLen.toNat
      let f := bufTake s.cfg.frameMax q.din n
      let c := csum ((f.drop 1).take (n - 2))
      sameButStatus q q' ∧ q'.Completed ∧ q'.crcv = c ∧
        q'.err = if c = bufGet s.cfg.frameMax q.din (n - 1) then ErrTag.none else ErrTag.crc

/-- R89: `VALIDATE` of the frame that `ENCODE` produced reports `NONE` and the checksum that was appended. -/
def Obligations.ValidateAcceptsWhatEncodeBuilt : Prop :=
  ∀ (op id : Byte) (s t u v : State), s.cfg.Valid → (s.port s.active).dinLen.toNat ≤ s.cfg.frameMax - 6 →
    exec (.encode op id) s = .next t → u.cfg = s.cfg →
    (u.port u.active).dinLen = (t.port s.active).resLen →
    (∀ k, k < (t.port s.active).resLen.toNat →
      bufGet s.cfg.frameMax (u.port u.active).din k = bufGet s.cfg.frameMax (t.port s.active).res k) →
    exec .validate u = .next v →
    (v.port u.active).err = .none ∧ (v.port u.active).crcv = (t.port s.active).crcv ∧
      bufGet s.cfg.frameMax (t.port s.active).res ((t.port s.active).resLen.toNat - 1) = (v.port u.active).crcv

/-! ### Register dispatch -/

/-- R92, R93, R94: an entry whose `idEnd` is below its `idStart` matches its start and nothing else; the first entry in table
order that matches gives the type, whatever follows it; an id that no entry matches is raw-only. -/
def Obligations.FirstMatchingEntryGivesTheType : Prop :=
  (∀ (e : IdEntry) (id : Byte),
      (e.idEnd < e.idStart → (IdEntry.matchesId e id = true ↔ id = e.idStart)) ∧
        (e.idEnd = e.idStart → (IdEntry.matchesId e id = true ↔ id = e.idStart)) ∧
        (e.idStart < e.idEnd → (IdEntry.matchesId e id = true ↔ e.idStart ≤ id ∧ id ≤ e.idEnd))) ∧
    (∀ (before after : List IdEntry) (e : IdEntry) (id : Byte),
      (∀ d ∈ before, IdEntry.matchesId d id = false) → IdEntry.matchesId e id = true →
      classify (before ++ e :: after) id = e.dataType) ∧
    ∀ (table : List IdEntry) (id : Byte), (∀ d ∈ table, IdEntry.matchesId d id = false) → classify table id = .rawOnly

/-- R95: `CLASSIFY` completes with the id's type in `TYPE`. -/
def Obligations.ClassifyWritesTheType : Prop :=
  ∀ (id : Byte) (s : State), ∃ t, exec (.classify id) s = .next t ∧ sameButPort s.active s t ∧
    let q := s.port s.active
    let q' := t.port s.active
    { q' with
      busy := q.busy, done := q.done, seq := q.seq, err := q.err, crcv := q.crcv, dataType := q.dataType } = q ∧
      q'.Completed ∧ q'.err = .none ∧ q'.crcv = 0 ∧ q'.dataType = classify s.cfg.idTable id

/-- R97, R99 to R104: how many payload bytes each type needs, and where each field's bits come from, as numbers. -/
def Obligations.FieldsHoldTheLayoutsBytes : Prop :=
  (requiredLength .rawOnly = 0 ∧ requiredLength .temp100 = 2 ∧ requiredLength .device = 18 ∧ requiredLength .datetime = 7 ∧
    requiredLength .l1Settings1 = 22 ∧ requiredLength .l1Settings2 = 11 ∧ requiredLength .l1Info = 15) ∧
  ∀ pl : List Byte,
    let b := fun k => (pl.getD k 0).toNat
    fieldsOf .rawOnly pl = Fields.zero ∧
    ((fieldsOf .temp100 pl).f0.toInt =
        (if b 0 < 128 then (256 * b 0 + b 1 : Int) else (256 * b 0 + b 1 : Int) - 65536) ∧
      (fieldsOf .temp100 pl) = { Fields.zero with f0 := (fieldsOf .temp100 pl).f0 }) ∧
    ((fieldsOf .device pl).f0.toNat = b 0 + 256 * b 1 + 65536 * b 2 + 16777216 * b 3 ∧
      (fieldsOf .device pl).f1.toNat = b 4 + 256 * b 5 + 65536 * b 6 + 16777216 * b 7 ∧
      (fieldsOf .device pl).f2.toNat = b 8 ∧
      (fieldsOf .device pl).f3.toNat = b 9 + 256 * b 10 + 65536 * b 11 + 16777216 * b 12 ∧
      (fieldsOf .device pl).f4.toNat = b 13 + 256 * b 14 + 65536 * b 15 + 16777216 * b 16 ∧
      (fieldsOf .device pl).f5.toNat = b 17) ∧
    ((fieldsOf .datetime pl).f0.toNat = 256 * b 0 + b 1 ∧ (fieldsOf .datetime pl).f1.toNat = b 2 ∧
      (fieldsOf .datetime pl).f2.toNat = b 3 ∧ (fieldsOf .datetime pl).f3.toNat = b 4 ∧
      (fieldsOf .datetime pl).f4.toNat = b 5 ∧ (fieldsOf .datetime pl).f5.toNat = b 6) ∧
    ((fieldsOf .l1Settings1 pl).f0.toNat = b 0 ∧ (fieldsOf .l1Settings1 pl).f1.toNat = b 1 ∧
      (fieldsOf .l1Settings1 pl).f2.toNat = b 2 ∧ (fieldsOf .l1Settings1 pl).f3.toNat = b 3 ∧
      (fieldsOf .l1Settings1 pl).f4.toNat = b 4 ∧ (fieldsOf .l1Settings1 pl).f5.toNat = b 21) ∧
    ((fieldsOf .l1Settings2 pl).f0.toNat = b 10 ∧
      fieldsOf .l1Settings2 pl = { Fields.zero with f0 := (fieldsOf .l1Settings2 pl).f0 }) ∧
    ((fieldsOf .l1Info pl).f0.toNat = b 0 ∧ (fieldsOf .l1Info pl).f1.toNat = b 14 ∧
      fieldsOf .l1Info pl =
        { Fields.zero with f0 := (fieldsOf .l1Info pl).f0, f1 := (fieldsOf .l1Info pl).f1 })

/-- R108, R107, R98: `DECODE` with a type code and a payload within the limit completes; a payload shorter than the type
needs is `PROTOCOL` with the fields 0. -/
def Obligations.DecodeExtractsTheFields : Prop :=
  ∀ (code : Byte) (ty : DataType) (s : State), code.toNat = typeCode ty →
    (s.port s.active).dinLen.toNat ≤ s.cfg.frameMax →
    ∃ t, exec (.decode code) s = .next t ∧ sameButPort s.active s t ∧
      let q := s.port s.active
      let q' := t.port s.active
      sameButFields q q' ∧ q'.Completed ∧ q'.dataType = ty ∧ q'.crcv = 0 ∧
        if q.dinLen.toNat < requiredLength ty then q'.err = .protocol ∧ q'.fields = Fields.zero
        else q'.err = .none ∧ q'.fields = fieldsOf ty (bufTake s.cfg.frameMax q.din q.dinLen.toNat)

/-- R109: `RAWBYTE` completes with byte `5 + offset` of the frame in `RESULT`, or with `VALID = 0`; `ERR` and `CRCV` stay. -/
def Obligations.RawbyteReadsTheFrameByte : Prop :=
  ∀ (offset : Byte) (s : State), ∃ t, exec (.rawbyte offset) s = .next t ∧ sameButPort s.active s t ∧
    let q := s.port s.active
    let q' := t.port s.active
    { q' with
      busy := q.busy, done := q.done, seq := q.seq, rawValue := q.rawValue, rawValid := q.rawValid } = q ∧
      q'.Completed ∧
      if 5 + offset.toNat < q.resLen.toNat then
        q'.rawValid = true ∧ q'.rawValue = bufGet s.cfg.frameMax q.res (5 + offset.toNat)
      else q'.rawValid = false ∧ q'.rawValue = 0

/-- R110: the two characters at `(5 + offset) * 3` of a frame's hex dump spell frame byte `5 + offset`: read as two hex digits,
the high one first, they are its value. -/
def Obligations.DumpCharactersSpellTheRawByte : Prop :=
  let digit := fun d =>
    ['0', '1', '2', '3', '4', '5', '6', '7', '8', '9', 'a', 'b', 'c', 'd', 'e', 'f'].getD d ' '
  (∀ h, h < 16 → ∀ l, l < 16 → digitsValue 16 0 [digit h, digit l] = some (16 * h + l)) ∧
    ∀ (f : List Byte) (offset : Nat), 5 + offset < f.length →
      let b := f.getD (5 + offset) 0
      let chars := dumpChars (hexDump f) offset
      chars = hexByte b ∧ chars.length = 2 ∧ digitsValue 16 0 chars = some b.toNat

/-! ### `ARG` -/

/-- R66, R67: a command whose `DIN_LEN` breaks its limit, and a `DECODE` of a type code above 6, raise `ARG`. -/
def Obligations.BrokenLimitsRaiseArg : Prop :=
  ∀ s : State,
    let n := (s.port s.active).dinLen.toNat
    let m := s.cfg.frameMax
    (m < n → raisesArg .xchg s) ∧
      (∀ id offset, m < n → raisesArg (.writeDry id offset) s ∧ raisesArg (.writeCommit id offset) s) ∧
      (∀ op id, m - 6 < n → raisesArg (.encode op id) s) ∧
      (n < 2 ∨ m < n → raisesArg .validate s) ∧
      ∀ code : Byte, 6 < code.toNat ∨ m < n → raisesArg (.decode code) s

/-! ### Exchanges: the port's side -/

/-- R114, R126: `XCHG` within its limit, the queue not full, submits the bytes of `DATA_IN` verbatim and waits. -/
def Obligations.XchgSubmitsTheBytes : Prop :=
  ∀ s : State, (s.port s.active).dinLen.toNat ≤ s.cfg.frameMax → s.rq.length ≠ s.cfg.qDepth →
    ∃ t, exec .xchg s = .next t ∧
      submits s.active .xchgWait (bufTake s.cfg.frameMax (s.port s.active).din (s.port s.active).dinLen.toNat) s t

/-- R114, R131, R132, R135: `READ`, and `WRITE_DRY` and `WRITE_COMMIT` within their limit, the queue not full, submit the
six-byte read request of their id and wait for its result. -/
def Obligations.ReadSubmitsTheReadRequest : Prop :=
  ∀ (id offset : Byte) (s : State), s.rq.length ≠ s.cfg.qDepth →
    let request : List Byte := [0x02, s.cfg.readOpcode, 0x02, 0x00, id, s.cfg.readOpcode + 0x02 + 0x00 + id]
    (∃ t, exec (.read id) s = .next t ∧ submits s.active .rdWait request s t) ∧
      ((s.port s.active).dinLen.toNat ≤ s.cfg.frameMax →
        ∀ i : Instr, i = .writeDry id offset ∨ i = .writeCommit id offset →
          ∃ t, exec i s = .next t ∧ submits s.active .wrReadWait request s t)

/-- R114: on a full queue the four exchange commands complete at once with `SOCKET`, `READ` whatever `DIN_LEN` holds (R66);
nothing is queued and the tag stays, and so does `RESULT` (log entry 20). -/
def Obligations.FullQueueAnswersSocket : Prop :=
  ∀ (s : State) (id offset : Byte) (i : Instr),
    i = .read id ∨
        ((i = .xchg ∨ i = .writeDry id offset ∨ i = .writeCommit id offset) ∧
          (s.port s.active).dinLen.toNat ≤ s.cfg.frameMax) →
    s.rq.length = s.cfg.qDepth →
    ∃ t, exec i s = .next t ∧ endsInSocket s.active s t

/-- R125, R126, R139: handed a transport result, an `XCHG`, and a `WRITE_COMMIT` that waits for its acknowledgement, complete
with exactly that result, undecoded. That `RESULT` past the result's bytes stays is log entry 20. -/
def Obligations.RawExchangesReportTheTransportResult : Prop :=
  ∀ (s : State) (p : PortId) (r : TransportResult), s.cfg.Valid →
    (s.port p).seq = .xchgWait ∨ (s.port p).seq = .wrCommitWait → r.raw.length ≤ s.cfg.frameMax →
    let t := handOver p r s
    sameButPort p s t ∧ sameButFrame r.raw.length { s.port p with waiting := false } (t.port p) ∧
      (t.port p).Completed ∧ (t.port p).err = r.err ∧ (t.port p).crcv = r.crcv ∧
      (t.port p).resLen.toNat = r.raw.length ∧ (t.port p).resultFrame s.cfg.frameMax = r.raw ∧
      (t.port p).dataType = .rawOnly ∧ (t.port p).fields = Fields.zero

/-- R132, R133, R134: handed a transport result, a `READ` completes with the frame kept and decoded under the requested id's
type; without a frame there is no type and no field; `CRC` wins over a short payload's `PROTOCOL`. That `RESULT`
past the frame stays is the model's choice (log entry 20). -/
def Obligations.ReadReportsTheDecodedFrame : Prop :=
  ∀ (s : State) (p : PortId) (r : TransportResult), s.cfg.Valid → (s.port p).seq = .rdWait →
    r.raw.length ≤ s.cfg.frameMax →
    let t := handOver p r s
    let q' := t.port p
    let ty := classify s.cfg.idTable ((s.port p).cmdLatch.extractLsb' 16 8)
    let pl := (r.raw.drop 5).take (r.raw.length - 6)
    sameButPort p s t ∧ sameButFrame r.raw.length { s.port p with waiting := false } q' ∧ q'.Completed ∧
      q'.crcv = r.crcv ∧ q'.resLen.toNat = r.raw.length ∧ q'.resultFrame s.cfg.frameMax = r.raw ∧
      if r.err = .timeout ∨ r.err = .protocol ∨ r.err = .socket then
        q'.err = r.err ∧ q'.dataType = .rawOnly ∧ q'.fields = Fields.zero
      else
        q'.dataType = ty ∧
          if pl.length < requiredLength ty then
            q'.fields = Fields.zero ∧ q'.err = if r.err = .crc then ErrTag.crc else ErrTag.protocol
          else q'.fields = fieldsOf ty pl ∧ q'.err = if r.err = .crc then ErrTag.crc else ErrTag.none

/-- R135, R142: a write whose read step carries any error tag ends exactly as a `READ` of its id would; nothing is submitted. -/
def Obligations.FailedReadStepEndsTheWriteAsRead : Prop :=
  ∀ (s : State) (p : PortId) (r : TransportResult), (s.port p).seq = .wrReadWait →
    (readCompose s.cfg (cmdA (s.port p).cmdLatch) r).err ≠ .none →
    handOver p r s = handOver p r (s.modPort p fun q => { q with seq := .rdWait }) ∧ (handOver p r s).rq = s.rq

/-- R136: data that does not fit the read frame's payload ends the write with `BOUNDS`, the read frame in `RESULT`; nothing
is submitted. That `RESULT` past the read frame stays is the model's choice (log entry 20). -/
def Obligations.WritePastThePayloadIsRefused : Prop :=
  ∀ (s : State) (p : PortId) (r : TransportResult), s.cfg.Valid → (s.port p).seq = .wrReadWait →
    (readCompose s.cfg (cmdA (s.port p).cmdLatch) r).err = .none → r.raw.length ≤ s.cfg.frameMax →
    r.raw.length - 6 < (cmdB (s.port p).cmdLatch).toNat + (s.port p).dinLen.toNat →
    let t := handOver p r s
    sameButPort p s t ∧ sameButFrame r.raw.length { s.port p with waiting := false } (t.port p) ∧
      (t.port p).Completed ∧ (t.port p).err = .bounds ∧ (t.port p).crcv = 0 ∧
      (t.port p).resLen.toNat = r.raw.length ∧ (t.port p).resultFrame s.cfg.frameMax = r.raw ∧
      (t.port p).dataType = .rawOnly ∧ (t.port p).fields = Fields.zero

/-- R137, R60: the write frame has the read frame's length; byte 1 is `WRITE_OPCODE`, the data lies over the payload at the
offset, every other byte is the read frame's, and the last byte is the checksum of the bytes between. -/
def Obligations.WriteFrameEchoesTheReadFrame : Prop :=
  ∀ (c : Params) (f data : List Byte) (offset : Nat), 4 ≤ f.length → offset + data.length ≤ f.length - 6 →
    let w := writeFrame c f offset data
    w.length = f.length ∧ w[1]? = some c.writeOpcode ∧
      (∀ k, k < f.length - 1 → k ≠ 1 → (k < 5 + offset ∨ 5 + offset + data.length ≤ k) → w[k]? = f[k]?) ∧
      (∀ k, k < data.length → w[5 + offset + k]? = data[k]?) ∧
      w[f.length - 1]? = some (csum ((w.drop 1).take (f.length - 2))) ∧
      w[f.length - 1]? = some (writeChecksum c f offset data) ∧ crcPasses w = true

/-- R138, R140: a `WRITE_DRY` whose read step passes and whose data fits completes with the write frame in `RESULT`; nothing
is submitted. That `RESULT` and `wbuf` keep their bytes past the frame is the model's choice (log entry 20). -/
def Obligations.DryRunReturnsTheWriteFrame : Prop :=
  ∀ (s : State) (p : PortId) (r : TransportResult), s.cfg.Valid → (s.port p).seq = .wrReadWait →
    cmdOp (s.port p).cmdLatch = 0x03 → (readCompose s.cfg (cmdA (s.port p).cmdLatch) r).err = .none →
    4 ≤ r.raw.length → r.raw.length ≤ s.cfg.frameMax →
    (cmdB (s.port p).cmdLatch).toNat + (s.port p).dinLen.toNat ≤ r.raw.length - 6 →
    let t := handOver p r s
    let q' := t.port p
    let data := bufTake s.cfg.frameMax (s.port p).din (s.port p).dinLen.toNat
    let w := writeFrame s.cfg r.raw (cmdB (s.port p).cmdLatch).toNat data
    sameButPort p s t ∧
      sameButFrame r.raw.length { s.port p with waiting := false, wbuf := q'.wbuf, wlen := q'.wlen } q' ∧
      q'.Completed ∧ q'.err = .none ∧ q'.resLen.toNat = r.raw.length ∧ q'.resultFrame s.cfg.frameMax = w ∧
      w[r.raw.length - 1]? = some q'.crcv ∧ q'.dataType = .rawOnly ∧ q'.fields = Fields.zero ∧
      q'.wlen.toNat = r.raw.length ∧ bufTake s.cfg.frameMax q'.wbuf q'.wlen.toNat = w ∧
      ∀ k, r.raw.length ≤ k → q'.wbuf.read k = (s.port p).wbuf.read k

/-- R139, R140: a `WRITE_COMMIT` whose read step passes and whose data fits submits the write frame, the same bytes as the
dry run's, and waits for the device's answer; on a full queue it completes with `SOCKET`. That the hand-over of the read result
itself submits the commit, and tests the queue then, is the model's choice (log entry 4), and so is that `wbuf` keeps its
bytes past `wlen`, and `RESULT` its own where nothing is written to it (log entry 20). -/
def Obligations.CommitSubmitsTheWriteFrame : Prop :=
  ∀ (s : State) (p : PortId) (r : TransportResult), s.cfg.Valid → (s.port p).seq = .wrReadWait →
    cmdOp (s.port p).cmdLatch = 0x04 → (readCompose s.cfg (cmdA (s.port p).cmdLatch) r).err = .none →
    4 ≤ r.raw.length → r.raw.length ≤ s.cfg.frameMax →
    (cmdB (s.port p).cmdLatch).toNat + (s.port p).dinLen.toNat ≤ r.raw.length - 6 →
    let t := handOver p r s
    let q' := t.port p
    let data := bufTake s.cfg.frameMax (s.port p).din (s.port p).dinLen.toNat
    let w := writeFrame s.cfg r.raw (cmdB (s.port p).cmdLatch).toNat data
    let s' := s.setPort p { s.port p with waiting := false, wbuf := q'.wbuf, wlen := q'.wlen }
    q'.wlen.toNat = r.raw.length ∧ bufTake s.cfg.frameMax q'.wbuf q'.wlen.toNat = w ∧
      (∀ k, r.raw.length ≤ k → q'.wbuf.read k = (s.port p).wbuf.read k) ∧
      if s.rq.length = s.cfg.qDepth then endsInSocket p s' t else submits p .wrCommitWait w s' t

/-! ### The receive framer -/

/-- R76 to R80, R85: from an armed framer, a stream that starts with the marker and declares length N is complete after
exactly `max(4, N + TERM_BIAS)` bytes, with those bytes as the frame; after fewer it is not complete. -/
def Obligations.FramerCompletesAtTheDeclaredLength : Prop :=
  ∀ (s : State) (code n : Byte) (rest : List Byte), s.cfg.Valid → s.rxState = .awaitMarker → s.rxCnt = 0 →
    let t := ([0x02, code, n] ++ rest).foldl (fun u b => takeByte b u) s
    (rest.length + 3 = max 4 (n.toNat + s.cfg.termBias) →
        t.rxState = .complete ∧ t.rxFrame = [0x02, code, n] ++ rest) ∧
      (rest.length + 3 < max 4 (n.toNat + s.cfg.termBias) →
        t.rxState = .accum ∧ t.rxCnt.toNat = rest.length + 3 ∧ t.rxFrame = [0x02, code, n] ++ rest)

/-- R76, R83: a first byte that is not the marker ends the exchange with `PROTOCOL` and nothing buffered; whatever bytes come
after it, the framer takes none. -/
def Obligations.WrongMarkerEndsTheExchange : Prop :=
  ∀ (s : State) (b : Byte) (rest : List Byte), s.rxState = .awaitMarker → b ≠ 0x02 →
    let t := (b :: rest).foldl (fun u c => takeByte c u) s
    t.rxState = .errProtocol ∧ t.rxCnt = 0 ∧ t.rxBuf = s.rxBuf ∧
      exchangeResult t = some { err := .protocol, crcv := 0, raw := [] }

/-- R75, R82: a waiting framer takes exactly one byte a cycle, the oldest, a byte that arrives in that cycle counted; the rest
stay in order, the budget is reloaded, and there is no timeout, tick or no tick (R147): with a byte to take, the receive side
does the same with and without a tick. R145, R168: no byte is lost then, so `RX_OVR` stays but for a host write that clears it.
That a byte that arrives in an empty FIFO is taken at once is log entry 10. -/
def Obligations.FramerTakesTheOldestByte : Prop :=
  (∀ r : RxState, r.isWaiting = true ↔ r = .awaitMarker ∨ r = .awaitHeader1 ∨ r = .awaitHeader2 ∨ r = .accum) ∧
    (∀ (x : CycleInput) (s t : State) (b : Byte) (rest : List Byte),
      resetsNow x s = false → s.rxState.isWaiting = true → s.arb = .rx → s.rxq ++ x.rx.toList = b :: rest →
      cycleWith x s = .next t →
      t.rxq = rest ∧ t.framer = (takeByte b s).framer ∧ t.rxTimer = s.cfg.byteTimeout ∧ t.rxState ≠ .errTimeout ∧
        ((∀ w, x.host = .write 0xF008 w → w.getLsbD 1 = false) → t.rxOvr = s.rxOvr) ∧
        ∀ w, x.host = .write 0xF008 w → w.getLsbD 1 = true → t.rxOvr = false) ∧
    ∀ (x : CycleInput) (s0 s : State), s0.rxState.isWaiting = true → s0.rxq ++ x.rx.toList ≠ [] →
      receiveTurn { x with tick := true } s0 s = receiveTurn { x with tick := false } s0 s ∧
        (s.rxState = s0.rxState → (receiveTurn { x with tick := true } s0 s).rxState ≠ .errTimeout)

/-- R81, R153: in ARB_RX with no byte there, a waiting framer does in a cycle with a tick what `byteTick` does, and nothing in a
cycle without one; and of ticks in a row, those before the budget is used up lower the timer by one each and change nothing
else, and the one that uses it up ends in ERR_TIMEOUT with the partial buffer discarded. That the discarded bytes stand in
`rx_buf` past `rx_cnt` is log entry 20. -/
def Obligations.ByteTimeoutFiresOnTheLastTick : Prop :=
  (∀ (x : CycleInput) (s t : State), resetsNow x s = false → s.rxState.isWaiting = true → s.arb = .rx → s.rxq = [] →
      x.rx = none → cycleWith x s = .next t →
      t.framer = (if x.tick then (byteTick s).framer else s.framer) ∧ t.rxq = [] ∧ t.arb = .rx) ∧
    ∀ (s : State) (n : Nat), s.rxState.isWaiting = true →
      (n < max 1 s.rxTimer → byteTick^[n] s = { s with rxTimer := s.rxTimer - n }) ∧
        (n = max 1 s.rxTimer →
          byteTick^[n] s = { s with rxState := .errTimeout, rxCnt := 0, rxTimer := s.rxTimer - (n - 1) } ∧
            exchangeResult (byteTick^[n] s) = some { err := .timeout, crcv := 0, raw := [] })

/-- R112, R118: the four outcomes of an exchange; in the first cycle in ARB_RX in which the framer is at rest the controller
builds the reply from them, idles the framer and goes to ARB_REPLY, and until then it stays in ARB_RX. -/
def Obligations.ExchangeOutcomes : Prop :=
  ∀ s : State,
    (s.rxState = .complete → 2 ≤ s.rxCnt.toNat → s.rxCnt.toNat ≤ s.cfg.frameMax →
        let f := bufTake s.cfg.frameMax s.rxBuf s.rxCnt.toNat
        let c := csum ((f.drop 1).take (s.rxCnt.toNat - 2))
        exchangeResult s =
          some
            { err := if c = bufGet s.cfg.frameMax s.rxBuf (s.rxCnt.toNat - 1) then .none else .crc, crcv := c,
              raw := f }) ∧
      (s.rxState = .errProtocol → exchangeResult s = some { err := .protocol, crcv := 0, raw := [] }) ∧
      (s.rxState = .errTimeout → exchangeResult s = some { err := .timeout, crcv := 0, raw := [] }) ∧
      ∀ (x : CycleInput) (t : State), resetsNow x s = false → s.arb = .rx → cycleWith x s = .next t →
        match exchangeResult s with
        | some r => t.reply = { port := s.cur.port, tag := s.cur.tag, result := r } ∧ t.rxState = .idle ∧ t.arb = .reply
        | none => t.arb = .rx

/-- R35, R168: outside the waiting states, with no flush, the FIFO keeps its bytes; a byte that arrives is pushed where the
FIFO has room and dropped with `RX_OVR` set where it has none (a cycle in which the host clears `RX_OVR` left out: the spec
gives no order there, log entry 7). -/
def Obligations.FifoKeepsBytesUntilItIsFull : Prop :=
  ∀ (x : CycleInput) (s t : State), resetsNow x s = false → s.rxState.isWaiting = false →
    cycleWith x s = .next t → ¬(s.cfg.rxFlushOnArm = true ∧ s.arb = .tx ∧ t.arb = .rx) →
    (∀ w, x.host = .write 0xF008 w → w.getLsbD 1 = false) →
    match x.rx with
    | none => t.rxq = s.rxq ∧ t.rxOvr = s.rxOvr
    | some b =>
      if s.rxq.length < s.cfg.rxFifoDepth then t.rxq = s.rxq ++ [b] ∧ t.rxOvr = s.rxOvr
      else t.rxq = s.rxq ∧ t.rxOvr = true

/-! ### The controller -/

/-- R53, R114, R115, R116: requests are served in submission order. What a cycle submits goes to the queue's end: one request
for each port that enters a wait, under that port's next tag, in ascending port index. The controller pops at most the head of
the queue: in ARB_IDLE always, in ARB_REPLY or in the cycle after it (log entry 28), else never. -/
def Obligations.RequestsAreServedInOrder : Prop :=
  ∀ (x : CycleInput) (s t : State), resetsNow x s = false → cycleWith x s = .next t →
    ∃ pushed : List Request,
      pushed.map Request.port = allPorts.filter (entersWait s t) ∧
        (∀ e ∈ pushed,
          e.tag = ((s.port e.port).tag + 1) % 2 ^ s.cfg.tagBits ∧ (t.port e.port).tag = e.tag ∧
            (t.port e.port).waiting = true) ∧
        match s.arb, s.rq with
        | .idle, r :: rest => t.rq = rest ++ pushed ∧ t.cur = r ∧ t.txIdx = 0 ∧ t.arb = .tx
        | .idle, [] => t.rq = pushed ∧ t.cur = s.cur ∧ t.arb = .idle
        | .reply, r :: rest =>
          (t.rq = s.rq ++ pushed ∧ t.cur = s.cur ∧ t.arb = .idle) ∨
            (t.rq = rest ++ pushed ∧ t.cur = r ∧ t.txIdx = 0 ∧ t.arb = .tx)
        | .reply, [] => t.rq = pushed ∧ t.cur = s.cur ∧ t.arb = .idle
        | _, rq => t.rq = rq ++ pushed ∧ t.cur = s.cur

/-- R74, R87, R111, R117: bytes reach the UART only in ARB_TX, one at each handshake, in the request's order; with the last one,
and at once for an empty request, the framer is armed, and with `RX_FLUSH_ON_ARM` the FIFO emptied of all but a byte of that
very cycle (log entry 8). Without a handshake the index stays. That the framer is armed in the cycle of the last handshake is
log entry 6, that a byte offered in a reset cycle reaches the UART log entry 15. -/
def Obligations.RequestBytesGoOutVerbatim : Prop :=
  ∀ (x : CycleInput) (s t : State), s.cfg.Valid → s.QueuesOk → cycleWith x s = .next t →
    (s.arb ≠ .tx → t.wire = s.wire) ∧
      (s.arb = .tx →
        t.wire = (if x.txReady then s.wire ++ (s.cur.bytes.drop s.txIdx.toNat).take 1 else s.wire) ∧
          (resetsNow x s = false →
            let next := s.txIdx.toNat + if x.txReady then 1 else 0
            if s.cur.bytes.length ≤ next then
              t.arb = .rx ∧ t.rxState = .awaitMarker ∧ t.rxCnt = 0 ∧ t.rxLen = 0 ∧ t.rxTimer = s.cfg.byteTimeout ∧
                (s.cfg.rxFlushOnArm = true → t.rxq = [] ∨ t.rxq = x.rx.toList)
            else t.arb = .tx ∧ t.cur = s.cur ∧ t.txIdx.toNat = next))

/-- R118, R119, R122, R124: the reply in hand goes to its port if that port waits under its tag, whether or not the port's
client timeout would fire in the same cycle. Whatever the other engines do, the port becomes what the hand-over makes of it as
the host's access left it, with the queue as full as the port finds it (R114, R115); where they do nothing, the cycle is the
hand-over after the other agents' turns. The pop that may come in that cycle is log entry 28, its order log entry 9. -/
def Obligations.ReplyIsHandedToItsPort : Prop :=
  (∀ (x : CycleInput) (s t : State) (p : PortId), resetsNow x s = false → s.PortsOk → replyReaches s p →
      cycleWith x s = .next t →
      ∃ u : State, u.cfg = s.cfg ∧ u.port p = (hostTurn x s).port p ∧ countsFor s t p u.rq.length ∧
        t.port p = (handOver p s.reply.result u).port p) ∧
    ∀ (x : CycleInput) (s : State) (p : PortId), resetsNow x s = false → s.PortsOk → replyReaches s p →
      (∀ r, r ≠ p → engineIdle x s r = true) →
      cycleWith x s = .next (latePop s (handOver p s.reply.result (beforeEngines x s)))

/-- R119, R120: a reply changes no port that does not wait under its tag: in ARB_REPLY a port that the reply does not reach, with
no command of its own and no tick to count, is after the cycle as the host's access left it, whatever the other engines do; the
controller leaves ARB_REPLY. Where no engine has anything to do and the host makes no access, no port changes at all, and where
the controller pops a request in that very cycle (log entry 28) it takes the head of the queue. -/
def Obligations.StaleReplyChangesNoPort : Prop :=
  (∀ (x : CycleInput) (s t : State), resetsNow x s = false → s.arb = .reply → cycleWith x s = .next t →
      (t.arb = .idle ∨ t.arb = .tx) ∧
        ∀ p, ¬replyReaches s p → (s.port p).seq ≠ .localCmd → ¬tickCounts x s p → t.port p = (hostTurn x s).port p) ∧
    ∀ (x : CycleInput) (s : State), resetsNow x s = false → s.arb = .reply → (∀ p, engineIdle x s p = true) →
      x.host = .idle →
      ∃ t, cycleWith x s = .next t ∧ t.ports = s.ports ∧
        ((t.rq = s.rq ∧ t.arb = .idle) ∨ (s.rq = t.cur :: t.rq ∧ t.arb = .tx))

/-- R121, R123: in a cycle with a tick every waiting port that no reply reaches counts its client timer down, whatever the other
engines do; on the last one its wait ends with `SOCKET`. With `CLIENT_TIMEOUT_TICKS` 0, or without a tick, the wait goes on and
the timer stays. The request stays where it is: with no other engine at work, it is where it was, or the controller has popped
the head of the queue. That `RESULT` stays is log entry 20. -/
def Obligations.ClientTimeoutEndsTheWait : Prop :=
  (∀ (x : CycleInput) (s t : State) (p : PortId), resetsNow x s = false → s.PortsOk → (s.port p).waiting = true →
      ¬replyReaches s p → cycleWith x s = .next t →
      let q := (hostTurn x s).port p
      let q' := t.port p
      if x.tick = true ∧ s.cfg.clientTimeout ≠ 0 then
        if 1 < (s.port p).wtimer then q' = { q with wtimer := (s.port p).wtimer - 1 }
        else
          sameButFrame 0 { q with waiting := false } q' ∧ q'.Completed ∧ q'.waiting = false ∧ q'.err = .socket ∧
            q'.crcv = 0 ∧ q'.resLen = 0 ∧ q'.dataType = .rawOnly ∧ q'.fields = Fields.zero ∧ q'.tag = (s.port p).tag
      else q' = q) ∧
    ∀ (x : CycleInput) (s : State) (p : PortId), resetsNow x s = false → s.PortsOk → tickCounts x s p →
      ¬replyReaches s p → x.host = .idle → (∀ r, r ≠ p → engineIdle x s r = true) →
      ∃ t, cycleWith x s = .next t ∧ (∀ r, r ≠ p → t.port r = s.port r) ∧
        (popsNow s = false → t.rq = s.rq ∧ t.cur = s.cur) ∧
        ((t.rq = s.rq ∧ t.cur = s.cur) ∨ (s.rq = t.cur :: t.rq ∧ (s.arb = .idle ∨ s.arb = .reply)))

/-! ### The host bus -/

/-- R41: where the registers are. R42, R43: a misaligned access and an access to any other address answer `h_err = 1` and 0, and
change nothing; an aligned access to a register answers `h_err = 0`; a write to a read-only register changes nothing, and a
read of a write-only one answers 0. -/
def Obligations.BadAddressesAnswerAnError : Prop :=
  (∀ (s : State) (addr : HostAddr) (data : Word) (delay : Nat),
      (addr.toNat % 4 ≠ 0 ∨ ¬mappedAddr s.cfg addr.toNat →
          hostRead s addr = (0, true) ∧ hostErr s.cfg addr = true ∧ hostWrite delay addr data s = s) ∧
        (addr.toNat % 4 = 0 → mappedAddr s.cfg addr.toNat →
          (hostRead s addr).2 = false ∧ hostErr s.cfg addr = false) ∧
        (readOnlyAddr addr.toNat → hostWrite delay addr data s = s)) ∧
    (∀ (s : State) (p : PortId), p.val < s.cfg.numPorts →
      hostRead s (portAddr p 0x004) = (0, false) ∧ hostRead s 0xF00C = (0, false)) ∧
    ∀ c : Params,
      (∀ p : PortId, p.val < c.numPorts →
        (∀ e ∈ [(0x000, PortReg.ctrl), (0x004, .cmd), (0x008, .status), (0x00C, .dinLen), (0x010, .resLen),
            (0x014, .dataType), (0x018, .rawval), (0x020, .field 0), (0x024, .field 1), (0x028, .field 2), (0x02C, .field 3),
            (0x030, .field 4), (0x034, .field 5)], hostTarget c (portAddr p e.1) = .portReg p e.2) ∧
          ∀ w, w < 65 →
            hostTarget c (portAddr p (0x400 + 4 * w)) = .portReg p (.dataIn w) ∧
              hostTarget c (portAddr p (0x800 + 4 * w)) = .portReg p (.result w)) ∧
        (∀ e ∈ [(0xF000, GlobalReg.info), (0xF004, .opcodes), (0xF008, .arbStatus), (0xF00C, .gctrl), (0xF010, .byteTmo),
            (0xF014, .clientTmo)], hostTarget c (BitVec.ofNat 16 e.1) = .globalReg e.2) ∧
        ∀ (k : Nat) (e : IdEntry), k < 255 → c.idTable[k]? = some e →
          hostTarget c (BitVec.ofNat 16 (0xF100 + 4 * k)) = .globalReg (.idEntry e)

/-- R25, R26, R27, R28, R30, R44, R143, R148: what the host sees of a port, whatever the port does: the bits of each register,
and the interrupt line, which is `IE` and `DONE` and which a completion raises where `IE` is set. -/
def Obligations.PortRegistersReadAsLaidOut : Prop :=
  (errCode .none = 0 ∧ errCode .timeout = 1 ∧ errCode .protocol = 2 ∧ errCode .crc = 3 ∧ errCode .socket = 4 ∧
      errCode .bounds = 5 ∧ errCode .arg = 6) ∧
    ∀ (s : State) (p : PortId), p.val < s.cfg.numPorts →
      let q := s.port p
      let window := fun (m : Memory) (k : Nat) => (if k < s.cfg.frameMax then m.read k else 0 : Byte).toNat
      let word := fun (m : Memory) (w : Nat) =>
        window m (4 * w) + 256 * window m (4 * w + 1) + 65536 * window m (4 * w + 2) + 16777216 * window m (4 * w + 3)
      let reads := fun (off n : Nat) => hostRead s (portAddr p off) = (BitVec.ofNat 32 n, false)
      (reads 0x000 q.ie.toNat ∧ reads 0x004 0 ∧
          reads 0x008 (q.busy.toNat + 2 * q.done.toNat + 4 * q.wign.toNat + 16 * errCode q.err + 256 * q.crcv.toNat) ∧
          reads 0x00C q.dinLen.toNat ∧ reads 0x010 q.resLen.toNat ∧ reads 0x014 (typeCode q.dataType) ∧
          reads 0x018 (q.rawValue.toNat + 256 * q.rawValid.toNat) ∧ reads 0x020 q.fields.f0.toNat ∧
          reads 0x024 q.fields.f1.toNat ∧ reads 0x028 q.fields.f2.toNat ∧ reads 0x02C q.fields.f3.toNat ∧
          reads 0x030 q.fields.f4.toNat ∧ reads 0x034 q.fields.f5.toNat) ∧
        (∀ w, w < 65 → reads (0x400 + 4 * w) (word q.din w) ∧ reads (0x800 + 4 * w) (word q.res w)) ∧
        (s.irq p = true ↔ q.ie = true ∧ q.done = true) ∧ (s.modPort p Port.finish).irq p = q.ie

/-- R32, R33: what the host reads of the global registers of a build that rule R162 allows. A value that does not fit its field
is taken mod the field's size (log entry 18; of `QDEPTH` rule R32 says it). -/
def Obligations.GlobalRegistersReadAsLaidOut : Prop :=
  (rxCode .idle = 0 ∧ rxCode .awaitMarker = 1 ∧ rxCode .awaitHeader1 = 2 ∧ rxCode .awaitHeader2 = 3 ∧ rxCode .accum = 4 ∧
      rxCode .complete = 5 ∧ rxCode .errProtocol = 6 ∧ rxCode .errTimeout = 7) ∧
    ∀ s : State, s.cfg.Valid →
      let busy := if s.arb = .idle then 0 else 1
      let port := if s.arb = .idle then 0 else s.cur.port.val
      let reads := fun (addr : HostAddr) (n : Nat) => hostRead s addr = (BitVec.ofNat 32 n, false)
      (reads 0xF000
            (s.cfg.numPorts + 256 * s.cfg.idTable.length + 65536 * s.cfg.termBias + 16777216 * (s.cfg.qDepth % 256)) ∧
          reads 0xF004 (s.cfg.readOpcode.toNat + 256 * s.cfg.writeOpcode.toNat) ∧
          reads 0xF008 (busy + 2 * s.rxOvr.toNat + 16 * port + 256 * (s.rq.length % 256) + 65536 * rxCode s.rxState) ∧
          reads 0xF00C 0 ∧ reads 0xF010 s.cfg.byteTimeout ∧ reads 0xF014 s.cfg.clientTimeout) ∧
        ∀ (k : Nat) (e : IdEntry), s.cfg.idTable[k]? = some e →
          reads (BitVec.ofNat 16 (0xF100 + 4 * k))
            (e.idStart.toNat + 256 * e.idEnd.toNat + 65536 * typeCode e.dataType)

/-- R48, R51, R147: a host write takes effect in its cycle, whatever the other agents do in it: the ports' `IE`, `WIGN`, command
word and operands are after the cycle what the write makes of them, a port whose engine has nothing to do is altogether what
the write makes of it, and so is `RX_OVR` in a cycle with no byte. The bus answers whether the address is good (in the cycle of
the access: log entry 13). A port that completes in the cycle ends with `DONE` set, whatever the write clears. -/
def Obligations.HostWriteTakesEffectInItsCycle : Prop :=
  ∀ (x : CycleInput) (s t : State) (addr : HostAddr) (data : Word), resetsNow x s = false → x.host = .write addr data →
    cycleWith x s = .next t →
    let w := hostWrite x.delay addr data s
    t.bus = .write (hostErr s.cfg addr) ∧
      (∀ p, (t.port p).ie = (w.port p).ie ∧ (t.port p).wign = (w.port p).wign ∧
        (t.port p).operands = (w.port p).operands ∧ (engineIdle x s p = true → t.port p = w.port p)) ∧
      (x.rx = none → t.rxOvr = w.rxOvr) ∧
      (s.PortsOk → ∀ p, (s.port p).busy = true → (t.port p).busy = false → (t.port p).done = true)

/-- R26, R28, R29, R163: while a port is busy, a write to its `CMD`, `DIN_LEN` or `DATA_IN` is ignored and sets `WIGN`, and
does nothing else. -/
def Obligations.BusyPortIgnoresWrites : Prop :=
  ∀ (s : State) (p : PortId) (off : Nat) (data : Word) (delay : Nat), p.val < s.cfg.numPorts →
    (s.port p).busy = true → (off = 0x004 ∨ off = 0x00C ∨ (0x400 ≤ off ∧ off ≤ 0x500 ∧ off % 4 = 0)) →
    hostWrite delay (portAddr p off) data s = s.setPort p { s.port p with wign := true }

/-- R26: a `CMD` write to a port that is not busy latches the word, sets `BUSY` and clears `DONE`. That the engine is in LOCAL
until it runs the command is log entry 5. -/
def Obligations.CommandWriteIsAccepted : Prop :=
  ∀ (s : State) (p : PortId) (w : Word) (delay : Nat), p.val < s.cfg.numPorts → (s.port p).busy = false →
    let t := hostWrite delay (portAddr p 0x004) w s
    sameButPort p s t ∧ (t.port p).cmdLatch = w ∧ (t.port p).busy = true ∧ (t.port p).done = false ∧
      (t.port p).seq = .localCmd ∧
      { t.port p with
        cmdLatch := (s.port p).cmdLatch, busy := (s.port p).busy, done := (s.port p).done, seq := (s.port p).seq,
        delay := (s.port p).delay } = s.port p

/-- R25, R27, R28, R32, R147: what the writes to the other writable registers do, and that they do nothing else, `BUSY` or not:
writing 1 to `STATUS.DONE`, `STATUS.WIGN` or `ARB_STATUS.RX_OVR` clears it and writing 0 leaves it; `CTRL` stores `IE`;
`DIN_LEN` of a port that is not busy stores nine bits; `GCTRL` stores nothing. -/
def Obligations.StatusWriteClearsFlags : Prop :=
  ∀ (s : State) (p : PortId) (w : Word) (delay : Nat), p.val < s.cfg.numPorts →
    hostWrite delay (portAddr p 0x008) w s =
        s.setPort p
          { s.port p with
            done := if w.getLsbD 1 then false else (s.port p).done
            wign := if w.getLsbD 2 then false else (s.port p).wign } ∧
      hostWrite delay (portAddr p 0x000) w s = s.setPort p { s.port p with ie := w.getLsbD 0 } ∧
      ((s.port p).busy = false →
        hostWrite delay (portAddr p 0x00C) w s = s.setPort p { s.port p with dinLen := w.extractLsb' 0 9 }) ∧
      hostWrite delay 0xF008 w s = { s with rxOvr := if w.getLsbD 1 then false else s.rxOvr } ∧
      hostWrite delay 0xF00C w s = s

/-- R44: a word written to `DATA_IN` of an idle port lands in the four buffer bytes it covers, the lowest index least
significant; a byte past `FRAME_MAX` is no storage; every other byte stays; and the word reads back. -/
def Obligations.DataInPacksLittleEndian : Prop :=
  ∀ (s : State) (p : PortId) (w : Nat) (v : Word) (delay : Nat), p.val < s.cfg.numPorts → (s.port p).busy = false →
    w < 65 →
    let t := hostWrite delay (portAddr p (0x400 + 4 * w)) v s
    sameButPort p s t ∧ { t.port p with din := (s.port p).din } = s.port p ∧
      (∀ k, k < 4 → 4 * w + k < s.cfg.frameMax →
        bufGet s.cfg.frameMax (t.port p).din (4 * w + k) = v.extractLsb' (8 * k) 8) ∧
      (∀ k, k < 4 * w ∨ 4 * w + 4 ≤ k → (t.port p).din.read k = (s.port p).din.read k) ∧
      (4 * w + 3 < s.cfg.frameMax → hostRead t (portAddr p (0x400 + 4 * w)) = (v, false))

/-- R71, R51: the accesses of the pseudo-instruction `din` leave exactly its bytes as the port's byte operand. -/
def Obligations.DinLoadsTheOperand : Prop :=
  ∀ (s : State) (p : PortId) (bs : List Byte), s.cfg.Valid → p.val < s.cfg.numPorts → (s.port p).busy = false →
    bs.length ≤ s.cfg.frameMax →
    let t :=
      (pseudoDin p bs).foldl
        (fun u a =>
          match a with
          | .write addr data => hostWrite 0 addr data u
          | .read _ => u
          | .idle => u)
        s
    sameButPort p s t ∧ (t.port p).dinLen.toNat = bs.length ∧
      bufTake s.cfg.frameMax (t.port p).din (t.port p).dinLen.toNat = bs ∧
      { t.port p with din := (s.port p).din, dinLen := (s.port p).dinLen } = s.port p

/-- R48: a host read changes nothing but the bus's answer. That the bus answers what the address reads at the start of the cycle,
and that it answers in a reset cycle too, are the model's choices (log entries 13 and 15). -/
def Obligations.ReadsHaveNoSideEffect : Prop :=
  ∀ (x : CycleInput) (s : State) (addr : HostAddr), x.host = .idle →
    ∃ t u, cycleWith x s = .next t ∧ cycleWith { x with host := .read addr } s = .next u ∧
      u.bus = .read (hostRead s addr).1 (hostRead s addr).2 ∧ { u with bus := t.bus } = t

/-! ### Reset -/

/-- R159: the state right after reset, for every build; and the build of `State.reset`, a free value (log entry 1), is one that
rule R162 allows. -/
def Obligations.ResetStateIsAsTheTableSays : Prop :=
  (∀ c : Params, (State.resetWith c).IsReset ∧ (State.resetWith c).cfg = c) ∧ State.reset.IsReset ∧
    State.reset.cfg.Valid

/-- R32, R158, R159, R33: a cycle resets the block exactly with `rst_n = 0` or with a write of 1 to `GCTRL.SRST`; no other
access does. It takes every register to its reset value and leaves the build parameters; the soft reset does exactly what
`rst_n = 0` does. -/
def Obligations.ResetCycleResets : Prop :=
  ∀ (x : CycleInput) (s : State),
    (resetsNow x s = true ↔ x.rstN = false ∨ ∃ w : Word, x.host = .write 0xF00C w ∧ w.getLsbD 0 = true) ∧
      (resetsNow x s = true → ∃ t, cycleWith x s = .next t ∧ t.IsReset ∧ t.cfg = s.cfg) ∧
      (∀ w : Word, x.host = .write 0xF00C w → w.getLsbD 0 = true →
        cycleWith { x with rstN := true } s = cycleWith { x with rstN := false } s)

/-! ### Invariants and rules of the whole machine -/

/-- The invariants hold right after reset, for every build that rule R162 allows (its buffers list no byte: log entry 3). -/
def Obligations.ResetStateIsWellKept : Prop :=
  ∀ c : Params, c.Valid →
    (State.resetWith c).BuffersOk ∧ (State.resetWith c).PortsOk ∧ (State.resetWith c).LineOk ∧
      (State.resetWith c).QueuesOk ∧ (State.resetWith c).TagsOk

/-- Every step keeps every byte buffer in canonical form and within its storage (R29, R30, R44). -/
def Obligations.StepKeepsTheBuffersCanonical : Prop :=
  ∀ s t : State, s.BuffersOk → step s = .next t → t.BuffersOk

/-- Every step keeps the ports coherent: `BUSY` exactly while the engine is at work, `waiting` exactly in a wait state, never
`BUSY` with `DONE`, and no port from `NUM_PORTS` on at work (R24, R27, R31, R41, R124). That an engine is at work from a
command's acceptance on, in LOCAL until it runs, and so `BUSY` exactly while it is not idle, is the model's choice (log entry
5). -/
def Obligations.StepKeepsThePortsCoherent : Prop := ∀ s t : State, s.PortsOk → step s = .next t → t.PortsOk

/-- Every step keeps the framer and the queues in order: the framer works exactly in ARB_RX, its count agrees with its state
and the declared length, a frame it completes is `max(4, N + TERM_BIAS)` bytes long and starts with the marker, and no queue
or buffer overflows (R13, R79, R80, R117, R118). That in ARB_TX there is always a byte left to send, but for an empty request,
holds because the model arms the framer in the cycle of the last handshake, which is its choice (log entry 6). -/
def Obligations.StepKeepsTheLineInOrder : Prop :=
  ∀ s t : State, s.cfg.Valid → s.LineOk ∧ s.QueuesOk → step s = .next t → t.LineOk ∧ t.QueuesOk

/-- Every step keeps the tag discipline (R114, R119, R120). -/
def Obligations.StepKeepsTheTags : Prop :=
  ∀ s t : State, s.PortsOk → s.TagsOk → step s = .next t → t.TagsOk

/-- R120: under the tag discipline, with the queue within its depth, no two requests of a port that the controller still
holds share a tag. -/
def Obligations.LiveRequestsNeverShareATag : Prop :=
  ∀ (s : State) (p : PortId), s.cfg.Valid → s.QueuesOk → s.TagsOk → (s.liveTags p).Nodup

/-- R50, R163: while a port is busy, no step but a reset changes its command word or its operands. -/
def Obligations.OperandsAreStableWhileBusy : Prop :=
  ∀ (s t : State) (p : PortId), resetsNow s.input s = false → (s.port p).busy = true → step s = .next t →
    (t.port p).operands = (s.port p).operands

/-- R49, R39: in a step that resets nothing, a port's result registers change only if that port was busy and has now
completed. -/
def Obligations.ResultsChangeOnlyAtCompletion : Prop :=
  ∀ (s t : State) (p : PortId), resetsNow s.input s = false → s.PortsOk → step s = .next t →
    (t.port p).results = (s.port p).results ∨
      ((s.port p).busy = true ∧ (t.port p).busy = false ∧ (t.port p).done = true)

/-! ### Liveness -/

/-- R129: bounded exchange. In a run without a reset from a well-kept state, under the two fairness assumptions on the
environment: every exchange ends with a reply in hand, after at most one handshake for each byte of the request and at most
`FRAME_MAX` bytes received, with at most `BYTE_TIMEOUT_TICKS` ticks for each of them; a queued request comes into service after
at most as many exchanges as there are requests up to its place in the queue, and so at most `QDEPTH`; and every port wait
ends. -/
def Obligations.ExchangesAndWaitsEnd : Prop :=
  ∀ (x : Nat → CycleInput) (s : Nat → State), IsRun x s → UartFair x → TickFair x → (s 0).WellKept →
    (∀ n, (s n).arb = .tx ∨ (s n).arb = .rx →
      ∃ k, (s (n + k)).arb = .reply ∧ (s (n + k)).cur = (s n).cur ∧
        (∀ i, i < k → (s (n + i)).arb = .tx ∨ (s (n + i)).arb = .rx) ∧
        tally (fun i => handshake (x i) (s i)) n k ≤ (s n).cur.bytes.length ∧
        (s n).cur.bytes.length ≤ (s n).cfg.frameMax ∧
        tally (fun i => takesByte (x i) (s i)) n k ≤ (s n).cfg.frameMax ∧
        ((s n).arb = .tx →
          tally (fun i => ticksFramer (x i) (s i)) n k ≤ (s n).cfg.frameMax * (s n).cfg.byteTimeout)) ∧
      (∀ (n j : Nat) (e : Request), (s n).rq[j]? = some e →
        ∃ k, (s (n + k)).cur = e ∧ (s (n + k)).arb = .tx ∧ (s (n + k)).txIdx = 0 ∧
          tally (fun i => decide ((s i).arb = .reply)) n k ≤ j + 1 ∧ j + 1 ≤ (s n).cfg.qDepth) ∧
      ∀ (n : Nat) (p : PortId), ((s n).port p).waiting = true →
        ∃ k, ¬(((s (n + k)).port p).waiting = true ∧ ((s (n + k)).port p).tag = ((s n).port p).tag)
end

