-- ==== Sys2Proof/Laws/State.lean ====
section
/-!
SUPPORT. One lemma per field per named update of `State` and `Port`, each true by definition, so that no later proof unfolds a
record update.
-/
namespace Sys2Proof.Machine

/-! ### Ports of a state -/

@[simp] theorem port_setPort_self (s : State) (p : PortId) (q : Port) : (s.setPort p q).port p = q := by
  simp [State.port, State.setPort]

theorem port_setPort_ne (s : State) {p r : PortId} (q : Port) (h : r ≠ p) : (s.setPort p q).port r = s.port r := by
  have h' : (p : Nat) ≠ r := fun e => h (Fin.ext e.symm)
  simp [State.port, State.setPort, h']

theorem port_setPort (s : State) (p r : PortId) (q : Port) :
    (s.setPort p q).port r = if r = p then q else s.port r := by
  split
  · next h => subst h; simp
  · next h => exact port_setPort_ne s q h

@[simp] theorem port_modPort_self (s : State) (p : PortId) (f : Port → Port) : (s.modPort p f).port p = f (s.port p) := by
  simp [State.modPort]

theorem port_modPort_ne (s : State) {p r : PortId} (f : Port → Port) (h : r ≠ p) :
    (s.modPort p f).port r = s.port r := port_setPort_ne s _ h

theorem port_modPort (s : State) (p r : PortId) (f : Port → Port) :
    (s.modPort p f).port r = if r = p then f (s.port p) else s.port r := port_setPort s p r _

/-- A state written as its fields has the ports it is written with. -/
theorem port_of_ports {s t : State} (h : t.ports = s.ports) (p : PortId) : t.port p = s.port p := by
  simp [State.port, h]

theorem port_portsOf (f : PortId → Port) (p : PortId) : (portsOf f)[p] = f p := by
  fin_cases p <;> rfl

/-- States that agree in every port and in every other field are equal. -/
theorem ports_ext {s t : State} (h : ∀ p, t.port p = s.port p) : t.ports = s.ports := by
  apply Vector.ext
  intro i hi
  exact h ⟨i, hi⟩

@[simp] theorem setPort_setPort (s : State) (p : PortId) (q r : Port) : (s.setPort p q).setPort p r = s.setPort p r := by
  simp [State.setPort]

@[simp] theorem modPort_setPort (s : State) (p : PortId) (q : Port) (f : Port → Port) :
    (s.setPort p q).modPort p f = s.setPort p (f q) := by
  simp [State.modPort]

@[simp] theorem setPort_modPort (s : State) (p : PortId) (q : Port) (f : Port → Port) :
    (s.modPort p f).setPort p q = s.setPort p q := by
  simp [State.modPort]

@[simp] theorem modPort_modPort (s : State) (p : PortId) (f g : Port → Port) :
    (s.modPort p f).modPort p g = s.modPort p fun q => g (f q) := by
  simp [State.modPort]

@[simp] theorem setPort_port (s : State) (p : PortId) : s.setPort p (s.port p) = s := by
  simp [State.setPort, State.port]

/-! ### Fields of a state -/

/-! `setPort` -/

@[simp] theorem setPort_cfg (s : State) (p : PortId) (q : Port) : (s.setPort p q).cfg = s.cfg := rfl
@[simp] theorem setPort_rxOvr (s : State) (p : PortId) (q : Port) : (s.setPort p q).rxOvr = s.rxOvr := rfl
@[simp] theorem setPort_rxq (s : State) (p : PortId) (q : Port) : (s.setPort p q).rxq = s.rxq := rfl
@[simp] theorem setPort_rxState (s : State) (p : PortId) (q : Port) : (s.setPort p q).rxState = s.rxState := rfl
@[simp] theorem setPort_rxBuf (s : State) (p : PortId) (q : Port) : (s.setPort p q).rxBuf = s.rxBuf := rfl
@[simp] theorem setPort_rxCnt (s : State) (p : PortId) (q : Port) : (s.setPort p q).rxCnt = s.rxCnt := rfl
@[simp] theorem setPort_rxLen (s : State) (p : PortId) (q : Port) : (s.setPort p q).rxLen = s.rxLen := rfl
@[simp] theorem setPort_rxTimer (s : State) (p : PortId) (q : Port) : (s.setPort p q).rxTimer = s.rxTimer := rfl
@[simp] theorem setPort_arb (s : State) (p : PortId) (q : Port) : (s.setPort p q).arb = s.arb := rfl
@[simp] theorem setPort_rq (s : State) (p : PortId) (q : Port) : (s.setPort p q).rq = s.rq := rfl
@[simp] theorem setPort_cur (s : State) (p : PortId) (q : Port) : (s.setPort p q).cur = s.cur := rfl
@[simp] theorem setPort_txIdx (s : State) (p : PortId) (q : Port) : (s.setPort p q).txIdx = s.txIdx := rfl
@[simp] theorem setPort_reply (s : State) (p : PortId) (q : Port) : (s.setPort p q).reply = s.reply := rfl
@[simp] theorem setPort_bus (s : State) (p : PortId) (q : Port) : (s.setPort p q).bus = s.bus := rfl
@[simp] theorem setPort_active (s : State) (p : PortId) (q : Port) : (s.setPort p q).active = s.active := rfl
@[simp] theorem setPort_script (s : State) (p : PortId) (q : Port) : (s.setPort p q).script = s.script := rfl
@[simp] theorem setPort_cycle (s : State) (p : PortId) (q : Port) : (s.setPort p q).cycle = s.cycle := rfl
@[simp] theorem setPort_wire (s : State) (p : PortId) (q : Port) : (s.setPort p q).wire = s.wire := rfl

/-! `modPort` -/

@[simp] theorem modPort_cfg (s : State) (p : PortId) (f : Port → Port) : (s.modPort p f).cfg = s.cfg := rfl
@[simp] theorem modPort_rxOvr (s : State) (p : PortId) (f : Port → Port) : (s.modPort p f).rxOvr = s.rxOvr := rfl
@[simp] theorem modPort_rxq (s : State) (p : PortId) (f : Port → Port) : (s.modPort p f).rxq = s.rxq := rfl
@[simp] theorem modPort_rxState (s : State) (p : PortId) (f : Port → Port) : (s.modPort p f).rxState = s.rxState := rfl
@[simp] theorem modPort_rxBuf (s : State) (p : PortId) (f : Port → Port) : (s.modPort p f).rxBuf = s.rxBuf := rfl
@[simp] theorem modPort_rxCnt (s : State) (p : PortId) (f : Port → Port) : (s.modPort p f).rxCnt = s.rxCnt := rfl
@[simp] theorem modPort_rxLen (s : State) (p : PortId) (f : Port → Port) : (s.modPort p f).rxLen = s.rxLen := rfl
@[simp] theorem modPort_rxTimer (s : State) (p : PortId) (f : Port → Port) : (s.modPort p f).rxTimer = s.rxTimer := rfl
@[simp] theorem modPort_arb (s : State) (p : PortId) (f : Port → Port) : (s.modPort p f).arb = s.arb := rfl
@[simp] theorem modPort_rq (s : State) (p : PortId) (f : Port → Port) : (s.modPort p f).rq = s.rq := rfl
@[simp] theorem modPort_cur (s : State) (p : PortId) (f : Port → Port) : (s.modPort p f).cur = s.cur := rfl
@[simp] theorem modPort_txIdx (s : State) (p : PortId) (f : Port → Port) : (s.modPort p f).txIdx = s.txIdx := rfl
@[simp] theorem modPort_reply (s : State) (p : PortId) (f : Port → Port) : (s.modPort p f).reply = s.reply := rfl
@[simp] theorem modPort_bus (s : State) (p : PortId) (f : Port → Port) : (s.modPort p f).bus = s.bus := rfl
@[simp] theorem modPort_active (s : State) (p : PortId) (f : Port → Port) : (s.modPort p f).active = s.active := rfl
@[simp] theorem modPort_script (s : State) (p : PortId) (f : Port → Port) : (s.modPort p f).script = s.script := rfl
@[simp] theorem modPort_cycle (s : State) (p : PortId) (f : Port → Port) : (s.modPort p f).cycle = s.cycle := rfl
@[simp] theorem modPort_wire (s : State) (p : PortId) (f : Port → Port) : (s.modPort p f).wire = s.wire := rfl

/-! `failArg` -/

@[simp] theorem failArg_cfg (s : State) (p : PortId) : (s.failArg p).cfg = s.cfg := rfl
@[simp] theorem failArg_rxOvr (s : State) (p : PortId) : (s.failArg p).rxOvr = s.rxOvr := rfl
@[simp] theorem failArg_rxq (s : State) (p : PortId) : (s.failArg p).rxq = s.rxq := rfl
@[simp] theorem failArg_rxState (s : State) (p : PortId) : (s.failArg p).rxState = s.rxState := rfl
@[simp] theorem failArg_rxBuf (s : State) (p : PortId) : (s.failArg p).rxBuf = s.rxBuf := rfl
@[simp] theorem failArg_rxCnt (s : State) (p : PortId) : (s.failArg p).rxCnt = s.rxCnt := rfl
@[simp] theorem failArg_rxLen (s : State) (p : PortId) : (s.failArg p).rxLen = s.rxLen := rfl
@[simp] theorem failArg_rxTimer (s : State) (p : PortId) : (s.failArg p).rxTimer = s.rxTimer := rfl
@[simp] theorem failArg_arb (s : State) (p : PortId) : (s.failArg p).arb = s.arb := rfl
@[simp] theorem failArg_rq (s : State) (p : PortId) : (s.failArg p).rq = s.rq := rfl
@[simp] theorem failArg_cur (s : State) (p : PortId) : (s.failArg p).cur = s.cur := rfl
@[simp] theorem failArg_txIdx (s : State) (p : PortId) : (s.failArg p).txIdx = s.txIdx := rfl
@[simp] theorem failArg_reply (s : State) (p : PortId) : (s.failArg p).reply = s.reply := rfl
@[simp] theorem failArg_bus (s : State) (p : PortId) : (s.failArg p).bus = s.bus := rfl
@[simp] theorem failArg_active (s : State) (p : PortId) : (s.failArg p).active = s.active := rfl
@[simp] theorem failArg_script (s : State) (p : PortId) : (s.failArg p).script = s.script := rfl
@[simp] theorem failArg_cycle (s : State) (p : PortId) : (s.failArg p).cycle = s.cycle := rfl
@[simp] theorem failArg_wire (s : State) (p : PortId) : (s.failArg p).wire = s.wire := rfl

/-! `armFramer` -/

@[simp] theorem armFramer_cfg (s : State) : (s.armFramer).cfg = s.cfg := rfl
@[simp] theorem armFramer_ports (s : State) : (s.armFramer).ports = s.ports := rfl
@[simp] theorem armFramer_rxOvr (s : State) : (s.armFramer).rxOvr = s.rxOvr := rfl
@[simp] theorem armFramer_rxq (s : State) : (s.armFramer).rxq = s.rxq := rfl
@[simp] theorem armFramer_rxState (s : State) : (s.armFramer).rxState = .awaitMarker := rfl
@[simp] theorem armFramer_rxBuf (s : State) : (s.armFramer).rxBuf = s.rxBuf := rfl
@[simp] theorem armFramer_rxCnt (s : State) : (s.armFramer).rxCnt = 0 := rfl
@[simp] theorem armFramer_rxLen (s : State) : (s.armFramer).rxLen = 0 := rfl
@[simp] theorem armFramer_rxTimer (s : State) : (s.armFramer).rxTimer = s.cfg.byteTimeout := rfl
@[simp] theorem armFramer_arb (s : State) : (s.armFramer).arb = s.arb := rfl
@[simp] theorem armFramer_rq (s : State) : (s.armFramer).rq = s.rq := rfl
@[simp] theorem armFramer_cur (s : State) : (s.armFramer).cur = s.cur := rfl
@[simp] theorem armFramer_txIdx (s : State) : (s.armFramer).txIdx = s.txIdx := rfl
@[simp] theorem armFramer_reply (s : State) : (s.armFramer).reply = s.reply := rfl
@[simp] theorem armFramer_bus (s : State) : (s.armFramer).bus = s.bus := rfl
@[simp] theorem armFramer_active (s : State) : (s.armFramer).active = s.active := rfl
@[simp] theorem armFramer_script (s : State) : (s.armFramer).script = s.script := rfl
@[simp] theorem armFramer_cycle (s : State) : (s.armFramer).cycle = s.cycle := rfl
@[simp] theorem armFramer_wire (s : State) : (s.armFramer).wire = s.wire := rfl
@[simp] theorem armFramer_port (s : State) (p : PortId) : (s.armFramer).port p = s.port p := rfl

/-! `outputs` -/

@[simp] theorem outputs_cfg (s : State) (x : CycleInput) : (s.outputs x).cfg = s.cfg := rfl
@[simp] theorem outputs_ports (s : State) (x : CycleInput) : (s.outputs x).ports = s.ports := rfl
@[simp] theorem outputs_rxOvr (s : State) (x : CycleInput) : (s.outputs x).rxOvr = s.rxOvr := rfl
@[simp] theorem outputs_rxq (s : State) (x : CycleInput) : (s.outputs x).rxq = s.rxq := rfl
@[simp] theorem outputs_rxState (s : State) (x : CycleInput) : (s.outputs x).rxState = s.rxState := rfl
@[simp] theorem outputs_rxBuf (s : State) (x : CycleInput) : (s.outputs x).rxBuf = s.rxBuf := rfl
@[simp] theorem outputs_rxCnt (s : State) (x : CycleInput) : (s.outputs x).rxCnt = s.rxCnt := rfl
@[simp] theorem outputs_rxLen (s : State) (x : CycleInput) : (s.outputs x).rxLen = s.rxLen := rfl
@[simp] theorem outputs_rxTimer (s : State) (x : CycleInput) : (s.outputs x).rxTimer = s.rxTimer := rfl
@[simp] theorem outputs_arb (s : State) (x : CycleInput) : (s.outputs x).arb = s.arb := rfl
@[simp] theorem outputs_rq (s : State) (x : CycleInput) : (s.outputs x).rq = s.rq := rfl
@[simp] theorem outputs_cur (s : State) (x : CycleInput) : (s.outputs x).cur = s.cur := rfl
@[simp] theorem outputs_txIdx (s : State) (x : CycleInput) : (s.outputs x).txIdx = s.txIdx := rfl
@[simp] theorem outputs_reply (s : State) (x : CycleInput) : (s.outputs x).reply = s.reply := rfl
@[simp] theorem outputs_bus (s : State) (x : CycleInput) : (s.outputs x).bus = busResponse s x.host := rfl
@[simp] theorem outputs_active (s : State) (x : CycleInput) : (s.outputs x).active = s.active := rfl
@[simp] theorem outputs_script (s : State) (x : CycleInput) : (s.outputs x).script = s.script.tail := rfl
@[simp] theorem outputs_cycle (s : State) (x : CycleInput) : (s.outputs x).cycle = s.cycle + 1 := rfl
@[simp] theorem outputs_wire (s : State) (x : CycleInput) : (s.outputs x).wire = if x.txReady then s.wire ++ s.txByte.toList else s.wire := rfl
@[simp] theorem outputs_port (s : State) (x : CycleInput) (p : PortId) : (s.outputs x).port p = s.port p := rfl

/-! `latchCommand` -/

@[simp] theorem latchCommand_cfg (s : State) (w : Word) : (s.latchCommand w).cfg = s.cfg := rfl
@[simp] theorem latchCommand_rxOvr (s : State) (w : Word) : (s.latchCommand w).rxOvr = s.rxOvr := rfl
@[simp] theorem latchCommand_rxq (s : State) (w : Word) : (s.latchCommand w).rxq = s.rxq := rfl
@[simp] theorem latchCommand_rxState (s : State) (w : Word) : (s.latchCommand w).rxState = s.rxState := rfl
@[simp] theorem latchCommand_rxBuf (s : State) (w : Word) : (s.latchCommand w).rxBuf = s.rxBuf := rfl
@[simp] theorem latchCommand_rxCnt (s : State) (w : Word) : (s.latchCommand w).rxCnt = s.rxCnt := rfl
@[simp] theorem latchCommand_rxLen (s : State) (w : Word) : (s.latchCommand w).rxLen = s.rxLen := rfl
@[simp] theorem latchCommand_rxTimer (s : State) (w : Word) : (s.latchCommand w).rxTimer = s.rxTimer := rfl
@[simp] theorem latchCommand_arb (s : State) (w : Word) : (s.latchCommand w).arb = s.arb := rfl
@[simp] theorem latchCommand_rq (s : State) (w : Word) : (s.latchCommand w).rq = s.rq := rfl
@[simp] theorem latchCommand_cur (s : State) (w : Word) : (s.latchCommand w).cur = s.cur := rfl
@[simp] theorem latchCommand_txIdx (s : State) (w : Word) : (s.latchCommand w).txIdx = s.txIdx := rfl
@[simp] theorem latchCommand_reply (s : State) (w : Word) : (s.latchCommand w).reply = s.reply := rfl
@[simp] theorem latchCommand_bus (s : State) (w : Word) : (s.latchCommand w).bus = s.bus := rfl
@[simp] theorem latchCommand_active (s : State) (w : Word) : (s.latchCommand w).active = s.active := rfl
@[simp] theorem latchCommand_script (s : State) (w : Word) : (s.latchCommand w).script = CycleInput.quiet :: s.script := rfl
@[simp] theorem latchCommand_cycle (s : State) (w : Word) : (s.latchCommand w).cycle = s.cycle := rfl
@[simp] theorem latchCommand_wire (s : State) (w : Word) : (s.latchCommand w).wire = s.wire := rfl

/-! ### Fields of a port -/

/-! `Port.putResult` -/

@[simp] theorem putResult_ie (q : Port) (lim : Nat) (raw : List Byte) : (q.putResult lim raw).ie = q.ie := rfl
@[simp] theorem putResult_cmdLatch (q : Port) (lim : Nat) (raw : List Byte) : (q.putResult lim raw).cmdLatch = q.cmdLatch := rfl
@[simp] theorem putResult_busy (q : Port) (lim : Nat) (raw : List Byte) : (q.putResult lim raw).busy = q.busy := rfl
@[simp] theorem putResult_done (q : Port) (lim : Nat) (raw : List Byte) : (q.putResult lim raw).done = q.done := rfl
@[simp] theorem putResult_wign (q : Port) (lim : Nat) (raw : List Byte) : (q.putResult lim raw).wign = q.wign := rfl
@[simp] theorem putResult_err (q : Port) (lim : Nat) (raw : List Byte) : (q.putResult lim raw).err = q.err := rfl
@[simp] theorem putResult_crcv (q : Port) (lim : Nat) (raw : List Byte) : (q.putResult lim raw).crcv = q.crcv := rfl
@[simp] theorem putResult_dinLen (q : Port) (lim : Nat) (raw : List Byte) : (q.putResult lim raw).dinLen = q.dinLen := rfl
@[simp] theorem putResult_din (q : Port) (lim : Nat) (raw : List Byte) : (q.putResult lim raw).din = q.din := rfl
@[simp] theorem putResult_resLen (q : Port) (lim : Nat) (raw : List Byte) : (q.putResult lim raw).resLen = BitVec.ofNat 9 raw.length := rfl
@[simp] theorem putResult_res (q : Port) (lim : Nat) (raw : List Byte) : (q.putResult lim raw).res = bufPutBytes lim q.res 0 raw := rfl
@[simp] theorem putResult_dataType (q : Port) (lim : Nat) (raw : List Byte) : (q.putResult lim raw).dataType = q.dataType := rfl
@[simp] theorem putResult_rawValue (q : Port) (lim : Nat) (raw : List Byte) : (q.putResult lim raw).rawValue = q.rawValue := rfl
@[simp] theorem putResult_rawValid (q : Port) (lim : Nat) (raw : List Byte) : (q.putResult lim raw).rawValid = q.rawValid := rfl
@[simp] theorem putResult_fields (q : Port) (lim : Nat) (raw : List Byte) : (q.putResult lim raw).fields = q.fields := rfl
@[simp] theorem putResult_seq (q : Port) (lim : Nat) (raw : List Byte) : (q.putResult lim raw).seq = q.seq := rfl
@[simp] theorem putResult_tag (q : Port) (lim : Nat) (raw : List Byte) : (q.putResult lim raw).tag = q.tag := rfl
@[simp] theorem putResult_waiting (q : Port) (lim : Nat) (raw : List Byte) : (q.putResult lim raw).waiting = q.waiting := rfl
@[simp] theorem putResult_wtimer (q : Port) (lim : Nat) (raw : List Byte) : (q.putResult lim raw).wtimer = q.wtimer := rfl
@[simp] theorem putResult_wbuf (q : Port) (lim : Nat) (raw : List Byte) : (q.putResult lim raw).wbuf = q.wbuf := rfl
@[simp] theorem putResult_wlen (q : Port) (lim : Nat) (raw : List Byte) : (q.putResult lim raw).wlen = q.wlen := rfl
@[simp] theorem putResult_delay (q : Port) (lim : Nat) (raw : List Byte) : (q.putResult lim raw).delay = q.delay := rfl

/-! `Port.putType` -/

@[simp] theorem putType_ie (q : Port) (t : DataType) : (q.putType t).ie = q.ie := rfl
@[simp] theorem putType_cmdLatch (q : Port) (t : DataType) : (q.putType t).cmdLatch = q.cmdLatch := rfl
@[simp] theorem putType_busy (q : Port) (t : DataType) : (q.putType t).busy = q.busy := rfl
@[simp] theorem putType_done (q : Port) (t : DataType) : (q.putType t).done = q.done := rfl
@[simp] theorem putType_wign (q : Port) (t : DataType) : (q.putType t).wign = q.wign := rfl
@[simp] theorem putType_err (q : Port) (t : DataType) : (q.putType t).err = q.err := rfl
@[simp] theorem putType_crcv (q : Port) (t : DataType) : (q.putType t).crcv = q.crcv := rfl
@[simp] theorem putType_dinLen (q : Port) (t : DataType) : (q.putType t).dinLen = q.dinLen := rfl
@[simp] theorem putType_din (q : Port) (t : DataType) : (q.putType t).din = q.din := rfl
@[simp] theorem putType_resLen (q : Port) (t : DataType) : (q.putType t).resLen = q.resLen := rfl
@[simp] theorem putType_res (q : Port) (t : DataType) : (q.putType t).res = q.res := rfl
@[simp] theorem putType_dataType (q : Port) (t : DataType) : (q.putType t).dataType = t := rfl
@[simp] theorem putType_rawValue (q : Port) (t : DataType) : (q.putType t).rawValue = q.rawValue := rfl
@[simp] theorem putType_rawValid (q : Port) (t : DataType) : (q.putType t).rawValid = q.rawValid := rfl
@[simp] theorem putType_fields (q : Port) (t : DataType) : (q.putType t).fields = q.fields := rfl
@[simp] theorem putType_seq (q : Port) (t : DataType) : (q.putType t).seq = q.seq := rfl
@[simp] theorem putType_tag (q : Port) (t : DataType) : (q.putType t).tag = q.tag := rfl
@[simp] theorem putType_waiting (q : Port) (t : DataType) : (q.putType t).waiting = q.waiting := rfl
@[simp] theorem putType_wtimer (q : Port) (t : DataType) : (q.putType t).wtimer = q.wtimer := rfl
@[simp] theorem putType_wbuf (q : Port) (t : DataType) : (q.putType t).wbuf = q.wbuf := rfl
@[simp] theorem putType_wlen (q : Port) (t : DataType) : (q.putType t).wlen = q.wlen := rfl
@[simp] theorem putType_delay (q : Port) (t : DataType) : (q.putType t).delay = q.delay := rfl

/-! `Port.putFields` -/

@[simp] theorem putFields_ie (q : Port) (fl : Fields) : (q.putFields fl).ie = q.ie := rfl
@[simp] theorem putFields_cmdLatch (q : Port) (fl : Fields) : (q.putFields fl).cmdLatch = q.cmdLatch := rfl
@[simp] theorem putFields_busy (q : Port) (fl : Fields) : (q.putFields fl).busy = q.busy := rfl
@[simp] theorem putFields_done (q : Port) (fl : Fields) : (q.putFields fl).done = q.done := rfl
@[simp] theorem putFields_wign (q : Port) (fl : Fields) : (q.putFields fl).wign = q.wign := rfl
@[simp] theorem putFields_err (q : Port) (fl : Fields) : (q.putFields fl).err = q.err := rfl
@[simp] theorem putFields_crcv (q : Port) (fl : Fields) : (q.putFields fl).crcv = q.crcv := rfl
@[simp] theorem putFields_dinLen (q : Port) (fl : Fields) : (q.putFields fl).dinLen = q.dinLen := rfl
@[simp] theorem putFields_din (q : Port) (fl : Fields) : (q.putFields fl).din = q.din := rfl
@[simp] theorem putFields_resLen (q : Port) (fl : Fields) : (q.putFields fl).resLen = q.resLen := rfl
@[simp] theorem putFields_res (q : Port) (fl : Fields) : (q.putFields fl).res = q.res := rfl
@[simp] theorem putFields_dataType (q : Port) (fl : Fields) : (q.putFields fl).dataType = q.dataType := rfl
@[simp] theorem putFields_rawValue (q : Port) (fl : Fields) : (q.putFields fl).rawValue = q.rawValue := rfl
@[simp] theorem putFields_rawValid (q : Port) (fl : Fields) : (q.putFields fl).rawValid = q.rawValid := rfl
@[simp] theorem putFields_fields (q : Port) (fl : Fields) : (q.putFields fl).fields = fl := rfl
@[simp] theorem putFields_seq (q : Port) (fl : Fields) : (q.putFields fl).seq = q.seq := rfl
@[simp] theorem putFields_tag (q : Port) (fl : Fields) : (q.putFields fl).tag = q.tag := rfl
@[simp] theorem putFields_waiting (q : Port) (fl : Fields) : (q.putFields fl).waiting = q.waiting := rfl
@[simp] theorem putFields_wtimer (q : Port) (fl : Fields) : (q.putFields fl).wtimer = q.wtimer := rfl
@[simp] theorem putFields_wbuf (q : Port) (fl : Fields) : (q.putFields fl).wbuf = q.wbuf := rfl
@[simp] theorem putFields_wlen (q : Port) (fl : Fields) : (q.putFields fl).wlen = q.wlen := rfl
@[simp] theorem putFields_delay (q : Port) (fl : Fields) : (q.putFields fl).delay = q.delay := rfl

/-! `Port.putStatus` -/

@[simp] theorem putStatus_ie (q : Port) (e : ErrTag) (c : Byte) : (q.putStatus e c).ie = q.ie := rfl
@[simp] theorem putStatus_cmdLatch (q : Port) (e : ErrTag) (c : Byte) : (q.putStatus e c).cmdLatch = q.cmdLatch := rfl
@[simp] theorem putStatus_busy (q : Port) (e : ErrTag) (c : Byte) : (q.putStatus e c).busy = q.busy := rfl
@[simp] theorem putStatus_done (q : Port) (e : ErrTag) (c : Byte) : (q.putStatus e c).done = q.done := rfl
@[simp] theorem putStatus_wign (q : Port) (e : ErrTag) (c : Byte) : (q.putStatus e c).wign = q.wign := rfl
@[simp] theorem putStatus_err (q : Port) (e : ErrTag) (c : Byte) : (q.putStatus e c).err = e := rfl
@[simp] theorem putStatus_crcv (q : Port) (e : ErrTag) (c : Byte) : (q.putStatus e c).crcv = c := rfl
@[simp] theorem putStatus_dinLen (q : Port) (e : ErrTag) (c : Byte) : (q.putStatus e c).dinLen = q.dinLen := rfl
@[simp] theorem putStatus_din (q : Port) (e : ErrTag) (c : Byte) : (q.putStatus e c).din = q.din := rfl
@[simp] theorem putStatus_resLen (q : Port) (e : ErrTag) (c : Byte) : (q.putStatus e c).resLen = q.resLen := rfl
@[simp] theorem putStatus_res (q : Port) (e : ErrTag) (c : Byte) : (q.putStatus e c).res = q.res := rfl
@[simp] theorem putStatus_dataType (q : Port) (e : ErrTag) (c : Byte) : (q.putStatus e c).dataType = q.dataType := rfl
@[simp] theorem putStatus_rawValue (q : Port) (e : ErrTag) (c : Byte) : (q.putStatus e c).rawValue = q.rawValue := rfl
@[simp] theorem putStatus_rawValid (q : Port) (e : ErrTag) (c : Byte) : (q.putStatus e c).rawValid = q.rawValid := rfl
@[simp] theorem putStatus_fields (q : Port) (e : ErrTag) (c : Byte) : (q.putStatus e c).fields = q.fields := rfl
@[simp] theorem putStatus_seq (q : Port) (e : ErrTag) (c : Byte) : (q.putStatus e c).seq = q.seq := rfl
@[simp] theorem putStatus_tag (q : Port) (e : ErrTag) (c : Byte) : (q.putStatus e c).tag = q.tag := rfl
@[simp] theorem putStatus_waiting (q : Port) (e : ErrTag) (c : Byte) : (q.putStatus e c).waiting = q.waiting := rfl
@[simp] theorem putStatus_wtimer (q : Port) (e : ErrTag) (c : Byte) : (q.putStatus e c).wtimer = q.wtimer := rfl
@[simp] theorem putStatus_wbuf (q : Port) (e : ErrTag) (c : Byte) : (q.putStatus e c).wbuf = q.wbuf := rfl
@[simp] theorem putStatus_wlen (q : Port) (e : ErrTag) (c : Byte) : (q.putStatus e c).wlen = q.wlen := rfl
@[simp] theorem putStatus_delay (q : Port) (e : ErrTag) (c : Byte) : (q.putStatus e c).delay = q.delay := rfl

/-! `Port.putRaw` -/

@[simp] theorem putRaw_ie (q : Port) (valid : Bool) (value : Byte) : (q.putRaw valid value).ie = q.ie := rfl
@[simp] theorem putRaw_cmdLatch (q : Port) (valid : Bool) (value : Byte) : (q.putRaw valid value).cmdLatch = q.cmdLatch := rfl
@[simp] theorem putRaw_busy (q : Port) (valid : Bool) (value : Byte) : (q.putRaw valid value).busy = q.busy := rfl
@[simp] theorem putRaw_done (q : Port) (valid : Bool) (value : Byte) : (q.putRaw valid value).done = q.done := rfl
@[simp] theorem putRaw_wign (q : Port) (valid : Bool) (value : Byte) : (q.putRaw valid value).wign = q.wign := rfl
@[simp] theorem putRaw_err (q : Port) (valid : Bool) (value : Byte) : (q.putRaw valid value).err = q.err := rfl
@[simp] theorem putRaw_crcv (q : Port) (valid : Bool) (value : Byte) : (q.putRaw valid value).crcv = q.crcv := rfl
@[simp] theorem putRaw_dinLen (q : Port) (valid : Bool) (value : Byte) : (q.putRaw valid value).dinLen = q.dinLen := rfl
@[simp] theorem putRaw_din (q : Port) (valid : Bool) (value : Byte) : (q.putRaw valid value).din = q.din := rfl
@[simp] theorem putRaw_resLen (q : Port) (valid : Bool) (value : Byte) : (q.putRaw valid value).resLen = q.resLen := rfl
@[simp] theorem putRaw_res (q : Port) (valid : Bool) (value : Byte) : (q.putRaw valid value).res = q.res := rfl
@[simp] theorem putRaw_dataType (q : Port) (valid : Bool) (value : Byte) : (q.putRaw valid value).dataType = q.dataType := rfl
@[simp] theorem putRaw_rawValue (q : Port) (valid : Bool) (value : Byte) : (q.putRaw valid value).rawValue = value := rfl
@[simp] theorem putRaw_rawValid (q : Port) (valid : Bool) (value : Byte) : (q.putRaw valid value).rawValid = valid := rfl
@[simp] theorem putRaw_fields (q : Port) (valid : Bool) (value : Byte) : (q.putRaw valid value).fields = q.fields := rfl
@[simp] theorem putRaw_seq (q : Port) (valid : Bool) (value : Byte) : (q.putRaw valid value).seq = q.seq := rfl
@[simp] theorem putRaw_tag (q : Port) (valid : Bool) (value : Byte) : (q.putRaw valid value).tag = q.tag := rfl
@[simp] theorem putRaw_waiting (q : Port) (valid : Bool) (value : Byte) : (q.putRaw valid value).waiting = q.waiting := rfl
@[simp] theorem putRaw_wtimer (q : Port) (valid : Bool) (value : Byte) : (q.putRaw valid value).wtimer = q.wtimer := rfl
@[simp] theorem putRaw_wbuf (q : Port) (valid : Bool) (value : Byte) : (q.putRaw valid value).wbuf = q.wbuf := rfl
@[simp] theorem putRaw_wlen (q : Port) (valid : Bool) (value : Byte) : (q.putRaw valid value).wlen = q.wlen := rfl
@[simp] theorem putRaw_delay (q : Port) (valid : Bool) (value : Byte) : (q.putRaw valid value).delay = q.delay := rfl

/-! `Port.finish` -/

@[simp] theorem finish_ie (q : Port) : (q.finish).ie = q.ie := rfl
@[simp] theorem finish_cmdLatch (q : Port) : (q.finish).cmdLatch = q.cmdLatch := rfl
@[simp] theorem finish_busy (q : Port) : (q.finish).busy = false := rfl
@[simp] theorem finish_done (q : Port) : (q.finish).done = true := rfl
@[simp] theorem finish_wign (q : Port) : (q.finish).wign = q.wign := rfl
@[simp] theorem finish_err (q : Port) : (q.finish).err = q.err := rfl
@[simp] theorem finish_crcv (q : Port) : (q.finish).crcv = q.crcv := rfl
@[simp] theorem finish_dinLen (q : Port) : (q.finish).dinLen = q.dinLen := rfl
@[simp] theorem finish_din (q : Port) : (q.finish).din = q.din := rfl
@[simp] theorem finish_resLen (q : Port) : (q.finish).resLen = q.resLen := rfl
@[simp] theorem finish_res (q : Port) : (q.finish).res = q.res := rfl
@[simp] theorem finish_dataType (q : Port) : (q.finish).dataType = q.dataType := rfl
@[simp] theorem finish_rawValue (q : Port) : (q.finish).rawValue = q.rawValue := rfl
@[simp] theorem finish_rawValid (q : Port) : (q.finish).rawValid = q.rawValid := rfl
@[simp] theorem finish_fields (q : Port) : (q.finish).fields = q.fields := rfl
@[simp] theorem finish_seq (q : Port) : (q.finish).seq = .idle := rfl
@[simp] theorem finish_tag (q : Port) : (q.finish).tag = q.tag := rfl
@[simp] theorem finish_waiting (q : Port) : (q.finish).waiting = q.waiting := rfl
@[simp] theorem finish_wtimer (q : Port) : (q.finish).wtimer = q.wtimer := rfl
@[simp] theorem finish_wbuf (q : Port) : (q.finish).wbuf = q.wbuf := rfl
@[simp] theorem finish_wlen (q : Port) : (q.finish).wlen = q.wlen := rfl
@[simp] theorem finish_delay (q : Port) : (q.finish).delay = q.delay := rfl

/-! `Port.completeFrame` -/

@[simp] theorem completeFrame_ie (q : Port) (lim : Nat) (e : ErrTag) (c : Byte) (raw : List Byte) (t : DataType) (fl : Fields) : (q.completeFrame lim e c raw t fl).ie = q.ie := rfl
@[simp] theorem completeFrame_cmdLatch (q : Port) (lim : Nat) (e : ErrTag) (c : Byte) (raw : List Byte) (t : DataType) (fl : Fields) : (q.completeFrame lim e c raw t fl).cmdLatch = q.cmdLatch := rfl
@[simp] theorem completeFrame_busy (q : Port) (lim : Nat) (e : ErrTag) (c : Byte) (raw : List Byte) (t : DataType) (fl : Fields) : (q.completeFrame lim e c raw t fl).busy = false := rfl
@[simp] theorem completeFrame_done (q : Port) (lim : Nat) (e : ErrTag) (c : Byte) (raw : List Byte) (t : DataType) (fl : Fields) : (q.completeFrame lim e c raw t fl).done = true := rfl
@[simp] theorem completeFrame_wign (q : Port) (lim : Nat) (e : ErrTag) (c : Byte) (raw : List Byte) (t : DataType) (fl : Fields) : (q.completeFrame lim e c raw t fl).wign = q.wign := rfl
@[simp] theorem completeFrame_err (q : Port) (lim : Nat) (e : ErrTag) (c : Byte) (raw : List Byte) (t : DataType) (fl : Fields) : (q.completeFrame lim e c raw t fl).err = e := rfl
@[simp] theorem completeFrame_crcv (q : Port) (lim : Nat) (e : ErrTag) (c : Byte) (raw : List Byte) (t : DataType) (fl : Fields) : (q.completeFrame lim e c raw t fl).crcv = c := rfl
@[simp] theorem completeFrame_dinLen (q : Port) (lim : Nat) (e : ErrTag) (c : Byte) (raw : List Byte) (t : DataType) (fl : Fields) : (q.completeFrame lim e c raw t fl).dinLen = q.dinLen := rfl
@[simp] theorem completeFrame_din (q : Port) (lim : Nat) (e : ErrTag) (c : Byte) (raw : List Byte) (t : DataType) (fl : Fields) : (q.completeFrame lim e c raw t fl).din = q.din := rfl
@[simp] theorem completeFrame_resLen (q : Port) (lim : Nat) (e : ErrTag) (c : Byte) (raw : List Byte) (t : DataType) (fl : Fields) : (q.completeFrame lim e c raw t fl).resLen = BitVec.ofNat 9 raw.length := rfl
@[simp] theorem completeFrame_res (q : Port) (lim : Nat) (e : ErrTag) (c : Byte) (raw : List Byte) (t : DataType) (fl : Fields) : (q.completeFrame lim e c raw t fl).res = bufPutBytes lim q.res 0 raw := rfl
@[simp] theorem completeFrame_dataType (q : Port) (lim : Nat) (e : ErrTag) (c : Byte) (raw : List Byte) (t : DataType) (fl : Fields) : (q.completeFrame lim e c raw t fl).dataType = t := rfl
@[simp] theorem completeFrame_rawValue (q : Port) (lim : Nat) (e : ErrTag) (c : Byte) (raw : List Byte) (t : DataType) (fl : Fields) : (q.completeFrame lim e c raw t fl).rawValue = q.rawValue := rfl
@[simp] theorem completeFrame_rawValid (q : Port) (lim : Nat) (e : ErrTag) (c : Byte) (raw : List Byte) (t : DataType) (fl : Fields) : (q.completeFrame lim e c raw t fl).rawValid = q.rawValid := rfl
@[simp] theorem completeFrame_fields (q : Port) (lim : Nat) (e : ErrTag) (c : Byte) (raw : List Byte) (t : DataType) (fl : Fields) : (q.completeFrame lim e c raw t fl).fields = fl := rfl
@[simp] theorem completeFrame_seq (q : Port) (lim : Nat) (e : ErrTag) (c : Byte) (raw : List Byte) (t : DataType) (fl : Fields) : (q.completeFrame lim e c raw t fl).seq = .idle := rfl
@[simp] theorem completeFrame_tag (q : Port) (lim : Nat) (e : ErrTag) (c : Byte) (raw : List Byte) (t : DataType) (fl : Fields) : (q.completeFrame lim e c raw t fl).tag = q.tag := rfl
@[simp] theorem completeFrame_waiting (q : Port) (lim : Nat) (e : ErrTag) (c : Byte) (raw : List Byte) (t : DataType) (fl : Fields) : (q.completeFrame lim e c raw t fl).waiting = q.waiting := rfl
@[simp] theorem completeFrame_wtimer (q : Port) (lim : Nat) (e : ErrTag) (c : Byte) (raw : List Byte) (t : DataType) (fl : Fields) : (q.completeFrame lim e c raw t fl).wtimer = q.wtimer := rfl
@[simp] theorem completeFrame_wbuf (q : Port) (lim : Nat) (e : ErrTag) (c : Byte) (raw : List Byte) (t : DataType) (fl : Fields) : (q.completeFrame lim e c raw t fl).wbuf = q.wbuf := rfl
@[simp] theorem completeFrame_wlen (q : Port) (lim : Nat) (e : ErrTag) (c : Byte) (raw : List Byte) (t : DataType) (fl : Fields) : (q.completeFrame lim e c raw t fl).wlen = q.wlen := rfl
@[simp] theorem completeFrame_delay (q : Port) (lim : Nat) (e : ErrTag) (c : Byte) (raw : List Byte) (t : DataType) (fl : Fields) : (q.completeFrame lim e c raw t fl).delay = q.delay := rfl

/-! `Port.portFailArg` -/

@[simp] theorem portFailArg_ie (q : Port) : (Port.failArg q).ie = q.ie := rfl
@[simp] theorem portFailArg_cmdLatch (q : Port) : (Port.failArg q).cmdLatch = q.cmdLatch := rfl
@[simp] theorem portFailArg_busy (q : Port) : (Port.failArg q).busy = false := rfl
@[simp] theorem portFailArg_done (q : Port) : (Port.failArg q).done = true := rfl
@[simp] theorem portFailArg_wign (q : Port) : (Port.failArg q).wign = q.wign := rfl
@[simp] theorem portFailArg_err (q : Port) : (Port.failArg q).err = .arg := rfl
@[simp] theorem portFailArg_crcv (q : Port) : (Port.failArg q).crcv = 0 := rfl
@[simp] theorem portFailArg_dinLen (q : Port) : (Port.failArg q).dinLen = q.dinLen := rfl
@[simp] theorem portFailArg_din (q : Port) : (Port.failArg q).din = q.din := rfl
@[simp] theorem portFailArg_resLen (q : Port) : (Port.failArg q).resLen = q.resLen := rfl
@[simp] theorem portFailArg_res (q : Port) : (Port.failArg q).res = q.res := rfl
@[simp] theorem portFailArg_dataType (q : Port) : (Port.failArg q).dataType = q.dataType := rfl
@[simp] theorem portFailArg_rawValue (q : Port) : (Port.failArg q).rawValue = q.rawValue := rfl
@[simp] theorem portFailArg_rawValid (q : Port) : (Port.failArg q).rawValid = q.rawValid := rfl
@[simp] theorem portFailArg_fields (q : Port) : (Port.failArg q).fields = q.fields := rfl
@[simp] theorem portFailArg_seq (q : Port) : (Port.failArg q).seq = .idle := rfl
@[simp] theorem portFailArg_tag (q : Port) : (Port.failArg q).tag = q.tag := rfl
@[simp] theorem portFailArg_waiting (q : Port) : (Port.failArg q).waiting = q.waiting := rfl
@[simp] theorem portFailArg_wtimer (q : Port) : (Port.failArg q).wtimer = q.wtimer := rfl
@[simp] theorem portFailArg_wbuf (q : Port) : (Port.failArg q).wbuf = q.wbuf := rfl
@[simp] theorem portFailArg_wlen (q : Port) : (Port.failArg q).wlen = q.wlen := rfl
@[simp] theorem portFailArg_delay (q : Port) : (Port.failArg q).delay = q.delay := rfl

/-! `Port.startWait` -/

@[simp] theorem startWait_ie (q : Port) (c : Params) (w : SeqState) : (q.startWait c w).ie = q.ie := rfl
@[simp] theorem startWait_cmdLatch (q : Port) (c : Params) (w : SeqState) : (q.startWait c w).cmdLatch = q.cmdLatch := rfl
@[simp] theorem startWait_busy (q : Port) (c : Params) (w : SeqState) : (q.startWait c w).busy = q.busy := rfl
@[simp] theorem startWait_done (q : Port) (c : Params) (w : SeqState) : (q.startWait c w).done = q.done := rfl
@[simp] theorem startWait_wign (q : Port) (c : Params) (w : SeqState) : (q.startWait c w).wign = q.wign := rfl
@[simp] theorem startWait_err (q : Port) (c : Params) (w : SeqState) : (q.startWait c w).err = q.err := rfl
@[simp] theorem startWait_crcv (q : Port) (c : Params) (w : SeqState) : (q.startWait c w).crcv = q.crcv := rfl
@[simp] theorem startWait_dinLen (q : Port) (c : Params) (w : SeqState) : (q.startWait c w).dinLen = q.dinLen := rfl
@[simp] theorem startWait_din (q : Port) (c : Params) (w : SeqState) : (q.startWait c w).din = q.din := rfl
@[simp] theorem startWait_resLen (q : Port) (c : Params) (w : SeqState) : (q.startWait c w).resLen = q.resLen := rfl
@[simp] theorem startWait_res (q : Port) (c : Params) (w : SeqState) : (q.startWait c w).res = q.res := rfl
@[simp] theorem startWait_dataType (q : Port) (c : Params) (w : SeqState) : (q.startWait c w).dataType = q.dataType := rfl
@[simp] theorem startWait_rawValue (q : Port) (c : Params) (w : SeqState) : (q.startWait c w).rawValue = q.rawValue := rfl
@[simp] theorem startWait_rawValid (q : Port) (c : Params) (w : SeqState) : (q.startWait c w).rawValid = q.rawValid := rfl
@[simp] theorem startWait_fields (q : Port) (c : Params) (w : SeqState) : (q.startWait c w).fields = q.fields := rfl
@[simp] theorem startWait_seq (q : Port) (c : Params) (w : SeqState) : (q.startWait c w).seq = w := rfl
@[simp] theorem startWait_tag (q : Port) (c : Params) (w : SeqState) : (q.startWait c w).tag = nextTag c q.tag := rfl
@[simp] theorem startWait_waiting (q : Port) (c : Params) (w : SeqState) : (q.startWait c w).waiting = true := rfl
@[simp] theorem startWait_wtimer (q : Port) (c : Params) (w : SeqState) : (q.startWait c w).wtimer = c.clientTimeout := rfl
@[simp] theorem startWait_wbuf (q : Port) (c : Params) (w : SeqState) : (q.startWait c w).wbuf = q.wbuf := rfl
@[simp] theorem startWait_wlen (q : Port) (c : Params) (w : SeqState) : (q.startWait c w).wlen = q.wlen := rfl
@[simp] theorem startWait_delay (q : Port) (c : Params) (w : SeqState) : (q.startWait c w).delay = q.delay := rfl

/-! `Port.stopWait` -/

@[simp] theorem stopWait_ie (q : Port) : (q.stopWait).ie = q.ie := rfl
@[simp] theorem stopWait_cmdLatch (q : Port) : (q.stopWait).cmdLatch = q.cmdLatch := rfl
@[simp] theorem stopWait_busy (q : Port) : (q.stopWait).busy = q.busy := rfl
@[simp] theorem stopWait_done (q : Port) : (q.stopWait).done = q.done := rfl
@[simp] theorem stopWait_wign (q : Port) : (q.stopWait).wign = q.wign := rfl
@[simp] theorem stopWait_err (q : Port) : (q.stopWait).err = q.err := rfl
@[simp] theorem stopWait_crcv (q : Port) : (q.stopWait).crcv = q.crcv := rfl
@[simp] theorem stopWait_dinLen (q : Port) : (q.stopWait).dinLen = q.dinLen := rfl
@[simp] theorem stopWait_din (q : Port) : (q.stopWait).din = q.din := rfl
@[simp] theorem stopWait_resLen (q : Port) : (q.stopWait).resLen = q.resLen := rfl
@[simp] theorem stopWait_res (q : Port) : (q.stopWait).res = q.res := rfl
@[simp] theorem stopWait_dataType (q : Port) : (q.stopWait).dataType = q.dataType := rfl
@[simp] theorem stopWait_rawValue (q : Port) : (q.stopWait).rawValue = q.rawValue := rfl
@[simp] theorem stopWait_rawValid (q : Port) : (q.stopWait).rawValid = q.rawValid := rfl
@[simp] theorem stopWait_fields (q : Port) : (q.stopWait).fields = q.fields := rfl
@[simp] theorem stopWait_seq (q : Port) : (q.stopWait).seq = q.seq := rfl
@[simp] theorem stopWait_tag (q : Port) : (q.stopWait).tag = q.tag := rfl
@[simp] theorem stopWait_waiting (q : Port) : (q.stopWait).waiting = false := rfl
@[simp] theorem stopWait_wtimer (q : Port) : (q.stopWait).wtimer = q.wtimer := rfl
@[simp] theorem stopWait_wbuf (q : Port) : (q.stopWait).wbuf = q.wbuf := rfl
@[simp] theorem stopWait_wlen (q : Port) : (q.stopWait).wlen = q.wlen := rfl
@[simp] theorem stopWait_delay (q : Port) : (q.stopWait).delay = q.delay := rfl

/-! `Port.putWork` -/

@[simp] theorem putWork_ie (q : Port) (lim : Nat) (frame : List Byte) : (q.putWork lim frame).ie = q.ie := rfl
@[simp] theorem putWork_cmdLatch (q : Port) (lim : Nat) (frame : List Byte) : (q.putWork lim frame).cmdLatch = q.cmdLatch := rfl
@[simp] theorem putWork_busy (q : Port) (lim : Nat) (frame : List Byte) : (q.putWork lim frame).busy = q.busy := rfl
@[simp] theorem putWork_done (q : Port) (lim : Nat) (frame : List Byte) : (q.putWork lim frame).done = q.done := rfl
@[simp] theorem putWork_wign (q : Port) (lim : Nat) (frame : List Byte) : (q.putWork lim frame).wign = q.wign := rfl
@[simp] theorem putWork_err (q : Port) (lim : Nat) (frame : List Byte) : (q.putWork lim frame).err = q.err := rfl
@[simp] theorem putWork_crcv (q : Port) (lim : Nat) (frame : List Byte) : (q.putWork lim frame).crcv = q.crcv := rfl
@[simp] theorem putWork_dinLen (q : Port) (lim : Nat) (frame : List Byte) : (q.putWork lim frame).dinLen = q.dinLen := rfl
@[simp] theorem putWork_din (q : Port) (lim : Nat) (frame : List Byte) : (q.putWork lim frame).din = q.din := rfl
@[simp] theorem putWork_resLen (q : Port) (lim : Nat) (frame : List Byte) : (q.putWork lim frame).resLen = q.resLen := rfl
@[simp] theorem putWork_res (q : Port) (lim : Nat) (frame : List Byte) : (q.putWork lim frame).res = q.res := rfl
@[simp] theorem putWork_dataType (q : Port) (lim : Nat) (frame : List Byte) : (q.putWork lim frame).dataType = q.dataType := rfl
@[simp] theorem putWork_rawValue (q : Port) (lim : Nat) (frame : List Byte) : (q.putWork lim frame).rawValue = q.rawValue := rfl
@[simp] theorem putWork_rawValid (q : Port) (lim : Nat) (frame : List Byte) : (q.putWork lim frame).rawValid = q.rawValid := rfl
@[simp] theorem putWork_fields (q : Port) (lim : Nat) (frame : List Byte) : (q.putWork lim frame).fields = q.fields := rfl
@[simp] theorem putWork_seq (q : Port) (lim : Nat) (frame : List Byte) : (q.putWork lim frame).seq = q.seq := rfl
@[simp] theorem putWork_tag (q : Port) (lim : Nat) (frame : List Byte) : (q.putWork lim frame).tag = q.tag := rfl
@[simp] theorem putWork_waiting (q : Port) (lim : Nat) (frame : List Byte) : (q.putWork lim frame).waiting = q.waiting := rfl
@[simp] theorem putWork_wtimer (q : Port) (lim : Nat) (frame : List Byte) : (q.putWork lim frame).wtimer = q.wtimer := rfl
@[simp] theorem putWork_wbuf (q : Port) (lim : Nat) (frame : List Byte) : (q.putWork lim frame).wbuf = bufPutBytes lim q.wbuf 0 frame := rfl
@[simp] theorem putWork_wlen (q : Port) (lim : Nat) (frame : List Byte) : (q.putWork lim frame).wlen = BitVec.ofNat 9 frame.length := rfl
@[simp] theorem putWork_delay (q : Port) (lim : Nat) (frame : List Byte) : (q.putWork lim frame).delay = q.delay := rfl

/-! `Port.accept` -/

@[simp] theorem accept_ie (q : Port) (c : Params) (w : Word) (d : Nat) : (q.accept c w d).ie = q.ie := rfl
@[simp] theorem accept_cmdLatch (q : Port) (c : Params) (w : Word) (d : Nat) : (q.accept c w d).cmdLatch = w := rfl
@[simp] theorem accept_busy (q : Port) (c : Params) (w : Word) (d : Nat) : (q.accept c w d).busy = true := rfl
@[simp] theorem accept_done (q : Port) (c : Params) (w : Word) (d : Nat) : (q.accept c w d).done = false := rfl
@[simp] theorem accept_wign (q : Port) (c : Params) (w : Word) (d : Nat) : (q.accept c w d).wign = q.wign := rfl
@[simp] theorem accept_err (q : Port) (c : Params) (w : Word) (d : Nat) : (q.accept c w d).err = q.err := rfl
@[simp] theorem accept_crcv (q : Port) (c : Params) (w : Word) (d : Nat) : (q.accept c w d).crcv = q.crcv := rfl
@[simp] theorem accept_dinLen (q : Port) (c : Params) (w : Word) (d : Nat) : (q.accept c w d).dinLen = q.dinLen := rfl
@[simp] theorem accept_din (q : Port) (c : Params) (w : Word) (d : Nat) : (q.accept c w d).din = q.din := rfl
@[simp] theorem accept_resLen (q : Port) (c : Params) (w : Word) (d : Nat) : (q.accept c w d).resLen = q.resLen := rfl
@[simp] theorem accept_res (q : Port) (c : Params) (w : Word) (d : Nat) : (q.accept c w d).res = q.res := rfl
@[simp] theorem accept_dataType (q : Port) (c : Params) (w : Word) (d : Nat) : (q.accept c w d).dataType = q.dataType := rfl
@[simp] theorem accept_rawValue (q : Port) (c : Params) (w : Word) (d : Nat) : (q.accept c w d).rawValue = q.rawValue := rfl
@[simp] theorem accept_rawValid (q : Port) (c : Params) (w : Word) (d : Nat) : (q.accept c w d).rawValid = q.rawValid := rfl
@[simp] theorem accept_fields (q : Port) (c : Params) (w : Word) (d : Nat) : (q.accept c w d).fields = q.fields := rfl
@[simp] theorem accept_seq (q : Port) (c : Params) (w : Word) (d : Nat) : (q.accept c w d).seq = .localCmd := rfl
@[simp] theorem accept_tag (q : Port) (c : Params) (w : Word) (d : Nat) : (q.accept c w d).tag = q.tag := rfl
@[simp] theorem accept_waiting (q : Port) (c : Params) (w : Word) (d : Nat) : (q.accept c w d).waiting = q.waiting := rfl
@[simp] theorem accept_wtimer (q : Port) (c : Params) (w : Word) (d : Nat) : (q.accept c w d).wtimer = q.wtimer := rfl
@[simp] theorem accept_wbuf (q : Port) (c : Params) (w : Word) (d : Nat) : (q.accept c w d).wbuf = q.wbuf := rfl
@[simp] theorem accept_wlen (q : Port) (c : Params) (w : Word) (d : Nat) : (q.accept c w d).wlen = q.wlen := rfl
@[simp] theorem accept_delay (q : Port) (c : Params) (w : Word) (d : Nat) : (q.accept c w d).delay = if legalCommand c w q.dinCount then d else 0 := rfl

/-! `Port.ignoreWrite` -/

@[simp] theorem ignoreWrite_ie (q : Port) : (q.ignoreWrite).ie = q.ie := rfl
@[simp] theorem ignoreWrite_cmdLatch (q : Port) : (q.ignoreWrite).cmdLatch = q.cmdLatch := rfl
@[simp] theorem ignoreWrite_busy (q : Port) : (q.ignoreWrite).busy = q.busy := rfl
@[simp] theorem ignoreWrite_done (q : Port) : (q.ignoreWrite).done = q.done := rfl
@[simp] theorem ignoreWrite_wign (q : Port) : (q.ignoreWrite).wign = true := rfl
@[simp] theorem ignoreWrite_err (q : Port) : (q.ignoreWrite).err = q.err := rfl
@[simp] theorem ignoreWrite_crcv (q : Port) : (q.ignoreWrite).crcv = q.crcv := rfl
@[simp] theorem ignoreWrite_dinLen (q : Port) : (q.ignoreWrite).dinLen = q.dinLen := rfl
@[simp] theorem ignoreWrite_din (q : Port) : (q.ignoreWrite).din = q.din := rfl
@[simp] theorem ignoreWrite_resLen (q : Port) : (q.ignoreWrite).resLen = q.resLen := rfl
@[simp] theorem ignoreWrite_res (q : Port) : (q.ignoreWrite).res = q.res := rfl
@[simp] theorem ignoreWrite_dataType (q : Port) : (q.ignoreWrite).dataType = q.dataType := rfl
@[simp] theorem ignoreWrite_rawValue (q : Port) : (q.ignoreWrite).rawValue = q.rawValue := rfl
@[simp] theorem ignoreWrite_rawValid (q : Port) : (q.ignoreWrite).rawValid = q.rawValid := rfl
@[simp] theorem ignoreWrite_fields (q : Port) : (q.ignoreWrite).fields = q.fields := rfl
@[simp] theorem ignoreWrite_seq (q : Port) : (q.ignoreWrite).seq = q.seq := rfl
@[simp] theorem ignoreWrite_tag (q : Port) : (q.ignoreWrite).tag = q.tag := rfl
@[simp] theorem ignoreWrite_waiting (q : Port) : (q.ignoreWrite).waiting = q.waiting := rfl
@[simp] theorem ignoreWrite_wtimer (q : Port) : (q.ignoreWrite).wtimer = q.wtimer := rfl
@[simp] theorem ignoreWrite_wbuf (q : Port) : (q.ignoreWrite).wbuf = q.wbuf := rfl
@[simp] theorem ignoreWrite_wlen (q : Port) : (q.ignoreWrite).wlen = q.wlen := rfl
@[simp] theorem ignoreWrite_delay (q : Port) : (q.ignoreWrite).delay = q.delay := rfl

/-! `Port.latched` -/

@[simp] theorem latched_ie (q : Port) (w : Word) : (q.latched w).ie = q.ie := rfl
@[simp] theorem latched_cmdLatch (q : Port) (w : Word) : (q.latched w).cmdLatch = w := rfl
@[simp] theorem latched_busy (q : Port) (w : Word) : (q.latched w).busy = true := rfl
@[simp] theorem latched_done (q : Port) (w : Word) : (q.latched w).done = false := rfl
@[simp] theorem latched_wign (q : Port) (w : Word) : (q.latched w).wign = q.wign := rfl
@[simp] theorem latched_err (q : Port) (w : Word) : (q.latched w).err = q.err := rfl
@[simp] theorem latched_crcv (q : Port) (w : Word) : (q.latched w).crcv = q.crcv := rfl
@[simp] theorem latched_dinLen (q : Port) (w : Word) : (q.latched w).dinLen = q.dinLen := rfl
@[simp] theorem latched_din (q : Port) (w : Word) : (q.latched w).din = q.din := rfl
@[simp] theorem latched_resLen (q : Port) (w : Word) : (q.latched w).resLen = q.resLen := rfl
@[simp] theorem latched_res (q : Port) (w : Word) : (q.latched w).res = q.res := rfl
@[simp] theorem latched_dataType (q : Port) (w : Word) : (q.latched w).dataType = q.dataType := rfl
@[simp] theorem latched_rawValue (q : Port) (w : Word) : (q.latched w).rawValue = q.rawValue := rfl
@[simp] theorem latched_rawValid (q : Port) (w : Word) : (q.latched w).rawValid = q.rawValid := rfl
@[simp] theorem latched_fields (q : Port) (w : Word) : (q.latched w).fields = q.fields := rfl
@[simp] theorem latched_seq (q : Port) (w : Word) : (q.latched w).seq = .localCmd := rfl
@[simp] theorem latched_tag (q : Port) (w : Word) : (q.latched w).tag = q.tag := rfl
@[simp] theorem latched_waiting (q : Port) (w : Word) : (q.latched w).waiting = q.waiting := rfl
@[simp] theorem latched_wtimer (q : Port) (w : Word) : (q.latched w).wtimer = q.wtimer := rfl
@[simp] theorem latched_wbuf (q : Port) (w : Word) : (q.latched w).wbuf = q.wbuf := rfl
@[simp] theorem latched_wlen (q : Port) (w : Word) : (q.latched w).wlen = q.wlen := rfl
@[simp] theorem latched_delay (q : Port) (w : Word) : (q.latched w).delay = 0 := rfl

end Sys2Proof.Machine
end

