-- ==== Sys2Proof/Laws/Memory.lean ====
section
/-!
SUPPORT. The laws of byte buffers: a read after a write, and that every write keeps the canonical form.
-/
namespace Sys2Proof.Machine

/-! ### Reading after writing -/

theorem read_erase (m : Memory) (k i : Nat) : (m.erase k).read i = if i = k then unlistedByte else m.read i := by
  induction m with
  | nil => simp [Memory.erase, Memory.read]
  | cons c m ih =>
    obtain ⟨a, b⟩ := c
    by_cases hk : k = a
    · subst hk
      simp only [Memory.erase, if_pos, ih, Memory.read]
      split <;> simp_all
    · simp only [Memory.erase, if_neg hk, Memory.read, ih]
      split
      · next h => subst h; simp [Ne.symm hk]
      · rfl

theorem read_insert (m : Memory) (k : Nat) (v : Byte) (hm : ∀ c ∈ m, c.1 ≠ k) (i : Nat) :
    (Memory.insert m k v).read i = if i = k then v else m.read i := by
  induction m with
  | nil => simp [Memory.insert, Memory.read]
  | cons c m ih =>
    obtain ⟨a, b⟩ := c
    have ha : a ≠ k := hm (a, b) (by simp)
    have ih := ih fun c hc => hm c (by simp [hc])
    simp only [Memory.insert]
    split
    · simp [Memory.read]
    · simp only [Memory.read, ih]
      split
      · next h => subst h; simp [ha]
      · rfl

theorem mem_erase {m : Memory} {k : Nat} {c : Host.Cell} (h : c ∈ m.erase k) : c ∈ m ∧ c.1 ≠ k := by
  induction m with
  | nil => simp [Memory.erase] at h
  | cons d m ih =>
    obtain ⟨a, b⟩ := d
    simp only [Memory.erase] at h
    split at h
    · exact ⟨by simp [(ih h).1], (ih h).2⟩
    · next hk =>
      rcases List.mem_cons.mp h with rfl | h
      · exact ⟨by simp, fun e => hk e.symm⟩
      · exact ⟨by simp [(ih h).1], (ih h).2⟩

theorem mem_insert {m : Memory} {k : Nat} {v : Byte} {c : Host.Cell} (h : c ∈ Memory.insert m k v) :
    c = (k, v) ∨ c ∈ m := by
  induction m with
  | nil => simpa [Memory.insert] using h
  | cons d m ih =>
    obtain ⟨a, b⟩ := d
    simp only [Memory.insert] at h
    split at h
    · simpa using h
    · rcases List.mem_cons.mp h with rfl | h
      · simp
      · rcases ih h with h | h <;> simp [h]

/-- A read after a write: the written byte at its index, every other byte as before. -/
@[simp] theorem read_write (m : Memory) (k : Nat) (v : Byte) (i : Nat) :
    (m.write k v).read i = if i = k then v else m.read i := by
  unfold Memory.write
  split
  · next h => rw [read_erase, h]
  · rw [read_insert _ _ _ fun c hc => (mem_erase hc).2, read_erase]
    split <;> rfl

/-! ### The canonical form -/

theorem wfFrom_mono {lo lo' : Nat} (h : lo' ≤ lo) {m : Memory} (hm : Memory.wfFrom lo m = true) :
    Memory.wfFrom lo' m = true := by
  cases m with
  | nil => rfl
  | cons c m =>
    obtain ⟨a, b⟩ := c
    simp only [Memory.wfFrom, Bool.and_eq_true, decide_eq_true_eq] at hm ⊢
    exact ⟨⟨by omega, hm.1.2⟩, hm.2⟩

theorem wfFrom_erase {lo : Nat} {m : Memory} (k : Nat) (hm : Memory.wfFrom lo m = true) :
    Memory.wfFrom lo (m.erase k) = true := by
  induction m generalizing lo with
  | nil => rfl
  | cons c m ih =>
    obtain ⟨a, b⟩ := c
    simp only [Memory.wfFrom, Bool.and_eq_true, decide_eq_true_eq] at hm
    simp only [Memory.erase]
    split
    · exact wfFrom_mono (by omega) (ih hm.2)
    · simp only [Memory.wfFrom, Bool.and_eq_true, decide_eq_true_eq]
      exact ⟨hm.1, ih hm.2⟩

theorem wfFrom_insert {lo : Nat} {m : Memory} {k : Nat} {v : Byte} (hk : lo ≤ k) (hv : v ≠ unlistedByte)
    (hm : Memory.wfFrom lo m = true) (hn : ∀ c ∈ m, c.1 ≠ k) : Memory.wfFrom lo (Memory.insert m k v) = true := by
  induction m generalizing lo with
  | nil => simp [Memory.insert, Memory.wfFrom, hk, hv]
  | cons c m ih =>
    obtain ⟨a, b⟩ := c
    have ha : a ≠ k := hn (a, b) (by simp)
    simp only [Memory.wfFrom, Bool.and_eq_true, decide_eq_true_eq] at hm
    simp only [Memory.insert]
    split
    · simp only [Memory.wfFrom, Bool.and_eq_true, decide_eq_true_eq]
      exact ⟨⟨hk, hv⟩, ⟨by omega, hm.1.2⟩, hm.2⟩
    · simp only [Memory.wfFrom, Bool.and_eq_true, decide_eq_true_eq]
      exact ⟨hm.1, ih (by omega) hm.2 fun c hc => hn c (by simp [hc])⟩

/-- The empty buffer is canonical. -/
@[simp] theorem wf_nil : Memory.wf [] = true := rfl

/-- A write keeps the canonical form. -/
theorem wf_write {m : Memory} (hm : Memory.wf m = true) (k : Nat) (v : Byte) : Memory.wf (m.write k v) = true := by
  unfold Memory.write
  split
  · exact wfFrom_erase k hm
  · next h => exact wfFrom_insert (by omega) h (wfFrom_erase k hm) fun c hc => (mem_erase hc).2

/-- A canonical buffer is determined by what it reads as. -/
theorem read_of_lt_wfFrom {lo : Nat} {m : Memory} (hm : Memory.wfFrom lo m = true) {k : Nat} (hk : k < lo) :
    m.read k = unlistedByte := by
  induction m generalizing lo with
  | nil => rfl
  | cons c m ih =>
    obtain ⟨a, b⟩ := c
    simp only [Memory.wfFrom, Bool.and_eq_true, decide_eq_true_eq] at hm
    simp only [Memory.read]
    rw [if_neg (by omega)]
    exact ih hm.2 (by omega)

/-! ### Buffers of limited storage -/

@[simp] theorem bufGet_of_lt {lim k : Nat} (h : k < lim) (m : Memory) : bufGet lim m k = m.read k := by
  simp [bufGet, h]

theorem bufGet_of_le {lim k : Nat} (h : lim ≤ k) (m : Memory) : bufGet lim m k = 0 := by
  simp [bufGet, Nat.not_lt.mpr h]

@[simp] theorem read_bufPut (lim : Nat) (m : Memory) (k : Nat) (v : Byte) (i : Nat) :
    (bufPut lim m k v).read i = if i = k ∧ k < lim then v else m.read i := by
  unfold bufPut
  split <;> simp_all

/-- What a byte sequence written from index `k` on leaves in the buffer: its bytes where there is storage, every other byte
as before. -/
theorem read_bufPutBytes (lim : Nat) (m : Memory) (k : Nat) (bs : List Byte) (i : Nat) :
    (bufPutBytes lim m k bs).read i = if k ≤ i ∧ i < k + bs.length ∧ i < lim then bs.getD (i - k) 0 else m.read i := by
  induction bs generalizing m k with
  | nil => simp [bufPutBytes]; omega
  | cons b bs ih =>
    simp only [bufPutBytes, ih, read_bufPut, List.length_cons]
    by_cases h : i = k
    · subst h
      by_cases hl : i < lim <;> simp [hl]
    · by_cases h2 : k + 1 ≤ i ∧ i < k + 1 + bs.length ∧ i < lim
      · obtain ⟨n, hn⟩ : ∃ n, i - k = n + 1 := ⟨i - k - 1, by omega⟩
        have : i - (k + 1) = n := by omega
        rw [if_pos h2, if_pos (by omega), hn, this]
        simp
      · rw [if_neg h2, if_neg (by omega), if_neg (by omega)]

/-- Reading back a byte sequence that fits. -/
theorem bufGet_bufPutBytes {lim : Nat} (m : Memory) (bs : List Byte) (h : bs.length ≤ lim) {i : Nat}
    (hi : i < bs.length) : bufGet lim (bufPutBytes lim m 0 bs) i = bs.getD i 0 := by
  rw [bufGet_of_lt (by omega), read_bufPutBytes, if_pos (by omega), Nat.sub_zero]

@[simp] theorem length_bufTake (lim : Nat) (m : Memory) (n : Nat) : (bufTake lim m n).length = n := by
  simp [bufTake]

theorem getElem?_bufTake (lim : Nat) (m : Memory) (n i : Nat) :
    (bufTake lim m n)[i]? = if i < n then some (bufGet lim m i) else none := by
  simp only [bufTake, List.getElem?_map]
  split
  · next h => simp [List.getElem?_range h]
  · next h => simp [Nat.not_lt.mp h]

/-- The bytes of a sequence written at index 0 read back as that sequence. -/
theorem bufTake_bufPutBytes {lim : Nat} (m : Memory) (bs : List Byte) (h : bs.length ≤ lim) :
    bufTake lim (bufPutBytes lim m 0 bs) bs.length = bs := by
  apply List.ext_getElem?
  intro i
  rw [getElem?_bufTake]
  split
  · next hi => rw [bufGet_bufPutBytes m bs h hi]; simp [List.getD, List.getElem?_eq_getElem hi]
  · next hi => rw [List.getElem?_eq_none (by omega)]

theorem wf_bufPut {lim : Nat} {m : Memory} (hm : Memory.wf m = true) (k : Nat) (v : Byte) :
    Memory.wf (bufPut lim m k v) = true := by
  unfold bufPut
  split
  · exact wf_write hm k v
  · exact hm

/-- Every buffer write keeps the canonical form. -/
theorem wf_bufPutBytes {lim : Nat} {m : Memory} (hm : Memory.wf m = true) (k : Nat) (bs : List Byte) :
    Memory.wf (bufPutBytes lim m k bs) = true := by
  induction bs generalizing m k with
  | nil => exact hm
  | cons b bs ih => exact ih (wf_bufPut hm k b) (k + 1)

/-- Writing one byte keeps a buffer canonical and within its storage. -/
theorem bufferOk_bufPut {lim : Nat} {m : Memory} (hm : bufferOk lim m) (k : Nat) (v : Byte) :
    bufferOk lim (bufPut lim m k v) := by
  refine ⟨wf_bufPut hm.1 k v, ?_⟩
  intro c hc
  unfold bufPut Memory.write at hc
  split at hc
  · split at hc
    · exact hm.2 c (mem_erase hc).1
    · rcases mem_insert hc with rfl | hc
      · assumption
      · exact hm.2 c (mem_erase hc).1
  · exact hm.2 c hc

/-- Writing a byte sequence keeps a buffer canonical and within its storage. -/
theorem bufferOk_bufPutBytes {lim : Nat} {m : Memory} (hm : bufferOk lim m) (k : Nat) (bs : List Byte) :
    bufferOk lim (bufPutBytes lim m k bs) := by
  induction bs generalizing m k with
  | nil => exact hm
  | cons b bs ih => exact ih (bufferOk_bufPut hm k b) (k + 1)

theorem bufferOk_nil (lim : Nat) : bufferOk lim [] := ⟨rfl, by simp⟩

end Sys2Proof.Machine
end

