-- ==== Sys2Proof/Laws/Engine.lean ====
section
/-!
SUPPORT. What a command, and a command engine's turn, can do to the state: `EngineEffect`, the one lemma for each operation of
the engines that the invariants are proved from.
-/
namespace Sys2Proof.Machine

open Sys2Proof

/-! ### The shape of an engine's effect -/

/-- Port `q'` after an engine's turn that neither completed a command nor submitted a request: a counter moved at most. -/
def Port.Ticked (q q' : Port) : Prop := { q' with delay := q.delay, wtimer := q.wtimer } = q

/-- Port `q'` after a completion: the registers that no completion writes are as they were; `wait` is the flag `waiting`. -/
def Port.Ended (wait : Bool) (q q' : Port) : Prop :=
  q'.Completed ∧ q'.waiting = wait ∧ q'.tag = q.tag ∧ q'.operands = q.operands ∧ q'.ie = q.ie ∧ q'.wign = q.wign ∧
    q'.wtimer = q.wtimer ∧ q'.delay = q.delay

/-- Port `q'` after a submission: it waits under the next tag; only the work buffer may have changed beside. -/
def Port.Submitted (c : Params) (q q' : Port) : Prop :=
  q'.seq.isWait = true ∧
    q' =
      { q with
        seq := q'.seq, tag := nextTag c q.tag, waiting := true, wtimer := c.clientTimeout, wbuf := q'.wbuf,
        wlen := q'.wlen }

/-- From `s` to `t` port `p` became `q'` and the requests `l` were queued; nothing else changed but `active`. -/
def portStep (p : PortId) (q' : Port) (l : List Request) (s t : State) : Prop :=
  t = { s.setPort p q' with rq := s.rq ++ l, active := t.active }

theorem portStep_self (s : State) (p : PortId) : portStep p (s.port p) [] s s := by
  simp [portStep]

theorem portStep_modPort (s : State) (p : PortId) (f : Port → Port) : portStep p (f (s.port p)) [] s (s.modPort p f) := by
  simp [portStep, State.modPort, State.setPort]

/-- Everything that stays as it was over a `portStep`. -/
theorem portStep_frame {p : PortId} {q' : Port} {l : List Request} {s t : State} (h : portStep p q' l s t) :
    { t with ports := s.ports, rq := s.rq, active := s.active } = s ∧ t.port p = q' ∧ (∀ r, r ≠ p → t.port r = s.port r) ∧
      t.rq = s.rq ++ l := by
  unfold portStep at h
  generalize t.active = a at h
  subst h
  refine ⟨rfl, port_setPort_self s p q', fun r hr => ?_, rfl⟩
  exact port_setPort_ne s q' hr

/-! ### Submissions and completions -/

/-- What a submission does, and when there is none (R114). -/
theorem submit_eq (p : PortId) (w : SeqState) (bs : List Byte) (s : State) :
    s.submit p w bs =
      if s.rq.length = s.cfg.qDepth then none
      else
        some
          { s.setPort p ((s.port p).startWait s.cfg w) with
            rq := s.rq ++ [{ port := p, tag := nextTag s.cfg (s.port p).tag, bytes := bs }] } := rfl

theorem submit_none {p : PortId} {w : SeqState} {bs : List Byte} {s : State} (h : s.rq.length = s.cfg.qDepth) :
    s.submit p w bs = none := by simp [submit_eq, h]

theorem submit_some {p : PortId} {w : SeqState} {bs : List Byte} {s : State} (h : s.rq.length ≠ s.cfg.qDepth) :
    s.submit p w bs =
      some
        { s.setPort p ((s.port p).startWait s.cfg w) with
          rq := s.rq ++ [{ port := p, tag := nextTag s.cfg (s.port p).tag, bytes := bs }] } := by
  simp [submit_eq, h]

theorem submitted_startWait (c : Params) {w : SeqState} (hw : w.isWait = true) (q : Port) :
    Port.Submitted c q (q.startWait c w) := ⟨hw, rfl⟩

theorem ended_completeFrame (lim : Nat) (e : ErrTag) (c : Byte) (raw : List Byte) (t : DataType) (fl : Fields) (q : Port) :
    Port.Ended q.waiting q (q.completeFrame lim e c raw t fl) := ⟨⟨rfl, rfl, rfl⟩, rfl, rfl, rfl, rfl, rfl, rfl, rfl⟩

theorem ended_failArg (q : Port) : Port.Ended q.waiting q q.failArg :=
  ⟨⟨rfl, rfl, rfl⟩, rfl, rfl, rfl, rfl, rfl, rfl, rfl⟩

/-! ### Commands -/

/-- How a command, or the second half of one, leaves port `p`: it completed it, or it submitted one request of at most `n`
bytes. -/
def CommandEffect (n : Nat) (p : PortId) (s t : State) : Prop :=
  ∃ q' l, portStep p q' l s t ∧
    ((l = [] ∧ Port.Ended (s.port p).waiting (s.port p) q') ∨
      (s.rq.length ≠ s.cfg.qDepth ∧ Port.Submitted s.cfg (s.port p) q' ∧
        ∃ bs, bs.length ≤ n ∧ l = [{ port := p, tag := nextTag s.cfg (s.port p).tag, bytes := bs }]))

theorem commandEffect_modPort {n : Nat} {s : State} {p : PortId} {f : Port → Port}
    (h : Port.Ended (s.port p).waiting (s.port p) (f (s.port p))) : CommandEffect n p s (s.modPort p f) :=
  ⟨_, _, portStep_modPort s p f, .inl ⟨rfl, h⟩⟩

theorem commandEffect_submit {n : Nat} {s t : State} {p : PortId} {w : SeqState} {bs : List Byte}
    (h : s.submit p w bs = some t) (hw : w.isWait = true) (hn : bs.length ≤ n) : CommandEffect n p s t := by
  by_cases hq : s.rq.length = s.cfg.qDepth
  · simp [submit_none hq] at h
  · rw [submit_some hq] at h
    cases h
    exact ⟨_, _, rfl, .inr ⟨hq, submitted_startWait _ hw _, bs, hn, rfl⟩⟩

theorem finishRead_effect (n : Nat) (p : PortId) (id : Byte) (r : TransportResult) (s : State) :
    CommandEffect n p s (finishRead p id r s) := commandEffect_modPort (ended_completeFrame _ _ _ _ _ _ _)

theorem finishXchg_effect (n : Nat) (p : PortId) (r : TransportResult) (s : State) :
    CommandEffect n p s (finishXchg p r s) := commandEffect_modPort (ended_completeFrame _ _ _ _ _ _ _)

theorem finishCommit_effect (n : Nat) (p : PortId) (r : TransportResult) (s : State) :
    CommandEffect n p s (finishCommit p r s) := commandEffect_modPort (ended_completeFrame _ _ _ _ _ _ _)

theorem finishBounds_effect (n : Nat) (p : PortId) (f : List Byte) (s : State) :
    CommandEffect n p s (finishBounds p f s) := commandEffect_modPort (ended_completeFrame _ _ _ _ _ _ _)

theorem failArg_effect (n : Nat) (p : PortId) (s : State) : CommandEffect n p s (s.failArg p) :=
  commandEffect_modPort (ended_failArg _)

/-- The three ways a write's read step ends (R135 to R137). -/
theorem writeStep_cases (p : PortId) (id offset : Byte) (r : TransportResult) (s : State) :
    ((readCompose s.cfg id r).err ≠ .none ∧ writeStep p id offset r s = .stopped (finishRead p id r s)) ∨
      ((readCompose s.cfg id r).err = .none ∧ writeFits r.raw offset.toNat (s.port p).dinCount = false ∧
        writeStep p id offset r s = .stopped (finishBounds p r.raw s)) ∨
      ((readCompose s.cfg id r).err = .none ∧ writeFits r.raw offset.toNat (s.port p).dinCount = true ∧
        writeStep p id offset r s =
          let data := (s.port p).dinBytes s.cfg.frameMax
          .built (writeFrame s.cfg r.raw offset.toNat data) (writeChecksum s.cfg r.raw offset.toNat data)
            (s.modPort p (Port.putWork s.cfg.frameMax (writeFrame s.cfg r.raw offset.toNat data)))) := by
  unfold writeStep
  by_cases h1 : (readCompose s.cfg id r).err = .none
  · cases h2 : writeFits r.raw offset.toNat (s.port p).dinCount
    · exact .inr (.inl ⟨h1, rfl, by simp [h1, h2]⟩)
    · exact .inr (.inr ⟨h1, rfl, by simp [h1, h2]⟩)
  · exact .inl ⟨h1, by simp [h1]⟩

@[simp] theorem length_overlay (f : List Byte) (k : Nat) (data : List Byte) : (overlay f k data).length = f.length := by
  induction data generalizing f k with
  | nil => rfl
  | cons b data ih => simp [overlay, ih]

/-- The write frame is as long as the read frame (R137). -/
theorem length_writeFrame (c : Params) (f : List Byte) (offset : Nat) (data : List Byte) :
    (writeFrame c f offset data).length = f.length - 1 + 1 := by
  simp [writeFrame, writeBody, List.length_take]

theorem finishWriteDry_effect (n : Nat) (p : PortId) (id offset : Byte) (r : TransportResult) (s : State) :
    CommandEffect n p s (finishWriteDry p id offset r s) := by
  unfold finishWriteDry
  rcases writeStep_cases p id offset r s with ⟨-, h⟩ | ⟨-, -, h⟩ | ⟨-, -, h⟩ <;> simp only [h]
  · exact finishRead_effect n p id r s
  · exact finishBounds_effect n p r.raw s
  · rw [modPort_modPort]
    exact commandEffect_modPort (by simp [Port.Ended, Port.Completed, Port.operands])

theorem commitWrite_effect {n : Nat} (p : PortId) (id offset : Byte) {r : TransportResult} (s : State)
    (hr : r.raw.length ≤ n) (hn : 1 ≤ n) : CommandEffect n p s (commitWrite p id offset r s) := by
  unfold commitWrite
  rcases writeStep_cases p id offset r s with ⟨-, h⟩ | ⟨-, -, h⟩ | ⟨-, -, h⟩ <;> simp only [h]
  · exact finishRead_effect n p id r s
  · exact finishBounds_effect n p r.raw s
  · by_cases hq : s.rq.length = s.cfg.qDepth
    · rw [submit_none (by simpa using hq)]
      simp only [finishCommit, modPort_modPort]
      exact commandEffect_modPort (by simp [Port.Ended, Port.Completed, Port.operands])
    · rw [submit_some (by simpa using hq)]
      have hl := length_writeFrame s.cfg r.raw offset.toNat ((s.port p).dinBytes s.cfg.frameMax)
      generalize writeFrame s.cfg r.raw offset.toNat ((s.port p).dinBytes s.cfg.frameMax) = w at hl ⊢
      refine ⟨((s.port p).putWork s.cfg.frameMax w).startWait s.cfg .wrCommitWait,
        [{ port := p, tag := nextTag s.cfg (s.port p).tag, bytes := w }], ?_, .inr ⟨hq, ⟨rfl, rfl⟩, w, by omega, rfl⟩⟩
      simp [portStep]

theorem length_readRequest (c : Params) (id : Byte) : (readRequest c id).length = 6 := rfl

/-- Every command answers a next state in which it has completed its port's command or submitted one request. -/
theorem exec_effect (i : Instr) (s : State) :
    ∃ t, exec i s = .next t ∧ CommandEffect s.cfg.frameMax s.active s t := by
  have h6 : 6 ≤ s.cfg.frameMax := by unfold Params.frameMax; omega
  cases i with
  | xchg =>
    refine ⟨_, rfl, ?_⟩
    split
    · next ha =>
      split
      · next h => exact commandEffect_submit h rfl (by simpa [Port.dinBytes, argsOk] using ha)
      · exact finishXchg_effect ..
    · exact failArg_effect ..
  | read id =>
    refine ⟨_, rfl, ?_⟩
    split
    · next h => exact commandEffect_submit h rfl (by rw [length_readRequest]; exact h6)
    · exact finishRead_effect ..
  | writeDry id offset =>
    refine ⟨_, rfl, ?_⟩
    split
    · split
      · next h => exact commandEffect_submit h rfl (by rw [length_readRequest]; exact h6)
      · exact finishWriteDry_effect ..
    · exact failArg_effect ..
  | writeCommit id offset =>
    refine ⟨_, rfl, ?_⟩
    split
    · split
      · next h => exact commandEffect_submit h rfl (by rw [length_readRequest]; exact h6)
      · exact commitWrite_effect _ _ _ _ (by simp [TransportResult.socket]) (by omega)
    · exact failArg_effect ..
  | encode op id =>
    refine ⟨_, rfl, ?_⟩
    split
    · exact commandEffect_modPort (ended_completeFrame ..)
    · exact failArg_effect ..
  | validate =>
    refine ⟨_, rfl, ?_⟩
    split
    · exact commandEffect_modPort (by simp [Port.Ended, Port.Completed, Port.operands])
    · exact failArg_effect ..
  | classify id =>
    exact ⟨_, rfl, commandEffect_modPort (by simp [Port.Ended, Port.Completed, Port.operands])⟩
  | decode code =>
    refine ⟨_, rfl, ?_⟩
    split
    · exact failArg_effect ..
    · split
      · exact commandEffect_modPort (by simp [Port.Ended, Port.Completed, Port.operands])
      · exact failArg_effect ..
  | rawbyte offset =>
    refine ⟨_, rfl, ?_⟩
    split
    · exact commandEffect_modPort (by simp [Port.Ended, Port.Completed, Port.operands])
    · exact commandEffect_modPort (by simp [Port.Ended, Port.Completed, Port.operands])

end Sys2Proof.Machine
end

