-- ==== Sys2Proof/Laws/Commands.lean ====
section
/-!
SUPPORT. The shared operations of the commands, each with the lemma that says once what it does: limits, completions,
submissions, the hand-over of a transport result.
-/
namespace Sys2Proof.Machine

open Sys2Proof

/-! ### Limits and operands -/

theorem argsOk_xchg {c : Params} {n : Nat} : argsOk c .xchg n = true ↔ n ≤ c.frameMax := by simp [argsOk]

theorem argsOk_writeDry {c : Params} {id offset : Byte} {n : Nat} :
    argsOk c (.writeDry id offset) n = true ↔ n ≤ c.frameMax := by simp [argsOk]

theorem argsOk_writeCommit {c : Params} {id offset : Byte} {n : Nat} :
    argsOk c (.writeCommit id offset) n = true ↔ n ≤ c.frameMax := by simp [argsOk]

theorem argsOk_encode {c : Params} {op id : Byte} {n : Nat} : argsOk c (.encode op id) n = true ↔ n ≤ c.frameMax - 6 := by
  simp [argsOk]

theorem argsOk_validate {c : Params} {n : Nat} : argsOk c .validate n = true ↔ 2 ≤ n ∧ n ≤ c.frameMax := by simp [argsOk]

theorem argsOk_decode {c : Params} {code : Byte} {n : Nat} :
    argsOk c (.decode code) n = true ↔ code.toNat ≤ 6 ∧ n ≤ c.frameMax := by simp [argsOk]

/-- A frame buffer holds 258 or 259 bytes (R11, R162). -/
theorem frameMax_of_valid {c : Params} (h : c.Valid) : 258 ≤ c.frameMax ∧ c.frameMax ≤ 259 := by
  have := h.2.2.1
  unfold Params.frameMax
  omega

@[simp] theorem length_dinBytes (lim : Nat) (q : Port) : (q.dinBytes lim).length = q.dinLen.toNat := by
  simp [Port.dinBytes, Port.dinCount]

/-! ### Frames -/

theorem csum_cons (b : Byte) (bs : List Byte) : csum (b :: bs) = b + csum bs := by
  have key : ∀ (bs : List Byte) (a : Byte),
      bs.foldl (fun acc b => acc + b) a = a + bs.foldl (fun acc b => acc + b) 0 := by
    intro bs
    induction bs with
    | nil => intro a; simp
    | cons c bs ih =>
      intro a
      simp only [List.foldl_cons]
      rw [ih, ih (0 + c)]
      simp [BitVec.add_assoc]
  unfold csum
  rw [List.foldl_cons, key]
  simp

/-- The trailing byte of a frame made by appending it. -/
@[simp] theorem trailer_append (f : List Byte) (b : Byte) : trailer (f ++ [b]) = b := by simp [trailer]

@[simp] theorem trailer_requestFrame (op id : Byte) (pl : List Byte) :
    trailer (requestFrame op id pl) = csum ([op, 0x02, 0x00, id] ++ pl) := trailer_append _ _

@[simp] theorem length_requestFrame (op id : Byte) (pl : List Byte) : (requestFrame op id pl).length = pl.length + 6 := by
  simp [requestFrame]

/-! ### Completions -/

/-- A change of one port leaves everything else as it was. -/
theorem sameButPort_modPort (s : State) (p : PortId) (f : Port → Port) : sameButPort p s (s.modPort p f) :=
  ⟨rfl, fun _ hr => port_modPort_ne s f hr⟩

theorem completed_finish (q : Port) : q.finish.Completed := ⟨rfl, rfl, rfl⟩

/-- A completion with a frame writes that frame and nothing past it. -/
theorem sameButFrame_completeFrame (lim : Nat) (e : ErrTag) (c : Byte) (raw : List Byte) (t : DataType) (fl : Fields)
    (q : Port) : sameButFrame raw.length q (q.completeFrame lim e c raw t fl) := by
  refine ⟨rfl, fun k hk => ?_⟩
  rw [completeFrame_res, read_bufPutBytes, if_neg (by omega)]

theorem toNat_resLen_completeFrame {lim : Nat} {e : ErrTag} {c : Byte} {raw : List Byte} {t : DataType} {fl : Fields}
    {q : Port} (h : raw.length < 512) : (q.completeFrame lim e c raw t fl).resLen.toNat = raw.length := by
  rw [completeFrame_resLen, BitVec.toNat_ofNat]
  omega

/-- The frame a completion wrote reads back. -/
theorem resultFrame_completeFrame {lim : Nat} {e : ErrTag} {c : Byte} {raw : List Byte} {t : DataType} {fl : Fields}
    {q : Port} (h : raw.length ≤ lim) (h' : raw.length < 512) :
    (q.completeFrame lim e c raw t fl).resultFrame lim = raw := by
  unfold Port.resultFrame
  rw [toNat_resLen_completeFrame h']
  exact bufTake_bufPutBytes _ _ h

/-- `raise ARG` completes with `ARG` and writes nothing else. -/
theorem failArg_spec (p : PortId) (s : State) :
    sameButPort p s (s.failArg p) ∧ sameButStatus (s.port p) ((s.failArg p).port p) ∧ ((s.failArg p).port p).Completed ∧
      ((s.failArg p).port p).err = .arg ∧ ((s.failArg p).port p).crcv = 0 := by
  refine ⟨sameButPort_modPort _ _ _, ?_⟩
  rw [State.failArg, port_modPort_self]
  exact ⟨rfl, ⟨rfl, rfl, rfl⟩, rfl, rfl⟩

/-! ### Submissions -/

/-- What a submission does (R114). -/
theorem submits_of_submit {s t : State} {p : PortId} {w : SeqState} {bs : List Byte} (h : s.submit p w bs = some t) :
    submits p w bs s t := by
  by_cases hq : s.rq.length = s.cfg.qDepth
  · simp [submit_none hq] at h
  · rw [submit_some hq] at h
    cases h
    exact ⟨⟨rfl, fun _ hr => port_setPort_ne s _ hr⟩, rfl, port_setPort_self s p _⟩

/-- A read step that got `SOCKET` stops the write. -/
theorem writeStep_socket (p : PortId) (id offset : Byte) (s : State) :
    writeStep p id offset TransportResult.socket s = .stopped (finishRead p id TransportResult.socket s) := by
  simp [writeStep, readCompose, TransportResult.socket, noFrame]

theorem finishRead_socket (p : PortId) (id : Byte) (s : State) :
    finishRead p id TransportResult.socket s =
      s.modPort p (Port.completeFrame s.cfg.frameMax .socket 0 [] .rawOnly Fields.zero) := rfl

/-! ### What each wait does with a transport result (R124) -/

theorem deliver_xchgWait {p : PortId} {r : TransportResult} {s : State} (h : (s.port p).seq = .xchgWait) :
    deliver p r s = finishXchg p r s := by simp only [deliver, h]

theorem deliver_rdWait {p : PortId} {r : TransportResult} {s : State} (h : (s.port p).seq = .rdWait) :
    deliver p r s = finishRead p (cmdA (s.port p).cmdLatch) r s := by simp only [deliver, h]

theorem deliver_wrReadWait {p : PortId} {r : TransportResult} {s : State} (h : (s.port p).seq = .wrReadWait) :
    deliver p r s =
      if cmdOp (s.port p).cmdLatch = 0x04 then
        commitWrite p (cmdA (s.port p).cmdLatch) (cmdB (s.port p).cmdLatch) r s
      else finishWriteDry p (cmdA (s.port p).cmdLatch) (cmdB (s.port p).cmdLatch) r s := by
  simp only [deliver, h]

theorem deliver_wrCommitWait {p : PortId} {r : TransportResult} {s : State} (h : (s.port p).seq = .wrCommitWait) :
    deliver p r s = finishCommit p r s := by simp only [deliver, h]

end Sys2Proof.Machine
end

