-- ==== Sys2Proof/Laws/HostBus.lean ====
section
/-!
SUPPORT. What the host's access can do to the state: which fields it leaves alone, and what it does to a port that is busy and
to one that is not.
-/
namespace Sys2Proof.Machine

open Sys2Proof

/-- A host write touches the ports and `RX_OVR` only. -/
theorem hostWrite_frame (delay : Nat) (addr : HostAddr) (data : Word) (s : State) :
    { hostWrite delay addr data s with ports := s.ports, rxOvr := s.rxOvr } = s := by
  unfold hostWrite
  split
  · rfl
  · rfl
  · rfl
  · next r _ => cases r <;> rfl

/-- The host's part of a cycle touches the ports and `RX_OVR` only. -/
theorem hostTurn_frame (x : CycleInput) (s : State) :
    { hostTurn x s with ports := s.ports, rxOvr := s.rxOvr } = s := by
  unfold hostTurn
  split
  · rfl
  · rfl
  · exact hostWrite_frame _ _ _ s

/-- What the host's access does to one port: nothing, or one register write. -/
theorem hostTurn_port (x : CycleInput) (s : State) (p : PortId) :
    (hostTurn x s).port p = s.port p ∨ ∃ r data, (hostTurn x s).port p = writePortReg s.cfg x.delay r data (s.port p) := by
  unfold hostTurn
  split
  · exact .inl rfl
  · exact .inl rfl
  · next addr data _ =>
    unfold hostWrite
    split
    · exact .inl rfl
    · exact .inl rfl
    · next p' r _ =>
      rw [port_modPort]
      split
      · next h => subst h; exact .inr ⟨_, _, rfl⟩
      · exact .inl rfl
    · next r _ => cases r <;> exact .inl rfl

/-- A register write to a busy port reaches `IE`, `DONE` and `WIGN` only (R25 to R29, R163). -/
theorem writePortReg_busy {c : Params} {delay : Nat} {r : PortReg} {data : Word} {q : Port} (h : q.busy = true) :
    { writePortReg c delay r data q with ie := q.ie, done := q.done, wign := q.wign } = q ∧
      ((writePortReg c delay r data q).done = true → q.done = true) := by
  cases q
  simp only at h
  subst h
  cases r <;> simp +contextual [writePortReg, Port.ignoreWrite]

/-- A register write to a port that is not busy leaves its results, its wait and its work buffer alone. -/
theorem writePortReg_idle {c : Params} {delay : Nat} {r : PortReg} {data : Word} {q : Port} (h : q.busy = false) :
    let q' := writePortReg c delay r data q
    q'.results = q.results ∧ q'.tag = q.tag ∧ q'.waiting = q.waiting ∧ q'.wtimer = q.wtimer ∧ q'.wbuf = q.wbuf ∧
      q'.wlen = q.wlen ∧
      ((q'.busy = false ∧ q'.seq = q.seq ∧ q'.cmdLatch = q.cmdLatch ∧ q'.delay = q.delay) ∨
        (q'.busy = true ∧ q'.seq = .localCmd ∧ q'.done = false ∧ q'.cmdLatch = data ∧ q'.dinLen = q.dinLen ∧
          q'.din = q.din ∧ r = .cmd)) := by
  cases r <;> simp [writePortReg, h, Port.accept, Port.results]

/-- A register write keeps a port's buffers canonical. -/
theorem writePortReg_buffers {c : Params} {delay : Nat} {r : PortReg} {data : Word} {q : Port}
    (h : bufferOk c.frameMax q.din) :
    bufferOk c.frameMax (writePortReg c delay r data q).din ∧ (writePortReg c delay r data q).res = q.res ∧
      (writePortReg c delay r data q).wbuf = q.wbuf := by
  cases r <;> cases hb : q.busy <;>
    simp [writePortReg, hb, h, Port.accept, Port.ignoreWrite, bufferOk_bufPutBytes]

/-- The port after the host's part of a cycle, if it was busy before. -/
theorem hostTurn_busy {x : CycleInput} {s : State} {p : PortId} (h : (s.port p).busy = true) :
    { (hostTurn x s).port p with ie := (s.port p).ie, done := (s.port p).done, wign := (s.port p).wign } = s.port p ∧
      (((hostTurn x s).port p).done = true → (s.port p).done = true) := by
  rcases hostTurn_port x s p with h' | ⟨r, data, h'⟩ <;> rw [h']
  · exact ⟨rfl, id⟩
  · exact writePortReg_busy h

/-- Which addresses name a register of a port (R41). -/
theorem hostTarget_eq_portReg {c : Params} {addr : HostAddr} {p : PortId} {r : PortReg} :
    hostTarget c addr = .portReg p r ↔
      addr.toNat % 4 = 0 ∧ addr.toNat / 0x1000 = p.val ∧ p.val < c.numPorts ∧ portRegAt (addr.toNat % 0x1000) = some r := by
  unfold hostTarget
  simp only [ne_eq]
  split
  · next h => simp [h]
  · next h =>
    split
    · next h15 =>
      split
      · next hn =>
        split
        · next r' hr =>
          simp only [HostTarget.portReg.injEq, Fin.ext_iff]
          constructor
          · rintro ⟨h1, rfl⟩
            exact ⟨by omega, h1, by omega, hr⟩
          · rintro ⟨-, h1, -, h2⟩
            rw [hr] at h2
            exact ⟨h1, by simpa using h2⟩
        · next hr => simp [hr]
      · next hn =>
        simp only [reduceCtorEq, false_iff]
        rintro ⟨-, h1, h2, -⟩
        omega
    · next h15 =>
      split
      · simp only [reduceCtorEq, false_iff]
        rintro ⟨-, h1, -, -⟩
        omega
      · simp only [reduceCtorEq, false_iff]
        rintro ⟨-, h1, -, -⟩
        omega

/-- An aligned offset of a port's window names the register the map has there. -/
theorem hostTarget_portAddr {c : Params} {p : PortId} {off : Nat} {r : PortReg} (hp : p.val < c.numPorts) (ho : off < 0x1000)
    (h4 : off % 4 = 0) (hr : portRegAt off = some r) : hostTarget c (portAddr p off) = .portReg p r := by
  have hp15 := p.isLt
  have ha : (portAddr p off).toNat = 0x1000 * p.val + off := by
    unfold portAddr
    rw [BitVec.toNat_ofNat]
    omega
  rw [hostTarget_eq_portReg, ha]
  refine ⟨by omega, by omega, hp, ?_⟩
  rw [show (0x1000 * p.val + off) % 0x1000 = off by omega]
  exact hr

/-! ### Where the registers are -/

/-- Word `w` of the window `DATA_IN` (R41). -/
theorem portRegAt_dataIn {w : Nat} (h : w < 65) : portRegAt (0x400 + 4 * w) = some (.dataIn w) := by
  unfold portRegAt
  split <;> first | omega | skip
  rw [if_pos (by omega), show (0x400 + 4 * w - 0x400) / 4 = w by omega]

/-- Word `w` of the window `RESULT` (R41). -/
theorem portRegAt_result {w : Nat} (h : w < 65) : portRegAt (0x800 + 4 * w) = some (.result w) := by
  unfold portRegAt
  split <;> first | omega | skip
  rw [if_neg (by omega), if_pos (by omega), show (0x800 + 4 * w - 0x800) / 4 = w by omega]

/-- What a read of a port's register answers. -/
theorem hostRead_portAddr {s : State} {p : PortId} {off : Nat} {r : PortReg} (hp : p.val < s.cfg.numPorts) (ho : off < 0x1000)
    (h4 : off % 4 = 0) (hr : portRegAt off = some r) :
    hostRead s (portAddr p off) = (readPortReg s.cfg (s.port p) r, false) := by
  simp only [hostRead, hostTarget_portAddr hp ho h4 hr]

/-- What a write of a port's register does. -/
theorem hostWrite_portAddr {delay : Nat} {s : State} {p : PortId} {off : Nat} {r : PortReg} {data : Word}
    (hp : p.val < s.cfg.numPorts) (ho : off < 0x1000) (h4 : off % 4 = 0) (hr : portRegAt off = some r) :
    hostWrite delay (portAddr p off) data s = s.setPort p (writePortReg s.cfg delay r data (s.port p)) := by
  simp only [hostWrite, hostTarget_portAddr hp ho h4 hr, State.modPort]

/-- The address of `ID_ENTRY[k]` names entry `k` of the table (R33). -/
theorem hostTarget_idEntry {c : Params} {k : Nat} {e : IdEntry} (hk : k < 255) (h : c.idTable[k]? = some e) :
    hostTarget c (BitVec.ofNat 16 (0xF100 + 4 * k)) = .globalReg (.idEntry e) := by
  have ha : (BitVec.ofNat 16 (0xF100 + 4 * k)).toNat = 0xF100 + 4 * k := by
    rw [BitVec.toNat_ofNat]
    omega
  have hg : globalRegAt c (0x100 + 4 * k) = some (.idEntry e) := by
    unfold globalRegAt
    split <;> first | omega | skip
    rw [if_pos (by omega), show (0x100 + 4 * k - 0x100) / 4 = k by omega, h]
    rfl
  unfold hostTarget
  simp only [ha]
  rw [if_neg (by omega), dif_neg (by omega), show (0xF100 + 4 * k) % 0x1000 = 0x100 + 4 * k by omega, hg]

/-- The offsets of the two global registers that a host write acts on (R41). -/
theorem globalRegAt_writable {c : Params} {off : Nat} :
    (globalRegAt c off = some .gctrl ↔ off = 0x00C) ∧ (globalRegAt c off = some .arbStatus ↔ off = 0x008) := by
  unfold globalRegAt
  split <;> simp
  next h8 h12 _ _ => exact ⟨h12, h8⟩

/-- An address names a register of the global window if it is aligned and the map has that register at its offset. -/
theorem hostTarget_eq_globalReg {c : Params} {addr : HostAddr} {r : GlobalReg} :
    hostTarget c addr = .globalReg r ↔
      addr.toNat % 4 = 0 ∧ 0xF000 ≤ addr.toNat ∧ globalRegAt c (addr.toNat % 0x1000) = some r := by
  have ha := addr.isLt
  unfold hostTarget
  simp only [ne_eq]
  split
  · next h => simp [h]
  · next h =>
    split
    · next h15 =>
      have hn : ¬0xF000 ≤ addr.toNat := by omega
      split
      · split <;> simp [hn]
      · simp [hn]
    · next h15 =>
      have hn : 0xF000 ≤ addr.toNat := by omega
      split
      · next r' hr => simp [hr, hn, not_not.1 h]
      · next hr => simp [hr]

/-- The address of `GCTRL` (R41). -/
theorem hostTarget_gctrl {c : Params} {addr : HostAddr} : hostTarget c addr = .globalReg .gctrl ↔ addr = 0xF00C := by
  rw [hostTarget_eq_globalReg, globalRegAt_writable.1, ← BitVec.toNat_inj]
  have ha := addr.isLt
  simp
  omega

/-- The address of `ARB_STATUS` (R41). -/
theorem hostTarget_arbStatus {c : Params} {addr : HostAddr} : hostTarget c addr = .globalReg .arbStatus ↔ addr = 0xF008 := by
  rw [hostTarget_eq_globalReg, globalRegAt_writable.2, ← BitVec.toNat_inj]
  have ha := addr.isLt
  simp
  omega

/-! ### Ports that are not there -/

/-- No access reaches a port from `NUM_PORTS` on (R41, R43). -/
theorem hostTurn_port_absent {x : CycleInput} {s : State} {p : PortId} (h : s.cfg.numPorts ≤ p.val) :
    (hostTurn x s).port p = s.port p := by
  unfold hostTurn
  split
  · rfl
  · rfl
  · unfold hostWrite
    split
    · rfl
    · rfl
    · next p' r ht =>
      rw [port_modPort]
      split
      · next he =>
        subst he
        exact absurd (hostTarget_eq_portReg.1 ht).2.2.1 (Nat.not_lt.mpr h)
      · rfl
    · next r _ => cases r <;> rfl

end Sys2Proof.Machine
end

