-- ==== Sys2Proof/Laws/Cycle.lean ====
section
/-!
SUPPORT. What each agent's part of a cycle can do, and how a cycle is put together.
-/
namespace Sys2Proof.Machine

open Sys2Proof

/-! ### The receive side and the controller -/

theorem pushByte_frame (x : CycleInput) (s0 s : State) :
    { pushByte x s0 s with rxq := s.rxq, rxOvr := s.rxOvr } = s := by
  unfold pushByte overflow
  repeat' split
  all_goals rfl

theorem takeByte_frame (b : Byte) (s : State) :
    { takeByte b s with
      rxState := s.rxState, rxBuf := s.rxBuf, rxCnt := s.rxCnt, rxLen := s.rxLen, rxTimer := s.rxTimer } = s := by
  unfold takeByte takeMarker takeHeader1 takeHeader2 takeAccum
  repeat' split
  all_goals rfl

theorem byteTick_frame (s : State) :
    { byteTick s with rxState := s.rxState, rxCnt := s.rxCnt, rxTimer := s.rxTimer } = s := by
  unfold byteTick
  split <;> rfl

theorem flushFifo_frame (x : CycleInput) (s0 s : State) :
    { flushFifo x s0 s with rxq := s.rxq, rxOvr := s.rxOvr } = s := by
  unfold flushFifo pushByte overflow
  repeat' split
  all_goals rfl

/-- The receive side touches the FIFO and the framer only. -/
theorem receiveTurn_frame (x : CycleInput) (s0 s : State) :
    { receiveTurn x s0 s with
      rxq := s.rxq, rxOvr := s.rxOvr, rxState := s.rxState, rxBuf := s.rxBuf, rxCnt := s.rxCnt, rxLen := s.rxLen,
      rxTimer := s.rxTimer } = s := by
  unfold receiveTurn flushFifo pushByte overflow byteTick takeByte takeMarker takeHeader1 takeHeader2 takeAccum
  repeat' split
  all_goals rfl

theorem popRequest_frame (s : State) :
    { s.popRequest with rq := s.rq, cur := s.cur, txIdx := s.txIdx, arb := s.arb } = s := by
  unfold State.popRequest
  split <;> rfl

/-- What a pop does: it takes the head of a queue that is not empty into service, from whichever state (R116). -/
theorem popRequest_cons {s : State} {r : Request} {rest : List Request} (h : s.rq = r :: rest) :
    s.popRequest = { s with rq := rest, cur := r, txIdx := 0, arb := .tx } := by
  simp only [State.popRequest, h]

/-- A controller that is transmitting or receiving pops nothing (R116). -/
theorem popsNow_busy {s : State} (h : s.arb = .tx ∨ s.arb = .rx) : popsNow s = false ∧ popsLast s = false := by
  rcases h with h | h <;> simp [popsLast, popsNow, idlesNow, h]

/-- In ARB_IDLE the controller pops exactly if the queue is not empty at the start of the cycle (R116). -/
theorem popsNow_idle {s : State} (h : s.arb = .idle) : popsNow s = true ↔ s.rq ≠ [] := by
  simp [popsNow, idlesNow, h]

/-- A pop finds a request. -/
theorem rq_of_popsNow {s : State} (h : popsNow s = true) : ∃ r rest, s.rq = r :: rest := by
  unfold popsNow at h
  cases hq : s.rq with
  | nil => simp [hq] at h
  | cons r rest => exact ⟨r, rest, rfl⟩

/-- A pop touches the controller's registers only, whether it comes first or not. -/
theorem earlyPop_frame (s0 s : State) :
    { earlyPop s0 s with rq := s.rq, cur := s.cur, txIdx := s.txIdx, arb := s.arb } = s := by
  unfold earlyPop
  split
  · exact popRequest_frame s
  · rfl

/-- The controller touches its own registers and the framer's only. -/
theorem arbiterTurn_frame (x : CycleInput) (s0 s : State) :
    { arbiterTurn x s0 s with
      rq := s.rq, cur := s.cur, txIdx := s.txIdx, arb := s.arb, reply := s.reply, rxState := s.rxState,
      rxCnt := s.rxCnt, rxLen := s.rxLen, rxTimer := s.rxTimer } = s := by
  unfold arbiterTurn earlyPop State.popRequest State.armFramer
  repeat' split
  all_goals rfl

/-- The pop that comes last touches the controller's registers only. -/
theorem latePop_frame (s0 s : State) :
    { latePop s0 s with rq := s.rq, cur := s.cur, txIdx := s.txIdx, arb := s.arb } = s := by
  unfold latePop
  split
  · exact popRequest_frame s
  · rfl

@[simp] theorem latePop_port (s0 s : State) (p : PortId) : (latePop s0 s).port p = s.port p :=
  port_of_ports (congrArg State.ports (latePop_frame s0 s) :) p

/-- The ports before the engines' turns are as the host's access left them. -/
theorem beforeEngines_port (x : CycleInput) (s : State) (p : PortId) :
    (beforeEngines x s).port p = (hostTurn x (s.outputs x)).port p := by
  have h1 : (beforeEngines x s).ports = (receiveTurn x s (hostTurn x (s.outputs x))).ports :=
    (congrArg State.ports (arbiterTurn_frame x s (receiveTurn x s (hostTurn x (s.outputs x)))) :)
  have h2 : (receiveTurn x s (hostTurn x (s.outputs x))).ports = (hostTurn x (s.outputs x)).ports :=
    (congrArg State.ports (receiveTurn_frame x s (hostTurn x (s.outputs x))) :)
  exact port_of_ports (h1.trans h2) p

/-- What the host's access, the receive side and the controller leave alone. -/
theorem beforeEngines_frame (x : CycleInput) (s : State) :
    (beforeEngines x s).cfg = s.cfg ∧ (beforeEngines x s).active = s.active ∧
      (beforeEngines x s).script = s.script.tail ∧ (beforeEngines x s).cycle = s.cycle + 1 ∧
      (beforeEngines x s).bus = busResponse s x.host ∧
      (beforeEngines x s).wire = if x.txReady then s.wire ++ s.txByte.toList else s.wire := by
  have h1 := arbiterTurn_frame x s (receiveTurn x s (hostTurn x (s.outputs x)))
  have h2 := receiveTurn_frame x s (hostTurn x (s.outputs x))
  have h3 := hostTurn_frame x (s.outputs x)
  refine ⟨?_, ?_, ?_, ?_, ?_, ?_⟩
  · exact (congrArg State.cfg h1 :).trans ((congrArg State.cfg h2 :).trans (congrArg State.cfg h3 :))
  · exact (congrArg State.active h1 :).trans ((congrArg State.active h2 :).trans (congrArg State.active h3 :))
  · exact (congrArg State.script h1 :).trans ((congrArg State.script h2 :).trans (congrArg State.script h3 :))
  · exact (congrArg State.cycle h1 :).trans ((congrArg State.cycle h2 :).trans (congrArg State.cycle h3 :))
  · exact (congrArg State.bus h1 :).trans ((congrArg State.bus h2 :).trans (congrArg State.bus h3 :))
  · exact (congrArg State.wire h1 :).trans ((congrArg State.wire h2 :).trans (congrArg State.wire h3 :))

/-! ### The engines -/

/-- Running a command does not depend on which port was active before. -/
theorem commandEffect_active {n : Nat} {p a : PortId} {s t : State}
    (h : CommandEffect n p { s with active := a } t) : CommandEffect n p s t := h

/-- What port `p`'s engine can do after its wait ended. -/
theorem commandEffect_stopWait {n : Nat} {p : PortId} {s t : State} (h : CommandEffect n p (s.modPort p Port.stopWait) t) :
    ∃ q' l, portStep p q' l s t ∧
      ((l = [] ∧ Port.Ended false (s.port p) q') ∨
        (s.rq.length ≠ s.cfg.qDepth ∧ Port.Submitted s.cfg (s.port p) q' ∧
          ∃ bs, bs.length ≤ n ∧ l = [{ port := p, tag := nextTag s.cfg (s.port p).tag, bytes := bs }])) := by
  obtain ⟨q', l, h1, h2⟩ := h
  refine ⟨q', l, ?_, ?_⟩
  · simpa [portStep] using h1
  · rw [port_modPort_self] at h2
    exact h2

/-- What a port does with a transport result: it goes on with its command, or it was in no wait (R124). -/
theorem deliver_effect {n : Nat} (p : PortId) {r : TransportResult} (s : State) (hr : r.raw.length ≤ n) (hn : 1 ≤ n) :
    CommandEffect n p s (deliver p r s) ∨ ((s.port p).seq.isWait = false ∧ deliver p r s = s) := by
  unfold deliver
  split
  · next h => exact .inr ⟨by rw [h]; rfl, rfl⟩
  · next h => exact .inr ⟨by rw [h]; rfl, rfl⟩
  · exact .inl (finishXchg_effect ..)
  · exact .inl (finishRead_effect ..)
  · refine .inl ?_
    show CommandEffect n p s (if _ then _ else _)
    split
    · exact commitWrite_effect _ _ _ _ hr hn
    · exact finishWriteDry_effect ..
  · exact .inl (finishCommit_effect ..)

/-- What running the latched command does (R67). -/
theorem runCommand_effect {n : Nat} (p : PortId) (s : State) (hn : s.cfg.frameMax ≤ n) :
    ∃ t, runCommand p s = .next t ∧ CommandEffect n p s t := by
  unfold runCommand
  split
  · next i _ =>
    obtain ⟨t, h1, q', l, h2, h3⟩ := exec_effect i { s with active := p }
    refine ⟨t, h1, q', l, h2, ?_⟩
    rcases h3 with h3 | ⟨h3, h4, bs, h5, h6⟩
    · exact .inl h3
    · exact .inr ⟨h3, h4, bs, Nat.le_trans h5 hn, h6⟩
  · exact ⟨_, rfl, failArg_effect ..⟩

/-- What one engine's turn does: a counter moves, the latched command runs, or a wait ends. A turn always answers a next
state. -/
theorem engineTurn_effect {n : Nat} (x : CycleInput) (s0 : State) (p : PortId) (s : State) (hn : s.cfg.frameMax ≤ n)
    (hr : s0.reply.result.raw.length ≤ n) :
    ∃ t, engineTurn x s0 p s = .next t ∧
      ((runsNow s0 p = true ∧ CommandEffect n p s t) ∨
        (runsNow s0 p = false ∧ replyFor s0 p = false ∧ ∃ q', portStep p q' [] s t ∧ Port.Ticked (s.port p) q') ∨
        (runsNow s0 p = false ∧ (s0.port p).waiting = true ∧ CommandEffect n p (s.modPort p Port.stopWait) t) ∨
        (runsNow s0 p = false ∧ delaysNow s0 p = false ∧ (s0.port p).waiting = true ∧ (s.port p).seq.isWait = false ∧
          t = s.modPort p Port.stopWait) ∨
        (runsNow s0 p = false ∧ delaysNow s0 p = true ∧ ∃ q', portStep p q' [] s t ∧ Port.Ticked (s.port p) q')) := by
  have h1 : 1 ≤ n := by unfold Params.frameMax at hn; omega
  have wake : ∀ r : TransportResult, r.raw.length ≤ n →
      CommandEffect n p (s.modPort p Port.stopWait) (handOver p r s) ∨
        ((s.port p).seq.isWait = false ∧ handOver p r s = s.modPort p Port.stopWait) := fun r hr => by
    rcases deliver_effect p (s.modPort p Port.stopWait) hr h1 with h | ⟨h, h'⟩
    · exact .inl h
    · exact .inr ⟨by simpa using h, h'⟩
  unfold engineTurn
  split
  · next hrun =>
    obtain ⟨t, h, h'⟩ := runCommand_effect p s hn
    exact ⟨t, h, .inl ⟨hrun, h'⟩⟩
  · next hrun =>
    have hrun : runsNow s0 p = false := by simpa using hrun
    refine ⟨_, rfl, ?_⟩
    unfold engineWait
    split
    · next hd =>
      exact .inr (.inr (.inr (.inr ⟨hrun, hd, _, portStep_modPort s p _, rfl⟩)))
    · next hd =>
      have hd : delaysNow s0 p = false := by simpa using hd
      split
      · next hf =>
        have hw : (s0.port p).waiting = true := by
          unfold replyFor at hf
          simp only [Bool.and_eq_true] at hf
          exact hf.1.2
        rcases wake s0.reply.result hr with h | ⟨h, h'⟩
        · exact .inr (.inr (.inl ⟨hrun, hw, h⟩))
        · exact .inr (.inr (.inr (.inl ⟨hrun, hd, hw, h, h'⟩)))
      · next hf =>
        have hf : replyFor s0 p = false := by simpa using hf
        split
        · next ht =>
          have hw : (s0.port p).waiting = true := by
            simp only [Bool.and_eq_true] at ht
            exact ht.1.2
          unfold clientTick
          split
          · rcases wake TransportResult.socket (by simp [TransportResult.socket]) with h | ⟨h, h'⟩
            · exact .inr (.inr (.inl ⟨hrun, hw, h⟩))
            · exact .inr (.inr (.inr (.inl ⟨hrun, hd, hw, h, h'⟩)))
          · exact .inr (.inl ⟨hrun, hf, _, portStep_modPort s p _, rfl⟩)
        · exact .inr (.inl ⟨hrun, hf, _, portStep_self s p, rfl⟩)

/-- What every engine's turn keeps, all of them keep. -/
theorem enginesTurn_keeps {x : CycleInput} {s0 : State} {P : State → Prop}
    (h : ∀ p s, P s → ∃ t, engineTurn x s0 p s = .next t ∧ P t) (ps : List PortId) {s : State} (hs : P s) :
    ∃ t, enginesTurn x s0 ps s = .next t ∧ P t := by
  induction ps generalizing s with
  | nil => exact ⟨s, rfl, hs⟩
  | cons p ps ih =>
    obtain ⟨t, h1, h2⟩ := h p s hs
    obtain ⟨u, h3, h4⟩ := ih h2
    exact ⟨u, by simp only [enginesTurn, h1, h3], h4⟩

/-- An engine's turn leaves every other port, and everything but the queue and `active`, as it was; it queues at most one
request, its own port's, and none on a full queue. -/
theorem engineTurn_frame {x : CycleInput} {s0 : State} {p : PortId} {s t : State} (h : engineTurn x s0 p s = .next t) :
    { t with ports := s.ports, rq := s.rq, active := s.active } = s ∧ (∀ r, r ≠ p → t.port r = s.port r) ∧
      (t.rq = s.rq ∨
        ∃ e, t.rq = s.rq ++ [e] ∧ e.port = p ∧ s.rq.length ≠ s.cfg.qDepth ∧
          e.bytes.length ≤ max s.cfg.frameMax s0.reply.result.raw.length) := by
  obtain ⟨t', ht, he⟩ := engineTurn_effect (n := max s.cfg.frameMax s0.reply.result.raw.length) x s0 p s (by omega) (by omega)
  rw [h] at ht
  cases ht
  have fin : ∀ {q' l}, portStep p q' l s t →
      (l = [] ∨
        (s.rq.length ≠ s.cfg.qDepth ∧ ∃ tg bs, bs.length ≤ max s.cfg.frameMax s0.reply.result.raw.length ∧
          l = [{ port := p, tag := tg, bytes := bs }])) →
      { t with ports := s.ports, rq := s.rq, active := s.active } = s ∧ (∀ r, r ≠ p → t.port r = s.port r) ∧
        (t.rq = s.rq ∨
          ∃ e, t.rq = s.rq ++ [e] ∧ e.port = p ∧ s.rq.length ≠ s.cfg.qDepth ∧
            e.bytes.length ≤ max s.cfg.frameMax s0.reply.result.raw.length) := by
    intro q' l hs hl
    obtain ⟨h1, -, h3, h4⟩ := portStep_frame hs
    refine ⟨h1, h3, ?_⟩
    rcases hl with rfl | ⟨hd, tg, bs, hb, rfl⟩
    · exact .inl (by simpa using h4)
    · exact .inr ⟨_, h4, rfl, hd, hb⟩
  rcases he with ⟨-, q', l, h1, h2⟩ | ⟨-, -, q', h1, -⟩ | ⟨-, -, h1⟩ | ⟨-, -, -, -, rfl⟩ | ⟨-, -, q', h1, -⟩
  · refine fin h1 ?_
    rcases h2 with ⟨rfl, -⟩ | ⟨hd, -, bs, hb, rfl⟩
    · exact .inl rfl
    · exact .inr ⟨hd, _, _, hb, rfl⟩
  · exact fin h1 (.inl rfl)
  · obtain ⟨q', l, h1, h2⟩ := commandEffect_stopWait h1
    refine fin h1 ?_
    rcases h2 with ⟨rfl, -⟩ | ⟨hd, -, bs, hb, rfl⟩
    · exact .inl rfl
    · exact .inr ⟨hd, _, _, hb, rfl⟩
  · exact fin (portStep_modPort s p _) (.inl rfl)
  · exact fin h1 (.inl rfl)

/-- What all the engines' turns together do beside the ports: they queue at most one request a port, in the ports' order,
within the queue's depth. -/
theorem enginesTurn_frame {x : CycleInput} {s0 : State} {ps : List PortId} {s t : State}
    (h : enginesTurn x s0 ps s = .next t) :
    { t with ports := s.ports, rq := s.rq, active := s.active } = s ∧
      ∃ l, t.rq = s.rq ++ l ∧ (l.map Request.port).Sublist ps ∧ (s.rq.length ≤ s.cfg.qDepth → t.rq.length ≤ s.cfg.qDepth) ∧
        ∀ e ∈ l, e.bytes.length ≤ max s.cfg.frameMax s0.reply.result.raw.length := by
  induction ps generalizing s with
  | nil =>
    cases h
    exact ⟨rfl, [], by simp, by simp, id, by simp⟩
  | cons p ps ih =>
    simp only [enginesTurn] at h
    split at h
    · next s' hs' =>
      obtain ⟨h1, -, h2⟩ := engineTurn_frame hs'
      have hc : s'.cfg = s.cfg := (congrArg State.cfg h1 :)
      obtain ⟨h3, l, h4, h5, h6, h7⟩ := ih h
      rw [hc] at h6 h7
      refine ⟨by rw [← h1, ← h3], ?_⟩
      rcases h2 with h2 | ⟨e, h2, he, hd, hb⟩
      · rw [h2] at h4 h6
        exact ⟨l, h4, h5.cons p, h6, h7⟩
      · refine ⟨e :: l, by rw [h4, h2]; simp, ?_, fun hq => h6 ?_, ?_⟩
        · rw [List.map_cons, he]
          exact h5.cons_cons p
        · rw [h2]
          simp only [List.length_append, List.length_cons, List.length_nil]
          omega
        · intro r hr
          rcases List.mem_cons.1 hr with rfl | hr
          · exact hb
          · exact h7 r hr
    · cases h
    · cases h

/-- What one port's engine made of the port, found again after all the engines' turns. -/
theorem enginesTurn_port {x : CycleInput} {s0 : State} {ps : List PortId} (hps : ps.Nodup) {s t : State}
    (h : enginesTurn x s0 ps s = .next t) (p : PortId) :
    (p ∉ ps ∧ t.port p = s.port p) ∨
      (p ∈ ps ∧ ∃ u v, engineTurn x s0 p u = .next v ∧ u.port p = s.port p ∧ u.cfg = s.cfg ∧ t.port p = v.port p) := by
  induction ps generalizing s with
  | nil => cases h; exact .inl ⟨by simp, rfl⟩
  | cons r ps ih =>
    rw [List.nodup_cons] at hps
    simp only [enginesTurn] at h
    split at h
    · next s' hs' =>
      obtain ⟨hf, hn, -⟩ := engineTurn_frame hs'
      by_cases hrp : p = r
      · subst hrp
        rcases ih hps.2 h with ⟨-, h'⟩ | ⟨hm, -⟩
        · exact .inr ⟨by simp, s, s', hs', rfl, rfl, h'⟩
        · exact absurd hm hps.1
      · rcases ih hps.2 h with ⟨hm, h'⟩ | ⟨hm, u, v, h1, h2, h3, h4⟩
        · exact .inl ⟨by simp [hrp, hm], h'.trans (hn p hrp)⟩
        · exact .inr ⟨by simp [hm], u, v, h1, h2.trans (hn p hrp), h3.trans (congrArg State.cfg hf :), h4⟩
    · cases h
    · cases h

/-! ### The whole cycle -/

theorem nodup_allPorts : allPorts.Nodup := by decide

theorem mem_allPorts (p : PortId) : p ∈ allPorts := by revert p; decide

/-- A cycle that resets nothing: the engines' turns after the other agents', then the pop that comes last. -/
theorem cycleWith_next {x : CycleInput} {s t : State} (hr : resetsNow x s = false) (h : cycleWith x s = .next t) :
    ∃ u, enginesTurn x s allPorts (beforeEngines x s) = .next u ∧ t = latePop s u := by
  unfold cycleWith at h
  rw [hr] at h
  simp only [Bool.false_eq_true, if_false] at h
  split at h
  · next u hu => cases h; exact ⟨u, hu, rfl⟩
  · cases h
  · cases h

/-- A cycle that resets. -/
theorem cycleWith_reset {x : CycleInput} {s : State} (hr : resetsNow x s = true) :
    cycleWith x s = .next (blockReset s.cycle (s.outputs x)) := by
  unfold cycleWith
  rw [hr]
  rfl

/-- What one cycle that resets nothing makes of one port: the engine's turn on the port as the host's access left it. -/
theorem cycleWith_port {x : CycleInput} {s t : State} (hr : resetsNow x s = false) (h : cycleWith x s = .next t)
    (p : PortId) :
    ∃ u v, engineTurn x s p u = .next v ∧ u.port p = (hostTurn x (s.outputs x)).port p ∧ u.cfg = s.cfg ∧
      t.port p = v.port p := by
  obtain ⟨u, hu, rfl⟩ := cycleWith_next hr h
  rcases enginesTurn_port nodup_allPorts hu p with ⟨hm, -⟩ | ⟨-, u', v, h1, h2, h3, h4⟩
  · exact absurd (mem_allPorts p) hm
  · exact ⟨u', v, h1, h2.trans (beforeEngines_port x s p), h3.trans (beforeEngines_frame x s).1, by simpa using h4⟩

/-- What one cycle that resets nothing can make of one port, from the port `q` that the host's access left: its command ran,
a counter moved, its wait ended, or (never in a coherent state) a wait was dropped. -/
theorem cycleWith_portCases {x : CycleInput} {s t : State} (hr : resetsNow x s = false) (h : cycleWith x s = .next t)
    (p : PortId) :
    let q := (hostTurn x (s.outputs x)).port p
    (runsNow s p = true ∧ (Port.Ended q.waiting q (t.port p) ∨ Port.Submitted s.cfg q (t.port p))) ∨
      (runsNow s p = false ∧ (replyFor s p = false ∨ delaysNow s p = true) ∧ Port.Ticked q (t.port p)) ∨
      (runsNow s p = false ∧ (s.port p).waiting = true ∧
        (Port.Ended false q (t.port p) ∨ Port.Submitted s.cfg q (t.port p))) ∨
      (runsNow s p = false ∧ delaysNow s p = false ∧ (s.port p).waiting = true ∧ q.seq.isWait = false ∧
        t.port p = q.stopWait) := by
  intro q
  obtain ⟨u, v, he, hu, hc, ht⟩ := cycleWith_port hr h p
  obtain ⟨v', hv', hcase⟩ :=
    engineTurn_effect (n := max u.cfg.frameMax s.reply.result.raw.length) x s p u (by omega) (by omega)
  rw [he] at hv'
  cases hv'
  rw [hu, hc] at hcase
  rw [ht]
  rcases hcase with ⟨h0, q', l, h1, h2⟩ | ⟨h0, h0', q', h1, h2⟩ | ⟨h0, h0', h1⟩ | ⟨h0, h0', h0'', hw, h1⟩ | ⟨h0, h0', q', h1, h2⟩
  · rw [(portStep_frame h1).2.1]
    rw [hu, hc] at h2
    rcases h2 with ⟨-, h2⟩ | ⟨-, h2, -⟩
    · exact .inl ⟨h0, .inl h2⟩
    · exact .inl ⟨h0, .inr h2⟩
  · rw [(portStep_frame h1).2.1]
    exact .inr (.inl ⟨h0, .inl h0', h2⟩)
  · obtain ⟨q', l, h1, h2⟩ := commandEffect_stopWait h1
    rw [hu, hc] at h2
    rw [(portStep_frame h1).2.1]
    rcases h2 with ⟨-, h2⟩ | ⟨-, h2, -⟩
    · exact .inr (.inr (.inl ⟨h0, h0', .inl h2⟩))
    · exact .inr (.inr (.inl ⟨h0, h0', .inr h2⟩))
  · refine .inr (.inr (.inr ⟨h0, h0', h0'', hw, ?_⟩))
    rw [h1, port_modPort_self, hu]
  · rw [(portStep_frame h1).2.1]
    exact .inr (.inl ⟨h0, .inr h0', h2⟩)

/-! ### Cycles in which one engine is at work -/

/-- When the reply in hand reaches a port (R119). -/
theorem replyFor_iff {s : State} {p : PortId} : replyFor s p = true ↔ replyReaches s p := by
  simp [replyFor, replyReaches, and_assoc]

/-- When an engine has nothing to do. -/
theorem engineIdle_iff {x : CycleInput} {s : State} {p : PortId} :
    engineIdle x s p = true ↔ (s.port p).seq ≠ .localCmd ∧ ¬replyReaches s p ∧ ¬tickCounts x s p := by
  simp only [engineIdle, Bool.and_eq_true, decide_eq_true_eq, Bool.not_eq_true', decide_eq_false_iff_not, and_assoc]

/-- An engine with nothing to do leaves the state as it is. -/
theorem engineTurn_idle {x : CycleInput} {s0 : State} {p : PortId} (h : engineIdle x s0 p = true) (s : State) :
    engineTurn x s0 p s = .next s := by
  obtain ⟨h1, h2, h3⟩ := engineIdle_iff.1 h
  have h4 : runsNow s0 p = false ∧ delaysNow s0 p = false := by simp [runsNow, delaysNow, h1]
  have h5 : replyFor s0 p = false := by rw [← Bool.not_eq_true, replyFor_iff]; exact h2
  have h6 : ¬(x.tick && (s0.port p).waiting && decide (s0.cfg.clientTimeout ≠ 0)) = true := by
    simpa [tickCounts, and_assoc] using h3
  simp only [engineTurn, engineWait, h4, h5, if_neg h6, Bool.false_eq_true, if_false]

/-- If only one engine has something to do, the engines' turns are that engine's turn. -/
theorem enginesTurn_one {x : CycleInput} {s0 : State} {p : PortId} (hi : ∀ r, r ≠ p → engineIdle x s0 r = true)
    {ps : List PortId} (hn : ps.Nodup) (s : State) :
    enginesTurn x s0 ps s = if p ∈ ps then engineTurn x s0 p s else .next s := by
  induction ps generalizing s with
  | nil => rfl
  | cons r ps ih =>
    rw [List.nodup_cons] at hn
    simp only [enginesTurn]
    by_cases hr : r = p
    · subst hr
      simp only [List.mem_cons, true_or, if_true]
      cases he : engineTurn x s0 r s with
      | next s' => exact (ih hn.2 s').trans (if_neg hn.1)
      | fault f => rfl
      | refused f => rfl
    · rw [engineTurn_idle (hi r hr)]
      refine (ih hn.2 s).trans ?_
      simp [Ne.symm hr]

/-- A cycle that resets nothing and in which one engine at most has something to do. -/
theorem cycleWith_one {x : CycleInput} {s : State} {p : PortId} (hr : resetsNow x s = false)
    (hi : ∀ r, r ≠ p → engineIdle x s r = true) :
    cycleWith x s =
      match engineTurn x s p (beforeEngines x s) with
      | .next u => .next (latePop s u)
      | .fault f => .fault f
      | .refused r => .refused r := by
  unfold cycleWith
  rw [hr, enginesTurn_one hi nodup_allPorts, if_pos (mem_allPorts p)]
  rfl

/-! ### Reset -/

@[simp] theorem port_resetWith (c : Params) (p : PortId) : (State.resetWith c).port p = Port.reset :=
  port_portsOf (fun _ => Port.reset) p

@[simp] theorem port_blockReset (n : Nat) (s : State) (p : PortId) : (blockReset n s).port p = freshPort s.cfg n p :=
  port_portsOf (freshPort s.cfg n) p

/-- The bytes that a reset leaves in a buffer are free, and canonical. -/
theorem bufferOk_freeBuffer (c : Params) (b : BufferId) (n : Nat) : bufferOk c.frameMax (freeBuffer c b n) :=
  bufferOk_bufPutBytes (bufferOk_nil _) 0 _

end Sys2Proof.Machine
end

