-- ==== Sys2Proof/Laws/Encoding.lean ====
section
/-!
SUPPORT. The fields of a command word as numbers, and the fields of a packed one.
-/
namespace Sys2Proof

/-- Concatenation as a number. -/
theorem toNat_append_eq {n m : Nat} (x : BitVec n) (y : BitVec m) : (x ++ y).toNat = x.toNat * 2 ^ m + y.toNat := by
  rw [BitVec.toNat_append, Nat.shiftLeft_eq, Nat.mul_comm, ← Nat.two_pow_add_eq_or_of_lt y.isLt]

theorem toNat_packCommand (op a b : Byte) :
    (packCommand op a b).toNat = op.toNat * 16777216 + a.toNat * 65536 + b.toNat * 256 := by
  unfold packCommand
  simp only [toNat_append_eq, BitVec.toNat_ofNat]
  omega

theorem toNat_cmdOp (w : Word) : (cmdOp w).toNat = w.toNat / 16777216 := by
  have := w.isLt
  simp only [cmdOp, BitVec.extractLsb'_toNat, Nat.shiftRight_eq_div_pow]
  omega

theorem toNat_cmdA (w : Word) : (cmdA w).toNat = w.toNat / 65536 % 256 := by
  simp [cmdA, BitVec.extractLsb'_toNat, Nat.shiftRight_eq_div_pow]

theorem toNat_cmdB (w : Word) : (cmdB w).toNat = w.toNat / 256 % 256 := by
  simp [cmdB, BitVec.extractLsb'_toNat, Nat.shiftRight_eq_div_pow]

theorem toNat_cmdRsv (w : Word) : (cmdRsv w).toNat = w.toNat % 256 := by
  simp [cmdRsv, BitVec.extractLsb'_toNat]

@[simp] theorem cmdOp_packCommand (op a b : Byte) : cmdOp (packCommand op a b) = op := by
  apply BitVec.eq_of_toNat_eq
  rw [toNat_cmdOp, toNat_packCommand]
  omega

@[simp] theorem cmdA_packCommand (op a b : Byte) : cmdA (packCommand op a b) = a := by
  apply BitVec.eq_of_toNat_eq
  rw [toNat_cmdA, toNat_packCommand]
  omega

@[simp] theorem cmdB_packCommand (op a b : Byte) : cmdB (packCommand op a b) = b := by
  apply BitVec.eq_of_toNat_eq
  rw [toNat_cmdB, toNat_packCommand]
  omega

@[simp] theorem cmdRsv_packCommand (op a b : Byte) : cmdRsv (packCommand op a b) = 0 := by
  apply BitVec.eq_of_toNat_eq
  rw [toNat_cmdRsv, toNat_packCommand]
  simp only [BitVec.ofNat_eq_ofNat, BitVec.toNat_ofNat]
  omega

/-- A word whose reserved byte is 0 is its fields packed. -/
theorem packCommand_fields {w : Word} (h : cmdRsv w = 0) : packCommand (cmdOp w) (cmdA w) (cmdB w) = w := by
  apply BitVec.eq_of_toNat_eq
  have h' := toNat_cmdRsv w
  rw [h] at h'
  simp only [BitVec.ofNat_eq_ofNat, BitVec.toNat_ofNat] at h'
  rw [toNat_packCommand, toNat_cmdOp, toNat_cmdA, toNat_cmdB]
  omega

/-- A word is its four bytes. -/
theorem word_fields (w : Word) : cmdOp w ++ cmdA w ++ cmdB w ++ cmdRsv w = w := by
  apply BitVec.eq_of_toNat_eq
  simp only [toNat_append_eq, toNat_cmdOp, toNat_cmdA, toNat_cmdB, toNat_cmdRsv]
  omega

end Sys2Proof
end

