-- ==== Sys2Proof/Machine/HostDriver.lean ====
section
/-!
DEFINITION. The host running its access sequences against the block (30_encoding.md rule R71, 20_memory.md rules R51 and R52):
one access a cycle, and `wait` repeating its read until it is answered with `DONE = 1`.
-/
namespace Sys2Proof.Machine

open Sys2Proof

/-- One cycle as it comes to a host with a sequence to do: the block's other inputs, and whether the host makes its next access
in it. Rule R71 gives the accesses their order and no cycle, so the host may leave any cycle out (log entry 29). -/
structure HostCycle where
  /-- The host makes its next access. -/
  acts : Bool
  /-- The inputs of the cycle; its own access stands aside for the host's. -/
  input : CycleInput
deriving DecidableEq, Repr

/-- The inputs of the block in a cycle in which the host has `todo` left to do. -/
def hostInput (c : HostCycle) (todo : List HostAction) : CycleInput :=
  { c.input with host := if c.acts then nextAccess todo else .idle }

/-- The block and a host with a sequence to do, through the given cycles: the state of the block, and what the host has left to
do, which is nothing exactly when the sequence is over. A `wait` can take any number of cycles (R52). -/
def driveHost : List HostCycle → List HostAction → State → Host.Outcome (State × List HostAction) Fault Refusal
  | [], todo, s => .next (s, todo)
  | c :: cs, todo, s =>
    match cycleWith (hostInput c todo) s with
    | .next t => driveHost cs (if c.acts then afterAnswer t.bus todo else todo) t
    | .fault f => .fault f
    | .refused r => .refused r

end Sys2Proof.Machine
end

