-- ==== Sys2Proof/Laws/HostDriver.lean ====
section
/-!
SUPPORT. What a host does with its sequence in one cycle: when a poll is over, and how the cycles of a drive come together.
-/
namespace Sys2Proof.Machine

open Sys2Proof

/-- The bus answers the access of its own cycle, from the state at the start of it. -/
theorem cycleWith_bus {x : CycleInput} {s t : State} (h : cycleWith x s = .next t) : t.bus = busResponse s x.host := by
  cases hr : resetsNow x s
  · obtain ⟨u, hu, rfl⟩ := cycleWith_next hr h
    have hE := (enginesTurn_frame hu).1
    have hL := latePop_frame s u
    exact ((congrArg State.bus hL :).trans (congrArg State.bus hE :)).trans (beforeEngines_frame x s).2.2.2.2.1
  · cases (cycleWith_reset hr).symm.trans h
    rfl

/-- Bit 1 of `STATUS` is `DONE` (R27). -/
theorem statusWord_done (q : Port) : pollEnds (statusWord q) = q.done := by
  unfold pollEnds statusWord bit
  rw [BitVec.getLsbD_append, BitVec.getLsbD_append]
  simp

/-- A poll of a port that is there is over exactly if the port's `DONE` is set at the start of the cycle (R52, R71). -/
theorem pollAnswered_poll {s : State} {p : PortId} (hp : p.val < s.cfg.numPorts) :
    pollAnswered (busResponse s (pseudoPoll p)) = (s.port p).done := by
  have h := hostRead_portAddr (r := .status) (off := 0x008) hp (by decide) (by decide) rfl
  simp only [pseudoPoll, busResponse, pollAnswered, h, readPortReg, statusWord_done]

/-- What a cycle makes of a host that polls: with `DONE` set at the start of the cycle the poll is over, else it goes on. -/
theorem driveHost_poll {x : CycleInput} {s t : State} {p : PortId} {rest : List HostAction} {cs : List HostCycle}
    (hp : p.val < s.cfg.numPorts) (h : cycleWith { x with host := pseudoPoll p } s = .next t) :
    driveHost (⟨true, x⟩ :: cs) (.poll p :: rest) s =
      driveHost cs (if (s.port p).done then rest else .poll p :: rest) t := by
  have hb := cycleWith_bus h
  simp only [driveHost, hostInput, nextAccess, if_true, h, afterAnswer, hb, pollAnswered_poll hp]

/-- A drive through cycles and then others is the second drive from where the first one ended. -/
theorem driveHost_append {cs ds : List HostCycle} {todo todo' : List HostAction} {s t : State}
    (h : driveHost cs todo s = .next (t, todo')) : driveHost (cs ++ ds) todo s = driveHost ds todo' t := by
  induction cs generalizing todo s with
  | nil => cases h; rfl
  | cons c cs ih =>
    simp only [List.cons_append, driveHost] at h ⊢
    split at h
    · exact ih h
    · cases h
    · cases h

end Sys2Proof.Machine
end

