-- ==== Sys2Proof/Laws/Liveness.lean ====
section
/-!
SUPPORT. The liveness of rule R129 of 42_arbitration.md: in a run without a reset whose environment is fair, and all of whose
states are well kept, every exchange ends, every queued request comes into service and every port wait ends.
-/
namespace Sys2Proof.Machine
open Sys2Proof

/-! ### Counting and descent -/

theorem tally_append (f : Nat → Bool) (n a b : Nat) : tally f n (a + b) = tally f n a + tally f (n + a) b := by
  induction a generalizing n with
  | zero => simp [tally]
  | succ a ih =>
    rw [show a + 1 + b = (a + b) + 1 from by omega]
    simp only [tally]
    rw [ih (n + 1), show n + (a + 1) = n + 1 + a from by omega]
    omega

theorem tally_none {f : Nat → Bool} {n k : Nat} (h : ∀ i, i < k → f (n + i) = false) : tally f n k = 0 := by
  induction k generalizing n with
  | zero => rfl
  | succ k ih =>
    have h0 := h 0 (by omega)
    rw [Nat.add_zero] at h0
    simp only [tally, h0, Bool.toNat_false, Nat.zero_add]
    exact ih fun i hi => by rw [show n + 1 + i = n + (i + 1) from by omega]; exact h (i + 1) (by omega)

/-- What is counted is no more than a quantity that each count uses up. -/
theorem tally_le {f : Nat → Bool} {μ : Nat → Nat} {n k : Nat}
    (h : ∀ i, i < k → μ (n + i + 1) + (f (n + i)).toNat ≤ μ (n + i)) (hk : (f (n + k)).toNat ≤ μ (n + k)) :
    tally f n (k + 1) ≤ μ n := by
  induction k generalizing n with
  | zero => simpa [tally] using hk
  | succ k ih =>
    have h0 := h 0 (by omega)
    have := ih (n := n + 1)
      (fun i hi => by have := h (i + 1) (by omega); rwa [show n + 1 + i = n + (i + 1) from by omega])
      (by rwa [show n + 1 + k = n + (k + 1) from by omega])
    simp only [Nat.add_zero] at h0
    simp only [tally] at this ⊢
    omega

/-- A phase in which some quantity never grows, and sinks whenever an event that never ceases to come comes, ends. -/
theorem phase_ends {P Q ev : Nat → Prop} {μ : Nat → Nat} (hev : ∀ n, ∃ m, n ≤ m ∧ ev m)
    (hs : ∀ i, P i → Q (i + 1) ∨ (P (i + 1) ∧ μ (i + 1) ≤ μ i ∧ (ev i → μ (i + 1) < μ i))) {n : Nat} (hn : P n) :
    ∃ k, Q (n + k + 1) ∧ ∀ i, i ≤ k → P (n + i) := by
  have now : ∀ n, P n → Q (n + 1) → ∃ k, Q (n + k + 1) ∧ ∀ i, i ≤ k → P (n + i) :=
    fun n hn hq => ⟨0, hq, fun i hi => by rw [Nat.le_zero.1 hi]; exact hn⟩
  have back : ∀ n, P n → (∃ k, Q (n + 1 + k + 1) ∧ ∀ i, i ≤ k → P (n + 1 + i)) →
      ∃ k, Q (n + k + 1) ∧ ∀ i, i ≤ k → P (n + i) := by
    rintro n hn ⟨k, hk, hp⟩
    refine ⟨k + 1, by rwa [show n + (k + 1) + 1 = n + 1 + k + 1 from by omega], fun i hi => ?_⟩
    cases i with
    | zero => exact hn
    | succ i => rw [show n + (i + 1) = n + 1 + i from by omega]; exact hp i (by omega)
  have main : ∀ v d n, μ n ≤ v → ev (n + d) → P n → ∃ k, Q (n + k + 1) ∧ ∀ i, i ≤ k → P (n + i) := by
    intro v
    induction v with
    | zero =>
      intro d
      induction d with
      | zero =>
        intro n hv he hn
        rcases hs n hn with h | ⟨-, -, h⟩
        · exact now n hn h
        · exact absurd (h he) (by omega)
      | succ d ih =>
        intro n hv he hn
        rcases hs n hn with h | ⟨h1, h2, -⟩
        · exact now n hn h
        · exact back n hn (ih (n + 1) (by omega) (by rwa [show n + 1 + d = n + (d + 1) from by omega]) h1)
    | succ v ihv =>
      intro d
      induction d with
      | zero =>
        intro n hv he hn
        rcases hs n hn with h | ⟨h1, -, h⟩
        · exact now n hn h
        · obtain ⟨m, hm, hem⟩ := hev (n + 1)
          obtain ⟨e, rfl⟩ := Nat.exists_eq_add_of_le hm
          exact back n hn (ihv e (n + 1) (by have := h he; omega) hem h1)
      | succ d ih =>
        intro n hv he hn
        rcases hs n hn with h | ⟨h1, h2, -⟩
        · exact now n hn h
        · exact back n hn (ih (n + 1) (by omega) (by rwa [show n + 1 + d = n + (d + 1) from by omega]) h1)
  obtain ⟨m, hm, he⟩ := hev n
  obtain ⟨d, rfl⟩ := Nat.exists_eq_add_of_le hm
  exact main _ d n (Nat.le_refl _) he hn

/-! ### The controller's cycle -/

/-- What a cycle makes of the controller and the framer while a request is sent or an answer received. -/
theorem cycleWith_line {x : CycleInput} {s t : State} (hr : resetsNow x s = false) (h : cycleWith x s = .next t)
    (ha : s.arb = .tx ∨ s.arb = .rx) :
    ∃ l, t.rq = s.rq ++ l ∧ t.cur = s.cur ∧ t.cfg = s.cfg ∧
      { t with ports := (beforeEngines x s).ports, rq := (beforeEngines x s).rq, active := (beforeEngines x s).active } =
        beforeEngines x s := by
  obtain ⟨u, hu, rfl⟩ := cycleWith_next hr h
  obtain ⟨hE, l, hl, -⟩ := enginesTurn_frame hu
  have hL : latePop s u = u := by simp only [latePop, (popsNow_busy ha).2, Bool.false_eq_true, if_false]
  rw [hL]
  have hR := receiveTurn_frame x s (hostTurn x (s.outputs x))
  have hH := hostTurn_frame x (s.outputs x)
  have e1 : (receiveTurn x s (hostTurn x (s.outputs x))).rq = s.rq := (congrArg State.rq hR :).trans (congrArg State.rq hH :)
  have e2 : (receiveTurn x s (hostTurn x (s.outputs x))).cur = s.cur :=
    (congrArg State.cur hR :).trans (congrArg State.cur hH :)
  have key : (beforeEngines x s).rq = s.rq ∧ (beforeEngines x s).cur = s.cur := by
    unfold beforeEngines arbiterTurn
    rcases ha with ha | ha <;> simp only [ha]
    · split <;> exact ⟨e1, e2⟩
    · split <;> exact ⟨e1, e2⟩
  refine ⟨l, by rw [hl, key.1], (congrArg State.cur hE :).trans key.2,
    (congrArg State.cfg hE :).trans (beforeEngines_frame x s).1, hE⟩

/-- What a cycle makes of the queue: requests come at its end, and the head may go into service, which it can only from
ARB_IDLE or ARB_REPLY. -/
theorem cycleWith_queue {x : CycleInput} {s t : State} (hr : resetsNow x s = false) (h : cycleWith x s = .next t)
    (ha : s.arb = .idle ∨ s.arb = .reply) :
    ∃ l, (t.rq = s.rq ++ l ∧ t.cur = s.cur ∧ t.arb = .idle ∧ (s.arb = .idle → s.rq = [])) ∨
      ∃ r rest, s.rq = r :: rest ∧ t.rq = rest ++ l ∧ t.cur = r ∧ t.arb = .tx ∧ t.txIdx = 0 := by
  obtain ⟨u, hu, rfl⟩ := cycleWith_next hr h
  obtain ⟨hE, l, hl, -⟩ := enginesTurn_frame hu
  refine ⟨l, ?_⟩
  have hR := receiveTurn_frame x s (hostTurn x (s.outputs x))
  have hH := hostTurn_frame x (s.outputs x)
  have e1 : (receiveTurn x s (hostTurn x (s.outputs x))).rq = s.rq := (congrArg State.rq hR :).trans (congrArg State.rq hH :)
  have e2 : (receiveTurn x s (hostTurn x (s.outputs x))).cur = s.cur :=
    (congrArg State.cur hR :).trans (congrArg State.cur hH :)
  have e3 : (receiveTurn x s (hostTurn x (s.outputs x))).arb = s.arb :=
    (congrArg State.arb hR :).trans (congrArg State.arb hH :)
  have key : ∃ c : State, beforeEngines x s = earlyPop s c ∧ c.rq = s.rq ∧ c.cur = s.cur ∧ c.arb = .idle := by
    unfold beforeEngines arbiterTurn
    rcases ha with ha | ha <;> simp only [ha]
    · exact ⟨_, rfl, e1, e2, e3.trans ha⟩
    · exact ⟨_, rfl, e1, e2, rfl⟩
  obtain ⟨c, hc, c1, c2, c3⟩ := key
  have f1 : u.cur = (earlyPop s c).cur := (congrArg State.cur hE :).trans (by rw [hc])
  have f2 : u.arb = (earlyPop s c).arb := (congrArg State.arb hE :).trans (by rw [hc])
  have f3 : u.txIdx = (earlyPop s c).txIdx := (congrArg State.txIdx hE :).trans (by rw [hc])
  rw [hc] at hl
  cases hp : popsNow s with
  | false =>
    have hpl : popsLast s = false := by simp only [popsLast, hp, Bool.false_and]
    simp only [latePop, hpl, Bool.false_eq_true, if_false]
    simp only [earlyPop, hp, Bool.false_and, Bool.false_eq_true, if_false] at hl f1 f2
    refine .inl ⟨by rw [hl, c1], f1.trans c2, f2.trans c3, fun hi => ?_⟩
    by_contra hq
    rw [(popsNow_idle hi).2 hq] at hp
    cases hp
  | true =>
    obtain ⟨r, rest, hq⟩ := rq_of_popsNow hp
    refine .inr ⟨r, rest, hq, ?_⟩
    cases hpl : popsLast s with
    | false =>
      simp only [latePop, hpl, Bool.false_eq_true, if_false]
      simp only [earlyPop, hp, hpl, Bool.not_false, Bool.and_self, if_true, popRequest_cons (c1.trans hq)] at hl f1 f2 f3
      exact ⟨hl, f1, f2, f3⟩
    | true =>
      simp only [earlyPop, hp, hpl, Bool.not_true, Bool.and_false, Bool.false_eq_true, if_false] at hl
      have hu' : u.rq = r :: (rest ++ l) := by rw [hl, c1, hq]; rfl
      simp only [latePop, hpl, if_true, popRequest_cons hu']
      exact ⟨trivial, trivial, trivial, trivial⟩

/-- How many bytes of the request are still to be handed over. -/
def bytesToSend (s : State) : Nat := s.cur.bytes.length - s.txIdx.toNat

/-- How many ticks the framer can still see before it comes to rest: the rest of this byte's budget, and a whole one for each
byte that can follow. -/
def ticksToRest (s : State) : Nat := (s.cfg.frameMax - s.rxCnt.toNat - 1) * s.cfg.byteTimeout + max 1 s.rxTimer

/-- One cycle of transmitting: the last byte is gone and the framer is armed, or the index moved by the handshake. -/
theorem transmit_cycle {x : CycleInput} {s t : State} (hr : resetsNow x s = false) (h : cycleWith x s = .next t)
    (hv : s.cfg.Valid) (hq : s.QueuesOk) (ha : s.arb = .tx) :
    (handshake x s).toNat ≤ bytesToSend s ∧
      ((t.arb = .rx ∧ t.rxState = .awaitMarker ∧ t.rxCnt = 0 ∧ t.rxTimer = s.cfg.byteTimeout) ∨
        (t.arb = .tx ∧ bytesToSend t + (handshake x s).toNat ≤ bytesToSend s ∧
          (x.txReady = true → bytesToSend t < bytesToSend s))) := by
  obtain ⟨-, -, -, hlen, -, hidx⟩ := hq
  have hF : s.cfg.frameMax ≤ 259 := by have := hv.2.2.1; unfold Params.frameMax; omega
  obtain ⟨l, -, hcur, -, hE⟩ := cycleWith_line hr h (.inl ha)
  have hR := receiveTurn_frame x s (hostTurn x (s.outputs x))
  have hH := hostTurn_frame x (s.outputs x)
  have e1 : (receiveTurn x s (hostTurn x (s.outputs x))).cfg = s.cfg :=
    (congrArg State.cfg hR :).trans (congrArg State.cfg hH :)
  have e2 : (receiveTurn x s (hostTurn x (s.outputs x))).arb = s.arb :=
    (congrArg State.arb hR :).trans (congrArg State.arb hH :)
  have hs : handshake x s = (x.txReady && decide (s.txIdx.toNat < s.cur.bytes.length)) := by
    unfold handshake State.txByte
    by_cases hlt : s.txIdx.toNat < s.cur.bytes.length
    · simp [ha, hlt]
    · simp [ha, hlt]
  have hle : s.txIdx.toNat ≤ s.cur.bytes.length := by
    rcases hidx ha with h | ⟨h, -⟩
    · omega
    · simp [h]
  have hn : (txNext x s).toNat = s.txIdx.toNat + (handshake x s).toNat := by
    unfold txNext
    rw [Bool.and_comm, show (x.txReady && s.txByte.isSome) = handshake x s from rfl]
    cases hh : handshake x s with
    | false => simp
    | true =>
      have : s.txIdx.toNat < s.cur.bytes.length := by rw [hs] at hh; simpa using (Bool.and_eq_true_iff.1 hh).2
      simp only [if_true, Bool.toNat_true]
      rw [BitVec.toNat_add]
      simp
      omega
  have hb : (handshake x s).toNat ≤ bytesToSend s := by
    unfold bytesToSend
    cases hh : handshake x s with
    | false => simp
    | true =>
      have : s.txIdx.toNat < s.cur.bytes.length := by rw [hs] at hh; simpa using (Bool.and_eq_true_iff.1 hh).2
      simp only [Bool.toNat_true]; omega
  refine ⟨hb, ?_⟩
  unfold beforeEngines at hE
  generalize receiveTurn x s (hostTurn x (s.outputs x)) = b at *
  unfold arbiterTurn at hE
  simp only [ha] at hE
  by_cases harm : armsNow x s = true
  · rw [if_pos harm] at hE
    exact .inl ⟨(congrArg State.arb hE :), (congrArg State.rxState hE :), (congrArg State.rxCnt hE :),
      (congrArg State.rxTimer hE :).trans (congrArg Params.byteTimeout e1)⟩
  · rw [if_neg harm] at hE
    have hne : (txNext x s).toNat ≠ s.cur.bytes.length := by simpa [armsNow, ha] using harm
    have ht : t.txIdx = txNext x s := (congrArg State.txIdx hE :)
    refine .inr ⟨(congrArg State.arb hE :).trans (e2.trans ha), ?_, fun hready => ?_⟩
    · unfold bytesToSend; rw [hcur, ht, hn]; unfold bytesToSend at hb; omega
    · have hlt : s.txIdx.toNat < s.cur.bytes.length := by
        rcases hidx ha with h | ⟨h, h'⟩
        · exact h
        · exfalso; apply hne; rw [hn, hs, h, h']; simp
      have : handshake x s = true := by rw [hs]; simp [hready, hlt]
      rw [this] at hn
      unfold bytesToSend; rw [hcur, ht, hn]; simp only [Bool.toNat_true]; omega

/-- A byte that leaves the framer waiting has been counted, and the budget is a whole one again (R75 to R79). -/
theorem takeByte_counts {s : State} {b : Byte} (hok : s.FramerOk) (hw : s.rxState.isWaiting = true)
    (hw' : (takeByte b s).rxState.isWaiting = true) :
    (takeByte b s).rxCnt = s.rxCnt + 1 ∧ (takeByte b s).rxTimer = s.cfg.byteTimeout := by
  unfold State.FramerOk at hok
  unfold takeByte at hw' ⊢
  cases hs : s.rxState <;> simp only [hs] at hok hw hw' ⊢
  · cases hw
  · unfold takeMarker at hw' ⊢
    split at hw'
    · next hb => rw [if_pos hb, hok]; exact ⟨rfl, rfl⟩
    · cases hw'
  · rw [hok.1]; exact ⟨rfl, rfl⟩
  · rw [hok.1]; exact ⟨rfl, rfl⟩
  · exact ⟨rfl, rfl⟩
  · cases hw
  · cases hw
  · cases hw

/-- One cycle of receiving, with the framer waiting: it takes the oldest byte, or counts a tick, or nothing happens. -/
theorem receive_cycle {x : CycleInput} {s t : State} (hr : resetsNow x s = false) (h : cycleWith x s = .next t)
    (hv : s.cfg.Valid) (hl : s.LineOk) (hl' : t.LineOk) (ha : s.arb = .rx) (hw : s.rxState.isWaiting = true) :
    t.arb = .rx ∧ (takesByte x s).toNat ≤ s.cfg.frameMax - s.rxCnt.toNat ∧ (ticksFramer x s).toNat ≤ ticksToRest s ∧
      (t.rxState.isWaiting = false ∨
        (s.cfg.frameMax - t.rxCnt.toNat + (takesByte x s).toNat ≤ s.cfg.frameMax - s.rxCnt.toNat ∧
          ticksToRest t + (ticksFramer x s).toNat ≤ ticksToRest s)) := by
  have hF : s.cfg.frameMax = 255 + s.cfg.termBias := rfl
  have hb3 := hv.2.2.1
  have hB := hv.2.1
  have bound : ∀ u : State, u.cfg = s.cfg → u.LineOk → u.rxState.isWaiting = true → u.rxCnt.toNat < s.cfg.frameMax := by
    intro u hu hok hwu
    have := hok.2
    have hb := u.rxLen.isLt
    unfold State.FramerOk frameLength at this
    rw [hu] at this
    revert this hwu
    unfold RxState.isWaiting
    cases u.rxState <;> simp <;> intros <;> simp_all <;> omega
  obtain ⟨l, -, -, hcfg, hE⟩ := cycleWith_line hr h (.inr ha)
  have hx : exchangeResult s = none := by
    unfold exchangeResult
    revert hw
    unfold RxState.isWaiting
    cases s.rxState <;> simp
  have hA : beforeEngines x s = receiveTurn x s (hostTurn x (s.outputs x)) := by
    simp only [beforeEngines, arbiterTurn, ha, hx]
  have hna : armsNow x s = false := by simp [armsNow, ha]
  rw [hA] at hE
  have hR := receiveTurn_frame x s (hostTurn x (s.outputs x))
  have hH := hostTurn_frame x (s.outputs x)
  have harb : t.arb = .rx :=
    (congrArg State.arb hE :).trans ((congrArg State.arb hR :).trans ((congrArg State.arb hH :).trans ha))
  have g1 : (hostTurn x (s.outputs x)).cfg = s.cfg := (congrArg State.cfg hH :)
  have g2 : (hostTurn x (s.outputs x)).rxTimer = s.rxTimer := (congrArg State.rxTimer hH :)
  have g3 : (hostTurn x (s.outputs x)).rxState = s.rxState := (congrArg State.rxState hH :)
  have g4 : (hostTurn x (s.outputs x)).rxLen = s.rxLen := (congrArg State.rxLen hH :)
  have g6 : (hostTurn x (s.outputs x)).rxBuf = s.rxBuf := (congrArg State.rxBuf hH :)
  have g5 : (hostTurn x (s.outputs x)).rxCnt = s.rxCnt := (congrArg State.rxCnt hH :)
  have hcs := bound s rfl hl hw
  have htk : (ticksFramer x s).toNat ≤ 1 := Bool.toNat_le _
  have hty : (takesByte x s).toNat ≤ 1 := Bool.toNat_le _
  refine ⟨harb, by omega, by unfold ticksToRest; omega, ?_⟩
  cases hwt : t.rxState.isWaiting with
  | false => exact .inl rfl
  | true =>
    right
    have hct := bound t hcfg hl' hwt
    have f1 : t.rxState = (receiveTurn x s (hostTurn x (s.outputs x))).rxState := (congrArg State.rxState hE :)
    have f2 : t.rxCnt = (receiveTurn x s (hostTurn x (s.outputs x))).rxCnt := (congrArg State.rxCnt hE :)
    have f3 : t.rxTimer = (receiveTurn x s (hostTurn x (s.outputs x))).rxTimer := (congrArg State.rxTimer hE :)
    have hc9 : (s.rxCnt + 1).toNat = s.rxCnt.toNat + 1 := by rw [BitVec.toNat_add]; simp; omega
    unfold ticksToRest
    rw [hcfg]
    generalize hostTurn x (s.outputs x) = b at *
    clear hE hR hH hA h
    cases hby : s.rxq ++ x.rx.toList with
    | cons c rest =>
      have hT : takesByte x s = true := by simp [takesByte, hw, hby]
      have hcnt : t.rxCnt.toNat = s.rxCnt.toNat + 1 ∧ t.rxTimer = s.cfg.byteTimeout := by
        have e : receiveTurn x s b = { takeByte c b with rxq := rest } := by simp [receiveTurn, hna, hw, hby]
        rw [f1, e] at hwt
        rw [f2, f3, e]
        have hbok : b.FramerOk := by
          have := hl.2
          unfold State.FramerOk frameLength at this ⊢
          rw [g3, g5, g1, g4, g6]
          exact this
        have := takeByte_counts hbok (g3 ▸ hw) hwt
        rw [g1, g5] at this
        exact ⟨by rw [show _ = s.rxCnt + 1 from this.1, hc9], this.2⟩
      rw [hcnt.1, hcnt.2, hT]
      refine ⟨by simp only [Bool.toNat_true]; omega, ?_⟩
      obtain ⟨d, hd⟩ : ∃ d, s.cfg.frameMax - s.rxCnt.toNat - 1 = d + 1 := ⟨s.cfg.frameMax - s.rxCnt.toNat - 2, by omega⟩
      rw [show s.cfg.frameMax - (s.rxCnt.toNat + 1) - 1 = d from by omega, hd, Nat.succ_mul]
      omega
    | nil =>
      have hT : takesByte x s = false := by simp [takesByte, hby]
      have e : receiveTurn x s b = if x.tick then byteTick b else b := by simp [receiveTurn, hna, hw, hby]
      rw [f1, e] at hwt
      rw [f2, f3, e, hT]
      cases hxt : x.tick with
      | false => simp [g5, g2, ticksFramer, hxt]
      | true =>
        rw [hxt] at hwt
        have : ticksFramer x s = true := by simp [ticksFramer, hw, hxt]
        rw [this]
        unfold byteTick at hwt ⊢
        rw [g2] at hwt ⊢
        by_cases h1 : s.rxTimer ≤ 1
        · simp [h1, RxState.isWaiting] at hwt
        · simp [h1, g5]
          omega

/-- A framer at rest: in the next cycle the controller has the reply in hand. -/
theorem collect_cycle {x : CycleInput} {s t : State} (hr : resetsNow x s = false) (h : cycleWith x s = .next t)
    (hl : s.LineOk) (ha : s.arb = .rx) (hw : s.rxState.isWaiting = false) : t.arb = .reply := by
  obtain ⟨l, -, -, -, hE⟩ := cycleWith_line hr h (.inr ha)
  have hx : ∃ r, exchangeResult s = some r := by
    have := hl.1.1 ha
    revert hw this
    unfold exchangeResult RxState.isWaiting
    cases s.rxState <;> simp
  obtain ⟨r, hx⟩ := hx
  have := (congrArg State.arb hE :)
  simpa only [beforeEngines, arbiterTurn, ha, hx] using this

/-- A port that the reply in hand reaches waits no more, or under another tag, after the cycle. -/
theorem handed_cycle {x : CycleInput} {s t : State} {p : PortId} (hr : resetsNow x s = false)
    (h : cycleWith x s = .next t) (hv : s.cfg.Valid) (hp : s.PortsOk) (ht : (s.port p).tag < 2 ^ s.cfg.tagBits)
    (hf : replyReaches s p) : ¬((t.port p).waiting = true ∧ (t.port p).tag = (s.port p).tag) := by
  have hseq : (s.port p).seq ≠ .localCmd := by
    intro hs
    have := (hp p).1.2.1
    rw [hf.2.2.1, hs] at this
    cases this
  have hrf := replyFor_iff.2 hf
  have htag : ((hostTurn x (s.outputs x)).port p).tag = (s.port p).tag := by
    rcases hostTurn_port x (s.outputs x) p with h' | ⟨r, d, h'⟩ <;> rw [h']
    · rfl
    · cases r <;> simp only [writePortReg] <;> first | rfl | (split <;> rfl)
  have h2 : 2 ≤ 2 ^ s.cfg.tagBits := by have := hv.2.2.2.2.2.2.2.1; omega
  have sub : ∀ q : Port, q.tag = (s.port p).tag → Port.Submitted s.cfg q (t.port p) →
      ¬((t.port p).waiting = true ∧ (t.port p).tag = (s.port p).tag) := by
    rintro q hq ⟨-, hsub⟩ ⟨-, hsame⟩
    have h3 : (t.port p).tag = (q.tag + 1) % 2 ^ s.cfg.tagBits := (congrArg Port.tag hsub :)
    rw [hsame, hq] at h3
    by_cases hlast : (s.port p).tag + 1 < 2 ^ s.cfg.tagBits
    · rw [Nat.mod_eq_of_lt hlast] at h3; omega
    · rw [show (s.port p).tag + 1 = 2 ^ s.cfg.tagBits from by omega, Nat.mod_self] at h3; omega
  rcases cycleWith_portCases hr h p with ⟨hrun, -⟩ | ⟨-, hn, -⟩ | ⟨-, -, he | he⟩ | ⟨-, -, -, -, he⟩
  · exact absurd (by simpa [runsNow] using (Bool.and_eq_true_iff.1 hrun).1) hseq
  · rcases hn with hn | hn
    · rw [hn] at hrf; cases hrf
    · exact absurd (by simpa [delaysNow] using (Bool.and_eq_true_iff.1 hn).1) hseq
  · rintro ⟨hwt, -⟩; rw [he.2.1] at hwt; cases hwt
  · exact sub _ htag he
  · rintro ⟨hwt, -⟩; rw [he] at hwt; cases hwt

/-! ### Runs -/

/-- From every state and for every sequence of inputs there is a run, but that it may reset. -/
theorem cycles_exist (x : Nat → CycleInput) (s0 : State) :
    ∃ s : Nat → State, s 0 = s0 ∧ ∀ n, cycleWith (x n) (s n) = .next (s (n + 1)) := by
  have total : ∀ (y : CycleInput) (s : State), ∃ t, cycleWith y s = .next t := by
    intro y s
    cases hr : resetsNow y s
    · obtain ⟨u, hu, -⟩ := enginesTurn_keeps (x := y) (s0 := s) (P := fun _ => True)
        (fun p v _ => by
          obtain ⟨t, ht, -⟩ := engineTurn_effect (n := max v.cfg.frameMax s.reply.result.raw.length) y s p v
            (by omega) (by omega)
          exact ⟨t, ht, trivial⟩) allPorts (s := beforeEngines y s) trivial
      exact ⟨latePop s u, by simp only [cycleWith, hr, Bool.false_eq_true, if_false, hu]⟩
    · exact ⟨_, cycleWith_reset hr⟩
  choose f hf using total
  exact ⟨fun n => Nat.rec s0 (fun n s => f (x n) s) n, rfl, fun n => hf _ _⟩

section Runs

variable {x : Nat → CycleInput} {s : Nat → State}

/-- A cycle without a reset keeps the build parameters. -/
theorem cycleWith_cfg {y : CycleInput} {u v : State} (hr : resetsNow y u = false) (h : cycleWith y u = .next v) :
    v.cfg = u.cfg := by
  obtain ⟨w, hw, rfl⟩ := cycleWith_next hr h
  have hE := (enginesTurn_frame hw).1
  have hL := latePop_frame u w
  exact ((congrArg State.cfg hL :).trans (congrArg State.cfg hE :)).trans (beforeEngines_frame y u).1

theorem run_cfg (hrun : IsRun x s) (n k : Nat) : (s (n + k)).cfg = (s n).cfg := by
  induction k with
  | zero => rfl
  | succ k ih => exact (cycleWith_cfg (hrun (n + k)).1 (hrun (n + k)).2).trans ih

/-- While a request is sent and its answer received, it stays in service, and the queue only grows. -/
theorem run_line (hrun : IsRun x s) {n k : Nat} (h : ∀ i, i < k → (s (n + i)).arb = .tx ∨ (s (n + i)).arb = .rx) :
    (s (n + k)).cur = (s n).cur ∧ ∃ l, (s (n + k)).rq = (s n).rq ++ l := by
  induction k with
  | zero => exact ⟨rfl, [], by simp⟩
  | succ k ih =>
    obtain ⟨h1, l, h2⟩ := ih fun i hi => h i (by omega)
    obtain ⟨l', h3, h4, -, -⟩ := cycleWith_line (hrun (n + k)).1 (hrun (n + k)).2 (h k (by omega))
    exact ⟨h4.trans h1, l ++ l', by rw [show n + (k + 1) = n + k + 1 from rfl, h3, h2, List.append_assoc]⟩

/-- Transmitting ends with the framer armed, after at most as many handshakes as there are bytes to send. -/
theorem transmit_ends (hrun : IsRun x s) (hk : ∀ n, (s n).WellKept) (hu : UartFair x) {n : Nat}
    (ha : (s n).arb = .tx) :
    ∃ k, (∀ i, i ≤ k → (s (n + i)).arb = .tx) ∧ (s (n + k + 1)).arb = .rx ∧
      (s (n + k + 1)).rxState = .awaitMarker ∧ (s (n + k + 1)).rxCnt = 0 ∧
      (s (n + k + 1)).rxTimer = (s n).cfg.byteTimeout ∧
      tally (fun i => handshake (x i) (s i)) n (k + 1) ≤ bytesToSend (s n) := by
  have one := fun i (hi : (s i).arb = .tx) =>
    transmit_cycle (hrun i).1 (hrun i).2 (hk i).1 (hk i).2.2.2.1 hi
  obtain ⟨k, hq, hp⟩ := phase_ends (P := fun i => (s i).arb = .tx)
    (Q := fun i => (s i).arb = .rx ∧ (s i).rxState = .awaitMarker ∧ (s i).rxCnt = 0 ∧
      (s i).rxTimer = (s i).cfg.byteTimeout)
    (ev := fun i => (x i).txReady = true) (μ := fun i => bytesToSend (s i)) hu
    (fun i hi => by
      rcases (one i hi).2 with ⟨h1, h2, h3, h4⟩ | ⟨h1, h2, h3⟩
      · exact .inl ⟨h1, h2, h3, by rw [h4, cycleWith_cfg (hrun i).1 (hrun i).2]⟩
      · exact .inr ⟨h1, by omega, h3⟩) ha
  refine ⟨k, hp, hq.1, hq.2.1, hq.2.2.1, by rw [hq.2.2.2, show n + k + 1 = n + (k + 1) from rfl, run_cfg hrun], ?_⟩
  refine tally_le (μ := fun i => bytesToSend (s i)) (fun i hi => ?_) (one _ (hp k (Nat.le_refl k))).1
  rcases (one _ (hp i (by omega))).2 with ⟨h1, -⟩ | ⟨-, h2, -⟩
  · rw [show n + i + 1 = n + (i + 1) from rfl, hp (i + 1) (by omega)] at h1; cases h1
  · exact h2

/-- Receiving ends with a reply in hand, after at most `FRAME_MAX` bytes and the ticks of their budgets. -/
theorem receive_ends (hrun : IsRun x s) (hk : ∀ n, (s n).WellKept) (ht : TickFair x) {n : Nat}
    (ha : (s n).arb = .rx) :
    ∃ k, (∀ i, i < k → (s (n + i)).arb = .rx) ∧ (s (n + k)).arb = .reply ∧
      tally (fun i => takesByte (x i) (s i)) n k ≤ (s n).cfg.frameMax ∧
      tally (fun i => ticksFramer (x i) (s i)) n k ≤ ticksToRest (s n) := by
  have rest := fun i (hi : (s i).arb = .rx) (hw : (s i).rxState.isWaiting = false) =>
    collect_cycle (hrun i).1 (hrun i).2 (hk i).2.2.1 hi hw
  have still := fun i (hw : (s i).rxState.isWaiting = false) =>
    (show takesByte (x i) (s i) = false ∧ ticksFramer (x i) (s i) = false by simp [takesByte, ticksFramer, hw])
  cases hw : (s n).rxState.isWaiting with
  | false =>
    refine ⟨1, fun i hi => by rw [show i = 0 from by omega]; exact ha, rest n ha hw, ?_, ?_⟩
    · simp [tally, (still n hw).1]
    · simp [tally, (still n hw).2]
  | true =>
    have one := fun i (hi : (s i).arb = .rx ∧ (s i).rxState.isWaiting = true) =>
      receive_cycle (hrun i).1 (hrun i).2 (hk i).1 (hk i).2.2.1 (hk (i + 1)).2.2.1 hi.1 hi.2
    obtain ⟨k, hq, hp⟩ := phase_ends (P := fun i => (s i).arb = .rx ∧ (s i).rxState.isWaiting = true)
      (Q := fun i => (s i).arb = .rx ∧ (s i).rxState.isWaiting = false)
      (ev := fun i => (x i).tick = true) (μ := fun i => ticksToRest (s i)) ht
      (fun i hi => by
        obtain ⟨h1, -, -, h2⟩ := one i hi
        cases hwi : (s (i + 1)).rxState.isWaiting with
        | false => exact .inl ⟨h1, rfl⟩
        | true =>
          rcases h2 with h2 | ⟨-, h2⟩
          · rw [hwi] at h2; cases h2
          · refine .inr ⟨⟨h1, rfl⟩, by omega, fun he => ?_⟩
            have : ticksFramer (x i) (s i) = true := by simp [ticksFramer, hi.2, he]
            rw [this] at h2
            simp only [Bool.toNat_true] at h2
            omega) ⟨ha, hw⟩
    have next : ∀ i, i < k →
        (s (n + i)).cfg.frameMax - (s (n + i + 1)).rxCnt.toNat + (takesByte (x (n + i)) (s (n + i))).toNat ≤
            (s (n + i)).cfg.frameMax - (s (n + i)).rxCnt.toNat ∧
          ticksToRest (s (n + i + 1)) + (ticksFramer (x (n + i)) (s (n + i))).toNat ≤ ticksToRest (s (n + i)) := by
      intro i hi
      rcases (one _ (hp i (by omega))).2.2.2 with h | h
      · rw [show n + i + 1 = n + (i + 1) from rfl, (hp (i + 1) (by omega)).2] at h; cases h
      · exact h
    refine ⟨k + 2, fun i hi => ?_, rest _ hq.1 hq.2, ?_, ?_⟩
    · by_cases hik : i ≤ k
      · exact (hp i hik).1
      · rw [show i = k + 1 from by omega]; exact hq.1
    · rw [show k + 2 = (k + 1) + 1 from rfl, tally_append]
      have h1 := tally_le (f := fun i => takesByte (x i) (s i)) (μ := fun i => (s i).cfg.frameMax - (s i).rxCnt.toNat)
        (n := n) (k := k)
        (fun i hi => by
          have := (next i hi).1
          have hc := cycleWith_cfg (hrun (n + i)).1 (hrun (n + i)).2
          rw [hc]
          exact this) (one _ (hp k (Nat.le_refl k))).2.1
      have h2 : tally (fun i => takesByte (x i) (s i)) (n + (k + 1)) 1 = 0 :=
        tally_none fun i hi => by rw [show i = 0 from by omega]; exact (still _ hq.2).1
      omega
    · rw [show k + 2 = (k + 1) + 1 from rfl, tally_append]
      have h1 := tally_le (f := fun i => ticksFramer (x i) (s i)) (μ := fun i => ticksToRest (s i)) (n := n) (k := k)
        (fun i hi => (next i hi).2) (one _ (hp k (Nat.le_refl k))).2.2.1
      have h2 : tally (fun i => ticksFramer (x i) (s i)) (n + (k + 1)) 1 = 0 :=
        tally_none fun i hi => by rw [show i = 0 from by omega]; exact (still _ hq.2).2
      omega

/-- Every exchange ends, within the bounds of rule R129. -/
theorem exchange_ends (hrun : IsRun x s) (hk : ∀ n, (s n).WellKept) (hu : UartFair x) (ht : TickFair x) {n : Nat}
    (ha : (s n).arb = .tx ∨ (s n).arb = .rx) :
    ∃ k, (∀ i, i < k → (s (n + i)).arb = .tx ∨ (s (n + i)).arb = .rx) ∧ (s (n + k)).arb = .reply ∧
      tally (fun i => handshake (x i) (s i)) n k ≤ (s n).cur.bytes.length ∧
      tally (fun i => takesByte (x i) (s i)) n k ≤ (s n).cfg.frameMax ∧
      ((s n).arb = .tx →
        tally (fun i => ticksFramer (x i) (s i)) n k ≤ (s n).cfg.frameMax * (s n).cfg.byteTimeout) := by
  have noSend : ∀ i, (s i).arb = .rx → handshake (x i) (s i) = false := fun i hi => by
    simp [handshake, State.txByte, hi]
  have noTake : ∀ i, (s i).arb = .tx → takesByte (x i) (s i) = false ∧ ticksFramer (x i) (s i) = false := fun i hi => by
    have : (s i).rxState = .idle := by
      by_contra hne
      have := (hk i).2.2.1.1.2 hne
      rw [hi] at this; cases this
    simp [takesByte, ticksFramer, this, RxState.isWaiting]
  rcases ha with ha | ha
  · obtain ⟨k, hp, h1, h2, h3, h4, h5⟩ := transmit_ends hrun hk hu ha
    obtain ⟨m, hp', g1, g2, g3⟩ := receive_ends hrun hk ht h1
    have hc : (s (n + k + 1)).cfg = (s n).cfg := run_cfg hrun n (k + 1)
    refine ⟨k + 1 + m, fun i hi => ?_, by rwa [show n + (k + 1 + m) = n + k + 1 + m from by omega], ?_, ?_, fun _ => ?_⟩
    · by_cases hik : i ≤ k
      · exact .inl (hp i hik)
      · obtain ⟨d, rfl⟩ := Nat.exists_eq_add_of_le (show k + 1 ≤ i by omega)
        rw [show n + (k + 1 + d) = n + k + 1 + d from by omega]
        exact .inr (hp' d (by omega))
    · rw [tally_append, tally_none (n := n + (k + 1)) fun i hi => noSend _ (hp' i hi)]
      have : bytesToSend (s n) ≤ (s n).cur.bytes.length := Nat.sub_le _ _
      omega
    · rw [tally_append, tally_none (n := n) fun i hi => (noTake _ (hp i (by omega))).1]
      rw [hc] at g2
      simpa [show n + (k + 1) = n + k + 1 from rfl] using g2
    · rw [tally_append, tally_none (n := n) fun i hi => (noTake _ (hp i (by omega))).2]
      have hB := (hk n).1.2.1
      have hF : 1 ≤ (s n).cfg.frameMax := by unfold Params.frameMax; omega
      have : ticksToRest (s (n + k + 1)) = (s n).cfg.frameMax * (s n).cfg.byteTimeout := by
        unfold ticksToRest
        rw [hc, h3, h4]
        obtain ⟨d, hd⟩ : ∃ d, (s n).cfg.frameMax = d + 1 := ⟨_, (Nat.sub_add_cancel hF).symm⟩
        rw [hd, Nat.succ_mul, show max 1 (s n).cfg.byteTimeout = (s n).cfg.byteTimeout from by omega]
        simp
      rw [this] at g3
      simpa [show n + (k + 1) = n + k + 1 from rfl] using g3
  · obtain ⟨m, hp', g1, g2, g3⟩ := receive_ends hrun hk ht ha
    refine ⟨m, fun i hi => .inr (hp' i hi), g1, ?_, g2, fun h => by rw [ha] at h; cases h⟩
    rw [tally_none fun i hi => noSend _ (hp' i hi)]
    omega

/-- Every queued request comes into service, after at most as many exchanges as stand before it, the one in service counted. -/
theorem request_served (hrun : IsRun x s) (hk : ∀ n, (s n).WellKept) (hu : UartFair x) (ht : TickFair x) (j : Nat) :
    ∀ {n : Nat} {e : Request}, (s n).rq[j]? = some e →
      ∃ k, (s (n + k)).cur = e ∧ (s (n + k)).arb = .tx ∧ (s (n + k)).txIdx = 0 ∧
        tally (fun i => decide ((s i).arb = .reply)) n k ≤ j + if (s n).arb = .idle then 0 else 1 := by
  have later : ∀ {n d : Nat} {e : Request} {b : Nat},
      (∃ k, (s (n + d + k)).cur = e ∧ (s (n + d + k)).arb = .tx ∧ (s (n + d + k)).txIdx = 0 ∧
        tally (fun i => decide ((s i).arb = .reply)) (n + d) k ≤ b) →
      ∀ c, tally (fun i => decide ((s i).arb = .reply)) n d + b ≤ c →
      ∃ k, (s (n + k)).cur = e ∧ (s (n + k)).arb = .tx ∧ (s (n + k)).txIdx = 0 ∧
        tally (fun i => decide ((s i).arb = .reply)) n k ≤ c := by
    rintro n d e b ⟨k, h1, h2, h3, h4⟩ c hc
    refine ⟨d + k, ?_⟩
    rw [← Nat.add_assoc, tally_append]
    exact ⟨h1, h2, h3, by omega⟩
  induction j using Nat.strong_induction_on with
  | _ j ih =>
    have popped : ∀ {n : Nat} {e r : Request} {rest l : List Request}, (s n).cur = r → (s n).arb = .tx →
        (s n).txIdx = 0 → (s n).rq = rest ++ l → (r :: rest)[j]? = some e →
        ∃ k, (s (n + k)).cur = e ∧ (s (n + k)).arb = .tx ∧ (s (n + k)).txIdx = 0 ∧
          tally (fun i => decide ((s i).arb = .reply)) n k ≤ j := by
      intro n e r rest l h1 h2 h3 h4 he
      cases j with
      | zero => cases he; exact ⟨0, h1, h2, h3, Nat.le_refl 0⟩
      | succ j =>
        have he : rest[j]? = some e := he
        have := ih j (by omega) (n := n) (e := e) (by
          rw [h4, List.getElem?_append_left (List.getElem?_eq_some_iff.1 he).1]; exact he)
        simpa [h2] using this
    have kept : ∀ {n m : Nat} {e : Request} {l : List Request}, (s n).rq[j]? = some e → (s m).rq = (s n).rq ++ l →
        (s m).rq[j]? = some e := fun he hm => by
      rw [hm, List.getElem?_append_left (List.getElem?_eq_some_iff.1 he).1]; exact he
    have idle : ∀ {n : Nat} {e : Request}, (s n).arb = .idle → (s n).rq[j]? = some e →
        ∃ k, (s (n + k)).cur = e ∧ (s (n + k)).arb = .tx ∧ (s (n + k)).txIdx = 0 ∧
          tally (fun i => decide ((s i).arb = .reply)) n k ≤ j := by
      intro n e ha he
      obtain ⟨l, ⟨-, -, -, h⟩ | ⟨r, rest, h1, h2, h3, h4, h5⟩⟩ := cycleWith_queue (hrun n).1 (hrun n).2 (.inl ha)
      · rw [h ha] at he; cases he
      · exact later (d := 1) (popped h3 h4 h5 h2 (h1 ▸ he)) j (by simp [tally, ha])
    have reply : ∀ {n : Nat} {e : Request}, (s n).arb = .reply → (s n).rq[j]? = some e →
        ∃ k, (s (n + k)).cur = e ∧ (s (n + k)).arb = .tx ∧ (s (n + k)).txIdx = 0 ∧
          tally (fun i => decide ((s i).arb = .reply)) n k ≤ j + 1 := by
      intro n e ha he
      obtain ⟨l, ⟨h1, -, h3, -⟩ | ⟨r, rest, h1, h2, h3, h4, h5⟩⟩ := cycleWith_queue (hrun n).1 (hrun n).2 (.inr ha)
      · exact later (d := 1) (idle h3 (kept he h1)) (j + 1) (by simp [tally, ha]; omega)
      · exact later (d := 1) (popped h3 h4 h5 h2 (h1 ▸ he)) (j + 1) (by simp [tally, ha]; omega)
    have busy : ∀ {n : Nat} {e : Request}, (s n).arb = .tx ∨ (s n).arb = .rx → (s n).rq[j]? = some e →
        ∃ k, (s (n + k)).cur = e ∧ (s (n + k)).arb = .tx ∧ (s (n + k)).txIdx = 0 ∧
          tally (fun i => decide ((s i).arb = .reply)) n k ≤ j + 1 := by
      intro n e ha he
      obtain ⟨k, h1, h2, -⟩ := exchange_ends hrun hk hu ht ha
      obtain ⟨-, l, h3⟩ := run_line hrun h1
      refine later (d := k) (reply h2 (kept he h3)) (j + 1) ?_
      rw [tally_none fun i hi => by rcases h1 i hi with h | h <;> simp [h]]
      omega
    intro n e he
    cases ha : (s n).arb with
    | idle => simpa using idle ha he
    | tx => simpa using busy (.inl ha) he
    | rx => simpa using busy (.inr ha) he
    | reply => simpa using reply ha he

/-- A waiting port's last request is still with the controller: in the queue, or in service. -/
theorem live_request {u : State} {p : PortId} (hk : u.TagsOk) (hw : (u.port p).waiting = true) :
    ∃ e : Request, e.port = p ∧ e.tag = (u.port p).tag ∧ ((∃ j : Nat, u.rq[j]? = some e) ∨ (u.arb ≠ .idle ∧ u.cur = e)) := by
  obtain ⟨h1, h2, h3, h4⟩ := hk.1 p
  have hne := h4 hw
  obtain ⟨g, hg⟩ : ∃ g, (u.liveTags p).getLast? = some g := by
    cases hl : (u.liveTags p).getLast? with
    | none => exact absurd (List.getLast?_eq_none_iff.1 hl) hne
    | some g => exact ⟨g, rfl⟩
  have hm : g ∈ u.liveTags p := List.mem_of_getLast? hg
  have hgt : g = (u.port p).tag := by
    have := h3 0 (List.length_pos_iff.2 hne)
    rw [List.getD_eq_getElem?_getD, ← List.head?_eq_getElem?, List.head?_reverse, hg] at this
    simpa [Nat.mod_eq_of_lt (h2 g hm)] using this
  unfold State.liveTags at hm
  simp only [List.mem_map, List.mem_filter, List.mem_append, decide_eq_true_eq] at hm
  obtain ⟨e, ⟨he, hp⟩, htag⟩ := hm
  refine ⟨e, hp, htag.trans hgt, ?_⟩
  rcases he with he | he
  · right
    split at he
    · cases he
    · next ha => exact ⟨ha, (List.mem_singleton.1 he).symm⟩
  · exact .inl (List.getElem?_of_mem he)

/-- Every port wait ends: the port waits no more, or a later wait of the same command has begun under a new tag. -/
theorem wait_ends (hrun : IsRun x s) (hk : ∀ n, (s n).WellKept) (hu : UartFair x) (ht : TickFair x) {n : Nat} {p : PortId}
    (hw : ((s n).port p).waiting = true) :
    ∃ k, ¬(((s (n + k)).port p).waiting = true ∧ ((s (n + k)).port p).tag = ((s n).port p).tag) := by
  by_contra hnot
  have stay : ∀ k, ((s (n + k)).port p).waiting = true ∧ ((s (n + k)).port p).tag = ((s n).port p).tag := fun k => by
    by_contra hk
    exact hnot ⟨k, hk⟩
  have atReply : ∀ k, (s (n + k)).arb = .reply → (s (n + k)).cur.port = p →
      (s (n + k)).cur.tag = ((s n).port p).tag → False := by
    intro k ha hp htag
    obtain ⟨hv, hok, -, -, htags⟩ := hk (n + k)
    obtain ⟨r1, r2⟩ := htags.2 ha
    obtain ⟨w1, w2⟩ := stay k
    refine handed_cycle (hrun (n + k)).1 (hrun (n + k)).2 hv hok (htags.1 p).1
      ⟨ha, r1.trans hp, w1, w2.trans (r2.trans htag).symm⟩ ?_
    rw [w2]
    exact stay (k + 1)
  have inService : ∀ k, (s (n + k)).arb ≠ .idle → (s (n + k)).cur.port = p →
      (s (n + k)).cur.tag = ((s n).port p).tag → False := by
    intro k ha hp htag
    have go : (s (n + k)).arb = .tx ∨ (s (n + k)).arb = .rx → False := fun hb => by
      obtain ⟨m, h1, h2, -⟩ := exchange_ends hrun hk hu ht hb
      have h3 := (run_line hrun h1).1
      rw [Nat.add_assoc] at h2 h3
      exact atReply (k + m) h2 (by rw [h3]; exact hp) (by rw [h3]; exact htag)
    cases hb : (s (n + k)).arb with
    | idle => exact ha hb
    | tx => exact go (.inl hb)
    | rx => exact go (.inr hb)
    | reply => exact atReply k hb hp htag
  obtain ⟨e, hp, htag, ⟨j, hj⟩ | ⟨ha, hcur⟩⟩ := live_request (hk n).2.2.2.2 hw
  · obtain ⟨k, h1, h2, -⟩ := request_served hrun hk hu ht j hj
    exact inService k (by rw [h2]; decide) (by rw [h1]; exact hp) (by rw [h1]; exact htag)
  · exact inService 0 ha (by rw [Nat.add_zero, hcur]; exact hp) (by rw [Nat.add_zero, hcur]; exact htag)

end Runs

end Sys2Proof.Machine
end

