-- ==== Sys2Proof/Laws/PerInstr.lean ====
section
/-!
SUPPORT. What is said of every command as syntax, one lemma for each constructor of `Instr`.
-/
namespace Sys2Proof.Laws.WordFields

/-- The command word of `i` keeps `RSV` 0 and its `OP` in 0x01..0x09, so it is none of rule R67's undefined words (R64, R65,
R67). -/
def Statement (i : Instr) : Prop :=
  cmdRsv (encode i) = 0 ∧ 1 ≤ (cmdOp (encode i)).toNat ∧ (cmdOp (encode i)).toNat ≤ 9

/-- What every case comes to: the word is packed with an `OP` in 0x01..0x09. -/
theorem of_packCommand {op a b : Byte} (h : 1 ≤ op.toNat ∧ op.toNat ≤ 9) :
    cmdRsv (packCommand op a b) = 0 ∧ 1 ≤ (cmdOp (packCommand op a b)).toNat ∧ (cmdOp (packCommand op a b)).toNat ≤ 9 := by
  rw [cmdRsv_packCommand, cmdOp_packCommand]
  exact ⟨rfl, h⟩

theorem xchg : Statement .xchg := of_packCommand (by decide)

theorem read (id : Byte) : Statement (.read id) := of_packCommand (by decide)

theorem writeDry (id offset : Byte) : Statement (.writeDry id offset) := of_packCommand (by decide)

theorem writeCommit (id offset : Byte) : Statement (.writeCommit id offset) := of_packCommand (by decide)

theorem encode (op id : Byte) : Statement (.encode op id) := of_packCommand (by decide)

theorem validate : Statement .validate := of_packCommand (by decide)

theorem classify (id : Byte) : Statement (.classify id) := of_packCommand (by decide)

theorem decode (code : Byte) : Statement (.decode code) := of_packCommand (by decide)

theorem rawbyte (offset : Byte) : Statement (.rawbyte offset) := of_packCommand (by decide)

end Sys2Proof.Laws.WordFields
end

