-- ==== Sys2Proof/Tests/Slice0.lean ====
section
/-!
SUPPORT. Tests on fixed values, each expected value worked out from the spec (95_test_vectors.md where a comment names one of its
vectors), and one witness for every statement that has hypotheses: a state and operands that meet all of them.
-/
namespace Sys2Proof.Tests

open Sys2Proof Sys2Proof.Machine

/-! ### Helpers -/

/-- The example parameters of 95_test_vectors.md. -/
def params : Params :=
  { Params.fallback with
    idTable :=
      [⟨0x01, 0x01, .device⟩, ⟨0x10, 0x10, .temp100⟩, ⟨0x20, 0x2F, .l1Info⟩, ⟨0x30, 0x05, .datetime⟩,
        ⟨0x40, 0x40, .l1Settings1⟩, ⟨0x41, 0x41, .l1Settings2⟩, ⟨0x28, 0x28, .temp100⟩] }

/-- The block built with them, right after reset. -/
def fresh : State := State.resetWith params

/-- A buffer that holds the given bytes from index 0 on. -/
def bufferOf (bs : List Byte) : Memory := bufPutBytes 259 [] 0 bs

/-- `fresh` with port 0 changed. -/
def withPort (f : Port → Port) : State := fresh.modPort 0 f

/-- `fresh` with the bytes in `DATA_IN` of port 0. -/
def withDin (bs : List Byte) : State :=
  withPort fun q => { q with din := bufferOf bs, dinLen := BitVec.ofNat 9 bs.length }

/-- `fresh` with `DIN_LEN` of port 0 set. -/
def withLen (n : Nat) : State := withPort fun q => { q with dinLen := BitVec.ofNat 9 n }

/-- `fresh` with the frame in `RESULT` of port 0. -/
def withResult (bs : List Byte) : State :=
  withPort fun q => { q with res := bufferOf bs, resLen := BitVec.ofNat 9 bs.length }

/-- The state a step or a command answers, if it answers one. -/
def nextOf (o : Host.Outcome State Fault Refusal) : Option State :=
  match o with
  | .next s => some s
  | .fault _ => none
  | .refused _ => none

/-- What `f` shows of port 0 after a step or a command. -/
def view {α : Type} (f : Port → α) (o : Host.Outcome State Fault Refusal) : Option α := (nextOf o).map fun s => f (s.port 0)

/-- `STATUS`, `TYPE` and `RAWVAL` as the host reads them. -/
def statusTypeRaw (q : Port) : Word × Word × Word := (statusWord q, typeWord q, rawvalWord q)

/-- The frame in `RESULT`. -/
def resultOf (q : Port) : List Byte := q.resultFrame 259

/-- The six fields. -/
def fieldList (q : Port) : List Word := [q.fields.f0, q.fields.f1, q.fields.f2, q.fields.f3, q.fields.f4, q.fields.f5]

/-- Port 0 waiting for an exchange, under tag 1, for the command word `w`. -/
def waitingPort (w : Word) (st : SeqState) (q : Port) : Port :=
  { q with cmdLatch := w, busy := true, seq := st, waiting := true, tag := 1, wtimer := 5000 }

/-- `fresh` with port 0 waiting. -/
def waitingFor (w : Word) (st : SeqState) : State := withPort (waitingPort w st)

/-- The same with the bytes in `DATA_IN`. -/
def waitingWith (w : Word) (st : SeqState) (bs : List Byte) : State :=
  withPort fun q => { waitingPort w st q with din := bufferOf bs, dinLen := BitVec.ofNat 9 bs.length }

/-- The response of 95_test_vectors.md vector V11, and the same with a wrong checksum. -/
def tempFrame : List Byte := [0x02, 0x01, 0x04, 0x00, 0x10, 0x00, 0xC8, 0xDD]

/-- `R40` of 95_test_vectors.md section 2.9. -/
def r40 : List Byte :=
  [0x02, 0x01, 0x18, 0x00, 0x40, 0x0A, 0x14, 0x1E, 0x28, 0x32] ++ List.replicate 16 0x00 ++ [0x07, 0xF6]

/-- The write frame of 95_test_vectors.md section 2.9, first row. -/
def w40 : List Byte :=
  [0x02, 0x57, 0x18, 0x00, 0x40, 0x0A, 0x19, 0x1E, 0x28, 0x32] ++ List.replicate 16 0x00 ++ [0x07, 0x51]

/-- A transport result without a tag. -/
def good (f : List Byte) (c : Byte) : TransportResult := { err := .none, crcv := c, raw := f }

/-- `fresh` with a full request queue and `DIN_LEN` of port 0 set. -/
def fullQueueLen (n : Nat) : State :=
  { withLen n with
    rq := [⟨1, 1, [0x01]⟩, ⟨1, 2, [0x01]⟩, ⟨1, 3, [0x01]⟩, ⟨1, 4, [0x01]⟩] }

/-- `fresh` with a full request queue. -/
def fullQueue : State := fullQueueLen 0

/-- `fresh` with the controller receiving for port 0 and the framer in state `r`. -/
def receiving (r : RxState) (cnt : Count) : State :=
  { waitingFor 0x02100000 .rdWait with
    arb := .rx, cur := ⟨0, 1, [0x02]⟩, rxState := r, rxCnt := cnt, rxTimer := 2000 }

/-- `fresh` with a reply for port 0 in hand. -/
def replying (tag : Nat) : State :=
  { waitingFor 0x02100000 .rdWait with
    arb := .reply, cur := ⟨0, tag, [0x02]⟩, reply := ⟨0, tag, good tempFrame 0xDD⟩ }

/-! ### Decoding: words written out from the encoding column of spec/opcode_table.json (`OP`, `A`, `B`, `RSV`) -/

theorem test_word_xchg : decode 0b00000001_00000000_00000000_00000000 = .ok .xchg := by rfl
theorem test_word_xchg_ignored : decode 0b00000001_11111111_10101010_00000000 = .ok .xchg := by rfl
theorem test_word_read : decode 0b00000010_00010000_00000000_00000000 = .ok (.read 0x10) := by rfl
theorem test_word_write_dry : decode 0b00000011_01000000_00000001_00000000 = .ok (.writeDry 0x40 1) := by rfl
theorem test_word_write_commit : decode 0b00000100_01000000_00010101_00000000 = .ok (.writeCommit 0x40 21) := by rfl
theorem test_word_encode : decode 0b00000101_01010010_00010000_00000000 = .ok (.encode 0x52 0x10) := by rfl
theorem test_word_validate : decode 0b00000110_00000000_00000000_00000000 = .ok .validate := by rfl
theorem test_word_classify : decode 0b00000111_00110000_00000000_00000000 = .ok (.classify 0x30) := by rfl
theorem test_word_decode : decode 0b00001000_00000011_00000000_00000000 = .ok (.decode 3) := by rfl
theorem test_word_rawbyte : decode 0b00001001_00000000_11111111_00000000 = .ok (.rawbyte 255) := by rfl
theorem test_word_op_zero : decode 0x00000000 = .error (.undefinedOp 0x00) := by rfl
theorem test_word_op_ten : decode 0x0A000000 = .error (.undefinedOp 0x0A) := by rfl
theorem test_word_reserved : decode 0x02100001 = .error .reservedNonZero := by rfl
theorem test_table_word : decodeTableWord 32 0x05521000 = some (.encode 0x52 0x10) := by rfl
theorem test_table_word_refused : decodeTableWord 32 0x05521001 = none := by rfl

theorem test_encode_words :
    [encode .xchg, encode (.read 0x40), encode (.writeDry 0x40 1), encode (.writeCommit 0x40 21), encode (.encode 0x52 0x10),
        encode .validate, encode (.classify 0x30), encode (.decode 1), encode (.rawbyte 1)] =
      [0x01000000, 0x02400000, 0x03400100, 0x04401500, 0x05521000, 0x06000000, 0x07300000, 0x08010000, 0x09000100] := by
  decide

/-! ### Well-formedness: an ill-formed term for each check -/

theorem test_wellformed_decode_six : (Instr.decode 6).WellFormed := by decide
theorem test_ill_formed_decode_seven : ¬(Instr.decode 7).WellFormed := by decide
theorem test_ill_formed_decode_top : (Instr.decode 255).wellFormed = false := by decide
theorem test_valid_params : params.Valid := by decide
theorem test_ill_tick : ¬{ params with tickHz := 0 }.Valid := by decide
theorem test_ill_byte_timeout : ¬{ params with byteTimeout := 0 }.Valid := by decide
theorem test_ill_bias : ¬{ params with termBias := 5 }.Valid := by decide
theorem test_ill_table : ¬{ params with idTable := List.replicate 256 ⟨0, 0, .rawOnly⟩ }.Valid :=
  fun h => absurd h.2.2.2.1 (by rw [List.length_replicate]; decide)
theorem test_ill_no_port : ¬{ params with numPorts := 0 }.Valid := by decide
theorem test_ill_ports : ¬{ params with numPorts := 16, qDepth := 16, tagBits := 9 }.Valid := by decide
theorem test_ill_queue : ¬{ params with qDepth := 1 }.Valid := by decide
theorem test_ill_tags : ¬{ params with qDepth := 7 }.Valid := by decide
theorem test_ill_fifo : ¬{ params with rxFifoDepth := 0 }.Valid := by decide

theorem test_build_refuses : State.build { params with termBias := 5 } = .error .unspecifiedBuild := by
  simp only [State.build, if_neg test_ill_bias]

theorem test_build_answers : State.build params = .ok fresh := by simp only [State.build, if_pos test_valid_params, fresh]

/-! ### The first instruction after reset, whatever the build -/

theorem test_first_xchg : ∃ t, step (State.reset.withFetchWord 32 0x01000000) = .next t := ⟨_, rfl⟩
theorem test_first_read : ∃ t, step (State.reset.withFetchWord 32 0x02100000) = .next t := ⟨_, rfl⟩
theorem test_first_write_dry : ∃ t, step (State.reset.withFetchWord 32 0x03400100) = .next t := ⟨_, rfl⟩
theorem test_first_write_commit : ∃ t, step (State.reset.withFetchWord 32 0x04401500) = .next t := ⟨_, rfl⟩
theorem test_first_encode : ∃ t, step (State.reset.withFetchWord 32 0x05521000) = .next t := ⟨_, rfl⟩
theorem test_first_validate : ∃ t, step (State.reset.withFetchWord 32 0x06000000) = .next t := ⟨_, rfl⟩
theorem test_first_classify : ∃ t, step (State.reset.withFetchWord 32 0x07300000) = .next t := ⟨_, rfl⟩
theorem test_first_decode : ∃ t, step (State.reset.withFetchWord 32 0x08030000) = .next t := ⟨_, rfl⟩
theorem test_first_rawbyte : ∃ t, step (State.reset.withFetchWord 32 0x09000100) = .next t := ⟨_, rfl⟩
theorem test_first_illegal : ∃ t, step (State.reset.withFetchWord 32 0x0A000000) = .next t := ⟨_, rfl⟩

/-! ### One command each, on vectors of 95_test_vectors.md -/

/-- X3: the bytes are submitted as they stand. -/
theorem test_xchg :
    (nextOf (exec .xchg (withDin [0xAA, 0xBB]))).map (fun s => (s.rq, (s.port 0).seq)) =
      some ([⟨0, 1, [0xAA, 0xBB]⟩], SeqState.xchgWait) := by decide

/-- V2: the read request of id 0x40. -/
theorem test_read :
    (nextOf (exec (.read 0x40) fresh)).map (fun s => (s.rq, (s.port 0).seq)) =
      some ([⟨0, 1, [0x02, 0x52, 0x02, 0x00, 0x40, 0x94]⟩], SeqState.rdWait) := by decide

/-- 2.8, third row: a frame with a wrong checksum is decoded anyway. -/
theorem test_read_crc :
    (let q := (handOver 0 ⟨.crc, 0xDD, tempFrame⟩ (waitingFor 0x02100000 .rdWait)).port 0
    (statusTypeRaw q, fieldList q, resultOf q)) =
      ((0x0000DD32, 1, 0), [200, 0, 0, 0, 0, 0], tempFrame) := by decide

/-- 2.9, first row. -/
theorem test_write_dry :
    (let q := (handOver 0 (good r40 0xF6) (waitingWith 0x03400100 .wrReadWait [0x19])).port 0
    (statusWord q, resultOf q, q.wlen)) = (0x00005102, w40, 28) := by decide

/-- 2.9, fifth row: the write does not fit. -/
theorem test_write_dry_bounds :
    (let q := (handOver 0 (good r40 0xF6) (waitingWith 0x03401600 .wrReadWait [0x01])).port 0
    (statusWord q, resultOf q)) = (0x00000052, r40) := by decide

/-- 2.9, ninth row: the write frame is submitted. -/
theorem test_write_commit :
    (let s := handOver 0 (good r40 0xF6) (waitingWith 0x04400100 .wrReadWait [0x19])
    (s.rq, (s.port 0).seq, (s.port 0).busy)) = ([⟨0, 2, w40⟩], SeqState.wrCommitWait, true) := by decide

/-- 2.9, ninth row, the device's answer. -/
theorem test_write_commit_answer :
    (let q := (handOver 0 (good [0x02, 0x06, 0x02, 0x00, 0x40, 0x48] 0x48) (waitingFor 0x04400100 .wrCommitWait)).port 0
    (statusWord q, resultOf q)) = (0x00004802, [0x02, 0x06, 0x02, 0x00, 0x40, 0x48]) := by decide

/-- 2.3, second row. -/
theorem test_encode :
    view (fun q => (statusWord q, resultOf q)) (exec (.encode 0x52 0x10) (withDin [0x01, 0x02, 0x03])) =
      some (0x00006A02, [0x02, 0x52, 0x02, 0x00, 0x10, 0x01, 0x02, 0x03, 0x6A]) := by decide

/-- 2.3, sixth row. -/
theorem test_encode_too_long :
    view (fun q => (statusWord q, q.resLen)) (exec (.encode 0x52 0x10) (withLen 254)) = some (0x00000062, 0) := by
  decide

/-- 2.4, second row. -/
theorem test_validate :
    view statusWord (exec .validate (withDin [0x02, 0x01, 0x04, 0x00, 0x10, 0x00, 0xC8, 0xDE])) = some 0x0000DD32 := by
  decide

/-- 2.4, fourth row. -/
theorem test_validate_two : view statusWord (exec .validate (withDin [0x02, 0x00])) = some 0x00000002 := by decide

/-- 2.5: the reversed range and its neighbour, the inclusive bound and the shadowed entry. -/
theorem test_classify :
    [0x30, 0x31, 0x05, 0x2F, 0x28, 0x1F].map (fun id => view typeWord (exec (.classify id) fresh)) =
      [some 3, some 0, some 0, some 6, some 6, some 0] := by decide

/-- 2.6, the `device` row. -/
theorem test_decode_device :
    view fieldList
        (exec (.decode 2)
          (withDin
            [0x78, 0x56, 0x34, 0x12, 0x45, 0x48, 0x32, 0x30, 0x7B, 0x4A, 0x61, 0x6E, 0x30, 0x31, 0x32, 0x30, 0x32, 0x30])) =
      some [0x12345678, 0x30324845, 123, 0x306E614A, 0x32303231, 0x30] := by decide

/-- 2.6: -32768, and a payload that is too short for a `datetime`. -/
theorem test_decode_edges :
    (view fieldList (exec (.decode 1) (withDin [0x80, 0x00])),
        view statusTypeRaw (exec (.decode 3) (withDin [0x16, 0x00, 0x00, 0x0A, 0x09]))) =
      (some [0xFFFF8000, 0, 0, 0, 0, 0], some (0x00000022, 3, 0)) := by decide

/-- 2.7: payload byte 1, the checksum byte, and one past it. -/
theorem test_rawbyte :
    [0x01, 0x02, 0x03, 0xFF].map (fun o => view rawvalWord (exec (.rawbyte o) (withResult tempFrame))) =
      [some 0x1C8, some 0x1DD, some 0, some 0] := by decide

/-! ### The rest of the block, on vectors of 95_test_vectors.md -/

/-- F1, F3 and F5 of 2.2. -/
theorem test_framer :
    ([[0x02, 0x01, 0x00, 0x01], [0x02, 0x01, 0x02, 0x00, 0x10, 0x13], [0x55, 0x02]] : List (List Byte)).map
        (fun bs => (bs.foldl (fun s b => takeByte b s) (receiving .awaitMarker 0)).rxState) =
      [.complete, .complete, .errProtocol] := by decide

/-- The global registers of the example parameters, and accesses H1, H2 and H4 of 2.11. -/
theorem test_host_reads :
    [0xF000, 0xF004, 0xF010, 0xF014, 0xF10C, 0xF11C, 0x0009, 0x2000, 0x0004].map (hostRead fresh) =
      [(0x04040702, false), (0x00005752, false), (0x7D0, false), (0x1388, false), (0x00030530, false), (0, true), (0, true),
        (0, true), (0, false)] := by decide

/-- H5 of 2.11. -/
theorem test_din :
    pseudoDin 0 [0x02, 0x52, 0x02, 0x00, 0x10, 0x64] =
      [.write 0x0400 0x00025202, .write 0x0404 0x00006410, .write 0x000C 6] := by decide

/-- `do 0, validate` of R71: the first poll finds the command at work, and the second one is over; a cycle in which the host
does nothing leaves its sequence as it is. -/
theorem test_do :
    [[true], [true, true], [true, false, true], [true, true, true]].map (fun acts =>
        match driveHost (acts.map fun a => ⟨a, CycleInput.quiet⟩) (programActions [.run 0 .validate, .ack 0]) (withLen 1) with
        | .next (s, todo) => some (statusWord (s.port 0), todo.length)
        | .fault _ => none
        | .refused _ => none) =
      [some (0x1, 2), some (0x62, 2), some (0x62, 1), some (0x62, 1)] := by decide

/-- R70: a line with a comment, and a type's name. -/
theorem test_assembler :
    ["write.dry 0x40, 1 ; dry".toList, "decode datetime".toList, "read 256".toList].map assembleLine =
      [some (.writeDry 0x40 1), some (.decode 3), none] := by decide

/-- V8 and V12: the rendered date and time, and the two characters of the raw byte. -/
theorem test_render :
    (renderDate (fieldsDatetime [0x07, 0xE7, 0x03, 0x0F, 0x0C, 0x1E, 0x00]),
        renderTime (fieldsDatetime [0x07, 0xE7, 0x03, 0x0F, 0x0C, 0x1E, 0x00]), dumpChars (hexDump tempFrame) 1) =
      ("15.3.2023".toList, "12:30:00".toList, "c8".toList) := by decide


/-! ### Witnesses: for each statement with hypotheses, states and operands that meet them all -/

/-- A quiet cycle with a byte received. -/
def byteIn (b : Byte) : CycleInput := { CycleInput.quiet with rx := some b }

/-- A quiet cycle with a tick. -/
def tickIn : CycleInput := { CycleInput.quiet with tick := true }

/-- A quiet cycle with a ready UART. -/
def readyIn : CycleInput := { CycleInput.quiet with txReady := true }

/-- Port 0 waits, its request is queued, and the next cycle is quiet. -/
def queued : State :=
  { waitingFor 0x02100000 .rdWait with rq := [⟨0, 1, [0x02]⟩], script := [CycleInput.quiet] }

/-- Port 0 waits, its request is in service, three bytes of the answer are buffered, and a byte comes. -/
def midFrame : State :=
  { receiving .accum 3 with rxBuf := bufferOf [0x02, 0x01, 0x04], rxLen := 4, script := [byteIn 0x00] }

/-- The byte of index `idx` of a request of two bytes is offered to the UART. -/
def sendingFrom (idx : Count) : State :=
  { waitingFor 0x02100000 .rdWait with arb := .tx, cur := ⟨0, 1, [0x02, 0x52]⟩, txIdx := idx }

/-- The same with an empty request. -/
def sendingNothing : State := { sendingFrom 0 with cur := ⟨0, 1, []⟩ }

/-- The last byte of a request is on the wire of a block that flushes on arming, with a byte in its FIFO. -/
def sendingWithFlush : State :=
  { sendingFrom 1 with cfg := { params with rxFlushOnArm := true }, rxq := [0x55] }

/-- A reply for port 0 is in hand, and a request of port 1 is queued behind it. -/
def replyingWithQueue : State := { replying 1 with rq := [⟨1, 1, [0x02]⟩] }

/-- An answer that is a next state. -/
theorem next_of (o : Host.Outcome State Fault Refusal) (h : (nextOf o).isSome = true) : ∃ t, o = .next t := by
  cases o with
  | next t => exact ⟨t, rfl⟩
  | fault f => cases f
  | refused r => simp [nextOf] at h

/-- Ports 0 and 1 hold a command word that is due, and port 1's waits two more cycles where `late`. -/
def twoCommands (w : Word) (late : Bool) : State :=
  (fresh.withFetchWord 32 w.toNat).modPort 1 fun q => { q.latched 0x06000000 with delay := if late then 2 else 0 }

theorem witness_StepRunsTheLatchedCommand :
    (∀ w ∈ [0x06000000, 0x00000000],
      (let s := fresh.withFetchWord 32 w
      resetsNow s.input s = false ∧ commandDue s 0 ∧ (s.port 0).busy = true ∧
        ∀ r : PortId, r ≠ 0 → engineIdle s.input s r = true)) ∧
      (∀ p : PortId, p.val < 2 →
        (let s := twoCommands 0x06000000 false
        resetsNow s.input s = false ∧ commandDue s p ∧ (s.port p).busy = true)) ∧
      (let s := twoCommands 0x00000000 true
      resetsNow s.input s = false ∧ (s.port 1).seq = .localCmd ∧ (s.port 1).delay ≠ 0 ∧ (s.port 1).busy = true) ∧
      (∃ t, step (twoCommands 0x06000000 false) = .next t) ∧ ∃ t, step (twoCommands 0x00000000 true) = .next t :=
  ⟨by decide, by decide, by decide, next_of _ (by decide), next_of _ (by decide)⟩

theorem witness_StepRunsTheLatchedCommand_words :
    decode ((fresh.withFetchWord 32 0x06000000).port 0).cmdLatch = .ok .validate ∧
      decode ((fresh.withFetchWord 32 0x00000000).port 0).cmdLatch = .error (.undefinedOp 0) := ⟨rfl, rfl⟩

theorem fresh_Calm : fresh.Calm := ⟨rfl, rfl, rfl, by decide⟩

theorem witness_StepRunsTheFetchedWord : fresh.Calm := fresh_Calm

theorem witness_EncodeBuildsTheRequestFrame :
    ∀ n ∈ [0, 253], (withLen n).cfg.Valid ∧
      ((withLen n).port (withLen n).active).dinLen.toNat ≤ (withLen n).cfg.frameMax - 6 := by decide

theorem witness_ValidateComparesTheChecksum :
    ∀ n ∈ [2, 259], 2 ≤ ((withLen n).port (withLen n).active).dinLen.toNat ∧
      ((withLen n).port (withLen n).active).dinLen.toNat ≤ (withLen n).cfg.frameMax := by decide

/-- The state after an `ENCODE` of three bytes. -/
def encoded : State := (nextOf (exec (.encode 0x52 0x10) (withDin [0x01, 0x02, 0x03]))).getD fresh

/-- The encoded frame as the operand of a `VALIDATE`. -/
def encodedIn : State := withDin [0x02, 0x52, 0x02, 0x00, 0x10, 0x01, 0x02, 0x03, 0x6A]

theorem witness_ValidateAcceptsWhatEncodeBuilt :
    (withDin [0x01, 0x02, 0x03]).cfg.Valid ∧
      ((withDin [0x01, 0x02, 0x03]).port 0).dinLen.toNat ≤ params.frameMax - 6 ∧
      exec (.encode 0x52 0x10) (withDin [0x01, 0x02, 0x03]) = .next encoded ∧
      encodedIn.cfg = (withDin [0x01, 0x02, 0x03]).cfg ∧ (encodedIn.port 0).dinLen = (encoded.port 0).resLen ∧
      (∀ k, k < (encoded.port 0).resLen.toNat →
        bufGet 259 (encodedIn.port 0).din k = bufGet 259 (encoded.port 0).res k) ∧
      ∃ v, exec .validate encodedIn = .next v :=
  ⟨by decide, by decide, rfl, rfl, by decide, by decide, next_of _ (by decide)⟩

theorem witness_FirstMatchingEntryGivesTheType :
    (((0x05 : Byte) < 0x30) ∧ ((0x10 : Byte) = 0x10) ∧ ((0x20 : Byte) < 0x2F)) ∧
      (∀ d ∈ params.idTable.take 2, IdEntry.matchesId d 0x28 = false) ∧
      IdEntry.matchesId ⟨0x20, 0x2F, .l1Info⟩ 0x28 = true ∧
      params.idTable = params.idTable.take 2 ++ ⟨0x20, 0x2F, .l1Info⟩ :: params.idTable.drop 3 ∧
      ∀ d ∈ params.idTable, IdEntry.matchesId d 0x1F = false := by decide

theorem witness_DecodeExtractsTheFields :
    (0x01 : Byte).toNat = typeCode .temp100 ∧
      (∀ n ∈ [0, 1, 2, 259], ((withLen n).port (withLen n).active).dinLen.toNat ≤ (withLen n).cfg.frameMax) ∧
      ((withLen 1).port 0).dinLen.toNat < requiredLength .temp100 ∧
      ¬((withLen 2).port 0).dinLen.toNat < requiredLength .temp100 := by decide

theorem witness_DumpCharactersSpellTheRawByte : 5 + 0 < [0x02, 0x01, 0x02, 0x00, 0x10, 0x13].length := by decide

theorem witness_BrokenLimitsRaiseArg :
    (withLen 260).cfg.frameMax < ((withLen 260).port 0).dinLen.toNat ∧
      (withLen 254).cfg.frameMax - 6 < ((withLen 254).port 0).dinLen.toNat ∧ ((withLen 1).port 0).dinLen.toNat < 2 ∧
      6 < (0x07 : Byte).toNat := by decide

theorem witness_XchgSubmitsTheBytes :
    ∀ n ∈ [0, 259], ((withLen n).port (withLen n).active).dinLen.toNat ≤ (withLen n).cfg.frameMax ∧
      (withLen n).rq.length ≠ (withLen n).cfg.qDepth := by decide

theorem witness_ReadSubmitsTheReadRequest :
    (withLen 511).rq.length ≠ (withLen 511).cfg.qDepth ∧
      (∀ n ∈ [0, 259], (withLen n).rq.length ≠ (withLen n).cfg.qDepth ∧
        ((withLen n).port (withLen n).active).dinLen.toNat ≤ (withLen n).cfg.frameMax) ∧
      ∀ i ∈ [Instr.writeDry 0x40 1, Instr.writeCommit 0x40 1], i = .writeDry 0x40 1 ∨ i = .writeCommit 0x40 1 := by decide

theorem witness_FullQueueAnswersSocket :
    (∀ n ∈ [0, 260, 511], (fullQueueLen n).rq.length = (fullQueueLen n).cfg.qDepth) ∧
      ∀ n ∈ [0, 259], ∀ i ∈ [Instr.xchg, .writeDry 0x40 1, .writeCommit 0x40 1],
        ((i = .xchg ∨ i = .writeDry 0x40 1 ∨ i = .writeCommit 0x40 1) ∧
            ((fullQueueLen n).port (fullQueueLen n).active).dinLen.toNat ≤ (fullQueueLen n).cfg.frameMax) ∧
          (fullQueueLen n).rq.length = (fullQueueLen n).cfg.qDepth := by decide

theorem witness_RawExchangesReportTheTransportResult :
    fresh.cfg.Valid ∧ ((waitingFor 0x01000000 .xchgWait).port 0).seq = .xchgWait ∧
      ((waitingFor 0x04400100 .wrCommitWait).port 0).seq = .wrCommitWait ∧
      (∀ f ∈ [[], tempFrame], (good f 0).raw.length ≤ params.frameMax) ∧
      (good (List.replicate 259 0x02) 0).raw.length ≤ params.frameMax :=
  ⟨by decide, by decide, by decide, by decide, List.length_replicate.le⟩

theorem witness_ReadReportsTheDecodedFrame :
    fresh.cfg.Valid ∧ ((waitingFor 0x02100000 .rdWait).port 0).seq = .rdWait ∧
      (∀ r ∈ [TransportResult.socket, good [0x02, 0x01, 0x03, 0x00, 0x10, 0xC8, 0xDC] 0xDC, good tempFrame 0xDD,
          ⟨.crc, 0xDD, tempFrame⟩], r.raw.length ≤ fresh.cfg.frameMax) ∧
      classify fresh.cfg.idTable 0x10 = .temp100 := by decide

theorem witness_FailedReadStepEndsTheWriteAsRead :
    (let s := waitingWith 0x03400100 .wrReadWait [0x19]
    (s.port 0).seq = .wrReadWait ∧
      (readCompose s.cfg (cmdA (s.port 0).cmdLatch) ⟨.crc, 0xF6, r40⟩).err ≠ .none ∧
      (readCompose s.cfg (cmdA (s.port 0).cmdLatch) (good tempFrame 0xDD)).err ≠ .none) := by decide

theorem witness_WritePastThePayloadIsRefused :
    (let s := waitingWith 0x03401600 .wrReadWait [0x01]
    s.cfg.Valid ∧ (s.port 0).seq = .wrReadWait ∧
      (readCompose s.cfg (cmdA (s.port 0).cmdLatch) (good r40 0xF6)).err = .none ∧ r40.length ≤ s.cfg.frameMax ∧
      r40.length - 6 < (cmdB (s.port 0).cmdLatch).toNat + (s.port 0).dinLen.toNat) := by decide

theorem witness_WriteFrameEchoesTheReadFrame :
    4 ≤ [0x02, 0x01, 0x00, 0x01].length ∧ 0 + ([] : List Byte).length ≤ [0x02, 0x01, 0x00, 0x01].length - 6 ∧
      4 ≤ r40.length ∧ 21 + [0x09].length ≤ r40.length - 6 := by decide

theorem witness_DryRunReturnsTheWriteFrame :
    (let s := waitingWith 0x03401500 .wrReadWait [0x09]
    s.cfg.Valid ∧ (s.port 0).seq = .wrReadWait ∧ cmdOp (s.port 0).cmdLatch = 0x03 ∧
      (readCompose s.cfg (cmdA (s.port 0).cmdLatch) (good r40 0xF6)).err = .none ∧ 4 ≤ r40.length ∧
      r40.length ≤ s.cfg.frameMax ∧
      (cmdB (s.port 0).cmdLatch).toNat + (s.port 0).dinLen.toNat ≤ r40.length - 6) := by decide

theorem witness_CommitSubmitsTheWriteFrame :
    ∀ s ∈ [waitingWith 0x04401500 .wrReadWait [0x09],
        { waitingWith 0x04401500 .wrReadWait [0x09] with rq := fullQueue.rq }],
      s.cfg.Valid ∧ (s.port 0).seq = .wrReadWait ∧ cmdOp (s.port 0).cmdLatch = 0x04 ∧
        (readCompose s.cfg (cmdA (s.port 0).cmdLatch) (good r40 0xF6)).err = .none ∧ 4 ≤ r40.length ∧
        r40.length ≤ s.cfg.frameMax ∧
        (cmdB (s.port 0).cmdLatch).toNat + (s.port 0).dinLen.toNat ≤ r40.length - 6 := by decide

theorem witness_FramerCompletesAtTheDeclaredLength :
    (receiving .awaitMarker 0).cfg.Valid ∧ (receiving .awaitMarker 0).rxState = .awaitMarker ∧
      (receiving .awaitMarker 0).rxCnt = 0 ∧ 1 + 3 = max 4 ((0x00 : Byte).toNat + params.termBias) ∧
      256 + 3 = max 4 ((0xFF : Byte).toNat + params.termBias) ∧
      0 + 3 < max 4 ((0x00 : Byte).toNat + params.termBias) := by decide

theorem witness_WrongMarkerEndsTheExchange :
    (receiving .awaitMarker 0).rxState = .awaitMarker ∧ (0x55 : Byte) ≠ 0x02 := by decide

/-- A byte comes in the cycle in which the host writes the word `w` to `ARB_STATUS`. -/
def byteAndClear (w : Word) : CycleInput := { byteIn 0x02 with host := .write 0xF008 w }

theorem witness_FramerTakesTheOldestByte :
    (∀ x ∈ [byteIn 0x02, byteAndClear 0, byteAndClear 2],
      (let s := receiving .awaitMarker 0
      resetsNow x s = false ∧ s.rxState.isWaiting = true ∧ s.arb = .rx ∧ s.rxq ++ x.rx.toList = [0x02] ∧
        s.rxq ++ x.rx.toList ≠ [])) ∧
      (0 : Word).getLsbD 1 = false ∧ (2 : Word).getLsbD 1 = true ∧
      (∃ t, cycleWith (byteIn 0x02) (receiving .awaitMarker 0) = .next t) ∧
      ∃ t, cycleWith (byteAndClear 2) (receiving .awaitMarker 0) = .next t :=
  ⟨by decide, by decide, by decide, next_of _ (by decide), next_of _ (by decide)⟩

theorem witness_ByteTimeoutFiresOnTheLastTick :
    (∀ x ∈ [tickIn, CycleInput.quiet],
      (let s := receiving .accum 3
      resetsNow x s = false ∧ s.rxState.isWaiting = true ∧ s.arb = .rx ∧ s.rxq = [] ∧ x.rx = none)) ∧
      (∃ t, cycleWith tickIn (receiving .accum 3) = .next t) ∧
      (∃ t, cycleWith CycleInput.quiet (receiving .accum 3) = .next t) ∧
      1999 < max 1 (receiving .accum 3).rxTimer ∧ 2000 = max 1 (receiving .accum 3).rxTimer ∧
      0 < max 1 { receiving .accum 3 with rxTimer := 0 }.rxTimer ∧
      1 = max 1 { receiving .accum 3 with rxTimer := 0 }.rxTimer :=
  ⟨by decide, next_of _ (by decide), next_of _ (by decide), by decide, by decide, by decide, by decide⟩

theorem witness_ExchangeOutcomes :
    (receiving .complete 4).rxState = .complete ∧ (∀ n ∈ [4, 259],
        2 ≤ (receiving .complete (BitVec.ofNat 9 n)).rxCnt.toNat ∧
          (receiving .complete (BitVec.ofNat 9 n)).rxCnt.toNat ≤ params.frameMax) ∧
      (receiving .errProtocol 0).rxState = .errProtocol ∧ (receiving .errTimeout 0).rxState = .errTimeout := by
  decide

theorem witness_FifoKeepsBytesUntilItIsFull :
    (∀ x ∈ [byteIn 0x02, CycleInput.quiet], ∀ s ∈ [fresh, { fresh with rxq := List.replicate 16 0xAA }],
      resetsNow x s = false ∧ s.rxState.isWaiting = false ∧ s.arb ≠ .tx ∧ s.cfg.rxFlushOnArm = false ∧ x.host = .idle) ∧
      (∃ t, cycleWith CycleInput.quiet fresh = .next t) ∧ (∃ t, cycleWith (byteIn 0x02) fresh = .next t) ∧
      ∃ t, cycleWith (byteIn 0x02) { fresh with rxq := List.replicate 16 0xAA } = .next t :=
  ⟨by decide, next_of _ (by decide), next_of _ (by decide), next_of _ (by decide)⟩

theorem witness_RequestsAreServedInOrder :
    (∀ s ∈ [queued, fresh, fresh.withFetchWord 32 0x02100000, replyingWithQueue, replying 1,
        { receiving .accum 3 with rq := queued.rq }],
      resetsNow CycleInput.quiet s = false) ∧
      (∃ t, cycleWith CycleInput.quiet (fresh.withFetchWord 32 0x02100000) = .next t) ∧
      (∃ t, cycleWith CycleInput.quiet queued = .next t) ∧ (∃ t, cycleWith CycleInput.quiet fresh = .next t) ∧
      ∃ t, cycleWith CycleInput.quiet replyingWithQueue = .next t :=
  ⟨by decide, next_of _ (by decide), next_of _ (by decide), next_of _ (by decide), ⟨_, rfl⟩⟩

theorem queuesOk_of (s : State) (h1 : s.rq = []) (h2 : s.rxq = []) (h3 : s.cur.bytes.length ≤ s.cfg.frameMax)
    (h4 : s.reply.result.raw = [])
    (h5 : s.arb = .tx → s.txIdx.toNat < s.cur.bytes.length ∨ (s.txIdx = 0 ∧ s.cur.bytes = [])) : s.QueuesOk := by
  refine ⟨by simp [h1], by simp [h2], by simp [h1], h3, by simp [h4], h5⟩

theorem sendingFrom_QueuesOk (idx : Count) (h : idx.toNat < 2) : (sendingFrom idx).QueuesOk :=
  queuesOk_of _ rfl rfl (show 2 ≤ 259 by decide) rfl fun _ => .inl h

theorem sendingNothing_QueuesOk : sendingNothing.QueuesOk :=
  queuesOk_of _ rfl rfl (by decide) rfl (by decide)

theorem sendingWithFlush_QueuesOk : sendingWithFlush.QueuesOk := by
  refine ⟨by decide, by decide, by decide, by decide, by decide, by decide⟩

theorem witness_RequestBytesGoOutVerbatim :
    ((sendingFrom 0).QueuesOk ∧ (sendingFrom 1).QueuesOk ∧ sendingNothing.QueuesOk ∧ sendingWithFlush.QueuesOk) ∧
      (∀ s ∈ [sendingFrom 0, sendingFrom 1, sendingNothing, sendingWithFlush],
        s.cfg.Valid ∧ s.arb = .tx ∧ resetsNow readyIn s = false ∧ resetsNow CycleInput.quiet s = false) ∧
      (∃ t, cycleWith readyIn (sendingFrom 0) = .next t) ∧ (∃ t, cycleWith readyIn (sendingFrom 1) = .next t) ∧
      (∃ t, cycleWith CycleInput.quiet (sendingFrom 1) = .next t) ∧
      (∃ t, cycleWith CycleInput.quiet sendingNothing = .next t) ∧
      (∃ t, cycleWith readyIn sendingWithFlush = .next t) ∧ sendingWithFlush.cfg.rxFlushOnArm = true :=
  ⟨⟨sendingFrom_QueuesOk 0 (by decide), sendingFrom_QueuesOk 1 (by decide), sendingNothing_QueuesOk,
      sendingWithFlush_QueuesOk⟩, by decide, next_of _ (by decide), next_of _ (by decide), next_of _ (by decide),
    next_of _ (by decide), next_of _ (by decide), rfl⟩

theorem waiting_PortsOk : (waitingFor 0x02100000 .rdWait).PortsOk := by
  unfold State.PortsOk Port.Coherent
  decide

theorem replying_PortsOk : (replying 1).PortsOk := waiting_PortsOk

/-- A reply for port 0 is in hand in a cycle in which port 1 runs a command. -/
def replyingBeside : State := (replying 1).modPort 1 (Port.latched 0x06000000)

theorem replyingBeside_PortsOk : replyingBeside.PortsOk := by
  unfold State.PortsOk Port.Coherent
  decide

theorem witness_ReplyIsHandedToItsPort :
    (resetsNow tickIn (replying 1) = false ∧ replyReaches (replying 1) 0 ∧
      ∀ r : PortId, r ≠ 0 → engineIdle tickIn (replying 1) r = true) ∧
      (replying 1).PortsOk ∧ (resetsNow tickIn replyingBeside = false ∧ replyReaches replyingBeside 0) ∧
      replyingBeside.PortsOk ∧ ∃ t, cycleWith tickIn replyingBeside = .next t :=
  ⟨by decide, replying_PortsOk, by decide, replyingBeside_PortsOk, next_of _ (by decide)⟩

theorem witness_StaleReplyChangesNoPort :
    (∀ s ∈ [replying 2, { replying 2 with rq := [⟨0, 1, [0x02]⟩] }],
      resetsNow CycleInput.quiet s = false ∧ s.arb = .reply ∧
        (∀ p : PortId, engineIdle CycleInput.quiet s p = true) ∧ CycleInput.quiet.host = .idle) ∧
      (resetsNow CycleInput.quiet replyingBeside = false ∧ replyingBeside.arb = .reply ∧
        ∀ p : PortId, p.val ≠ 0 → p.val ≠ 1 →
          ¬replyReaches replyingBeside p ∧ (replyingBeside.port p).seq ≠ .localCmd ∧
            ¬tickCounts CycleInput.quiet replyingBeside p) ∧
      ∃ t, cycleWith CycleInput.quiet replyingBeside = .next t :=
  ⟨by decide, by decide, next_of _ (by decide)⟩

/-- Port 0 waits in a block without a client timeout. -/
def waitingForever : State :=
  { waitingFor 0x02100000 .rdWait with cfg := { params with clientTimeout := 0 } }

/-- Ports 0 and 1 both wait, the one with `n` ticks left, the other with one. -/
def bothWaiting (n : Nat) : State :=
  (withPort fun q => { waitingPort 0x02100000 .rdWait q with wtimer := n }).modPort 1 fun q =>
    { waitingPort 0x01000000 .xchgWait q with wtimer := 1 }

theorem bothWaiting_PortsOk : (bothWaiting 2).PortsOk := by
  unfold State.PortsOk Port.Coherent
  decide

theorem witness_ClientTimeoutEndsTheWait :
    (∀ x ∈ [tickIn, CycleInput.quiet], ∀ p : PortId, p.val < 2 →
      (let s := bothWaiting 2
      resetsNow x s = false ∧ (s.port p).waiting = true ∧ ¬replyReaches s p)) ∧
      (bothWaiting 2).PortsOk ∧ (∃ t, cycleWith tickIn (bothWaiting 2) = .next t) ∧
      (∃ t, cycleWith CycleInput.quiet (bothWaiting 2) = .next t) ∧
      (tickIn.tick = true ∧ fresh.cfg.clientTimeout ≠ 0 ∧ 1 < ((bothWaiting 2).port 0).wtimer ∧
        ¬1 < ((bothWaiting 2).port 1).wtimer) ∧
      (let s := waitingForever
      resetsNow tickIn s = false ∧ (s.port 0).waiting = true ∧ ¬replyReaches s 0 ∧ s.cfg.clientTimeout = 0) ∧
      waitingForever.PortsOk ∧ (∃ t, cycleWith tickIn waitingForever = .next t) ∧
      (∀ s ∈ [waitingFor 0x02100000 .rdWait, queued],
        resetsNow tickIn s = false ∧ tickCounts tickIn s 0 ∧ ¬replyReaches s 0 ∧ tickIn.host = .idle ∧
          ∀ r : PortId, r ≠ 0 → engineIdle tickIn s r = true) ∧
      (waitingFor 0x02100000 .rdWait).PortsOk ∧ queued.PortsOk ∧ popsNow (waitingFor 0x02100000 .rdWait) = false :=
  ⟨by decide, bothWaiting_PortsOk, next_of _ (by decide), next_of _ (by decide), by decide, by decide, waiting_PortsOk,
    next_of _ (by decide), by decide, waiting_PortsOk, waiting_PortsOk, by decide⟩

theorem witness_BadAddressesAnswerAnError :
    (∀ n ∈ [0x0009, 0xFFFF], (BitVec.ofNat 16 n).toNat % 4 ≠ 0) ∧
      (∀ n ∈ [0x001C, 0x0038, 0x03FC, 0x0504, 0x07FC, 0x1904, 0x1FFC, 0x2000, 0xEFFC, 0xF018, 0xF0FC, 0xF11C, 0xFFFC],
        ¬mappedAddr fresh.cfg (BitVec.ofNat 16 n).toNat) ∧
      (∀ n ∈ [0x0000, 0x0018, 0x0020, 0x0034, 0x0400, 0x0500, 0x0800, 0x1900, 0xF000, 0xF014, 0xF100, 0xF118],
        (BitVec.ofNat 16 n).toNat % 4 = 0 ∧ mappedAddr fresh.cfg (BitVec.ofNat 16 n).toNat) ∧
      (∀ n ∈ [0x0010, 0x0034, 0x0800, 0x1900, 0xF000, 0xF004, 0xF010, 0xF118], readOnlyAddr (BitVec.ofNat 16 n).toNat) ∧
      (1 : PortId).val < fresh.cfg.numPorts ∧ params.idTable[0]? = some ⟨0x01, 0x01, .device⟩ ∧
      params.idTable[6]? = some ⟨0x28, 0x28, .temp100⟩ := by decide

theorem witness_PortRegistersReadAsLaidOut :
    (0 : PortId).val < fresh.cfg.numPorts ∧ (1 : PortId).val < fresh.cfg.numPorts := by decide

theorem witness_GlobalRegistersReadAsLaidOut :
    fresh.cfg.Valid ∧ fresh.cfg.idTable[0]? = some ⟨0x01, 0x01, .device⟩ ∧
      fresh.cfg.idTable[6]? = some ⟨0x28, 0x28, .temp100⟩ := by decide

/-- The host clears `DONE` of port 0 in a cycle in which the command placed there runs. -/
def clearDoneIn : CycleInput := { CycleInput.quiet with host := .write 0x0008 2 }

theorem witness_HostWriteTakesEffectInItsCycle :
    (let s := fresh.withFetchWord 32 0x06000000
    resetsNow clearDoneIn s = false ∧ clearDoneIn.host = .write 0x0008 2 ∧ clearDoneIn.rx = none ∧
      engineIdle clearDoneIn s 1 = true ∧ (s.port 0).busy = true ∧
      view Port.busy (cycleWith clearDoneIn s) = some false) ∧
      (fresh.withFetchWord 32 0x06000000).PortsOk ∧
      ∃ t, cycleWith clearDoneIn (fresh.withFetchWord 32 0x06000000) = .next t := by
  refine ⟨by decide, ?_, next_of _ (by decide)⟩
  unfold State.PortsOk Port.Coherent
  decide

theorem witness_BusyPortIgnoresWrites :
    (0 : PortId).val < queued.cfg.numPorts ∧ (queued.port 0).busy = true ∧
      ∀ off ∈ [0x004, 0x00C, 0x400, 0x500], off = 0x004 ∨ off = 0x00C ∨ (0x400 ≤ off ∧ off ≤ 0x500 ∧ off % 4 = 0) := by
  decide

theorem witness_CommandWriteIsAccepted : (1 : PortId).val < fresh.cfg.numPorts ∧ (fresh.port 1).busy = false := by
  decide

theorem witness_StatusWriteClearsFlags :
    (1 : PortId).val < fresh.cfg.numPorts ∧ (fresh.port 1).busy = false ∧ (0 : PortId).val < queued.cfg.numPorts ∧
      (queued.port 0).busy = true := by decide

theorem witness_DataInPacksLittleEndian :
    (1 : PortId).val < fresh.cfg.numPorts ∧ (fresh.port 1).busy = false ∧ ∀ w ∈ [0, 64], w < 65 := by decide

theorem witness_DinLoadsTheOperand :
    fresh.cfg.Valid ∧ (1 : PortId).val < fresh.cfg.numPorts ∧ (fresh.port 1).busy = false ∧
      ([] : List Byte).length ≤ fresh.cfg.frameMax ∧
      (List.replicate 259 (0x5A : Byte)).length ≤ fresh.cfg.frameMax :=
  ⟨by decide, by decide, by decide, by decide, List.length_replicate.le⟩

theorem witness_ReadsHaveNoSideEffect : CycleInput.quiet.host = .idle := rfl

theorem witness_ResetCycleResets :
    resetsNow { CycleInput.quiet with rstN := false } queued = true ∧
      resetsNow { CycleInput.quiet with host := .write 0xF00C 1 } queued = true ∧ (0x1 : Word).getLsbD 0 = true ∧
      ∀ a ∈ [HostAccess.idle, .read 0xF00C, .write 0xF00C 2, .write 0xF008 1, .write 0x000C 1],
        resetsNow { CycleInput.quiet with host := a } queued = false := by
  decide

theorem witness_ResetStateIsWellKept : params.Valid := test_valid_params

theorem witness_StepKeepsTheBuffersCanonical : midFrame.BuffersOk ∧ ∃ t, step midFrame = .next t := by
  refine ⟨?_, next_of _ (by decide)⟩
  unfold State.BuffersOk bufferOk
  decide

theorem midFrame_PortsOk : midFrame.PortsOk := waiting_PortsOk

theorem witness_StepKeepsThePortsCoherent : midFrame.PortsOk ∧ ∃ t, step midFrame = .next t :=
  ⟨midFrame_PortsOk, next_of _ (by decide)⟩

theorem witness_StepKeepsTheLineInOrder :
    midFrame.cfg.Valid ∧ (midFrame.LineOk ∧ midFrame.QueuesOk) ∧ ∃ t, step midFrame = .next t := by
  refine ⟨by decide, ⟨⟨by decide, ?_⟩, ?_⟩, next_of _ (by decide)⟩
  · show 3 ≤ midFrame.rxCnt.toNat ∧ midFrame.rxCnt.toNat < frameLength midFrame.cfg midFrame.rxLen ∧
      bufGet midFrame.cfg.frameMax midFrame.rxBuf 0 = 0x02 ∧ bufGet midFrame.cfg.frameMax midFrame.rxBuf 2 = midFrame.rxLen
    decide
  · exact queuesOk_of _ rfl rfl (by decide) rfl (by decide)

theorem queued_TagsOk : queued.TagsOk := by
  unfold State.TagsOk
  decide

theorem witness_StepKeepsTheTags : queued.PortsOk ∧ queued.TagsOk ∧ ∃ t, step queued = .next t :=
  ⟨waiting_PortsOk, queued_TagsOk, next_of _ (by decide)⟩

theorem witness_LiveRequestsNeverShareATag : queued.cfg.Valid ∧ queued.QueuesOk ∧ queued.TagsOk := by
  refine ⟨by decide, ?_, queued_TagsOk⟩
  unfold State.QueuesOk
  decide

theorem witness_OperandsAreStableWhileBusy :
    resetsNow midFrame.input midFrame = false ∧ (midFrame.port 0).busy = true ∧ ∃ t, step midFrame = .next t :=
  ⟨by decide, by decide, next_of _ (by decide)⟩

theorem witness_ResultsChangeOnlyAtCompletion :
    resetsNow midFrame.input midFrame = false ∧ midFrame.PortsOk ∧ ∃ t, step midFrame = .next t :=
  ⟨by decide, midFrame_PortsOk, next_of _ (by decide)⟩

/-- A cycle with a tick and a ready UART. -/
def fairIn : CycleInput := { tickIn with txReady := true }

/-- From every well-kept state there is a run with a fair environment. -/
theorem fair_run {s0 : State} (h : s0.WellKept) :
    ∃ x s, IsRun x s ∧ UartFair x ∧ TickFair x ∧ s 0 = s0 ∧ (s 0).WellKept := by
  obtain ⟨s, h0, hs⟩ := cycles_exist (fun _ => fairIn) s0
  exact ⟨_, s, fun n => ⟨rfl, hs n⟩, fun n => ⟨n, Nat.le_refl n, rfl⟩, fun n => ⟨n, Nat.le_refl n, rfl⟩, h0, h0 ▸ h⟩

theorem queued_WellKept : queued.WellKept := by
  refine ⟨by decide, waiting_PortsOk, ⟨by decide, ?_⟩, ?_, queued_TagsOk⟩
  · show queued.rxCnt.toNat ≤ queued.cfg.frameMax
    decide
  · unfold State.QueuesOk
    decide

theorem sending_WellKept : (sendingFrom 0).WellKept := by
  refine ⟨by decide, waiting_PortsOk, ⟨by decide, ?_⟩, sendingFrom_QueuesOk 0 (by decide), ?_⟩
  · show (sendingFrom 0).rxCnt.toNat ≤ (sendingFrom 0).cfg.frameMax
    decide
  · unfold State.TagsOk
    decide

theorem witness_ExchangesAndWaitsEnd :
    (∃ x s, IsRun x s ∧ UartFair x ∧ TickFair x ∧ s 0 = queued ∧ (s 0).WellKept) ∧ queued.rq[0]? = some ⟨0, 1, [0x02]⟩ ∧
      (queued.port 0).waiting = true ∧
      (∃ x s, IsRun x s ∧ UartFair x ∧ TickFair x ∧ s 0 = sendingFrom 0 ∧ (s 0).WellKept) ∧ (sendingFrom 0).arb = .tx :=
  ⟨fair_run queued_WellKept, by decide, by decide, fair_run sending_WellKept, rfl⟩

end Sys2Proof.Tests
end

/-!
PROOFS. The register map (R41), and what an access outside it or against a register's direction answers (R42, R43).
-/
namespace Sys2Proof.Machine

open Sys2Proof

/-! ### Which offsets hold a register -/

/-- From 0x038 on a port's window holds the two buffers and nothing else (R41). -/
theorem portRegAt_of_le {off : Nat} (h : 0x038 ≤ off) :
    portRegAt off =
      if 0x400 ≤ off ∧ off ≤ 0x503 then some (.dataIn ((off - 0x400) / 4))
      else if 0x800 ≤ off ∧ off ≤ 0x903 then some (.result ((off - 0x800) / 4))
      else none := by
  unfold portRegAt
  split
  case h_14 => rfl
  all_goals omega

/-- Below the buffers every aligned offset of a port's window but 0x01C holds a register (R41). -/
theorem portRegAt_isSome_of_lt : ∀ off < 0x038, off % 4 = 0 → ((portRegAt off).isSome ↔ off ≠ 0x01C) := by
  decide

/-- The aligned offsets of a port's window that hold a register (R41). -/
theorem exists_portRegAt_iff {off : Nat} (h4 : off % 4 = 0) :
    (∃ r, portRegAt off = some r) ↔
      off < 0x01C ∨ (0x020 ≤ off ∧ off < 0x038) ∨ (0x400 ≤ off ∧ off < 0x504) ∨ (0x800 ≤ off ∧ off < 0x904) := by
  rw [← Option.isSome_iff_exists]
  obtain hlow | hhigh := Nat.lt_or_ge off 0x038
  · rw [portRegAt_isSome_of_lt off hlow h4]
    omega
  · rw [portRegAt_of_le hhigh]
    split
    · simp only [Option.isSome_some, true_iff]
      omega
    · split
      · simp only [Option.isSome_some, true_iff]
        omega
      · simp only [Option.isSome_none, Bool.false_eq_true, false_iff]
        omega

/-- From 0x018 on the global window holds the id table and nothing else (R33, R41). -/
theorem globalRegAt_of_le {c : Params} {off : Nat} (h : 0x018 ≤ off) :
    globalRegAt c off = if 0x100 ≤ off then (c.idTable[(off - 0x100) / 4]?).map GlobalReg.idEntry else none := by
  unfold globalRegAt
  split
  case h_7 => rfl
  all_goals omega

/-- The aligned offsets of the global window that hold a register (R33, R41). -/
theorem exists_globalRegAt_iff {c : Params} {off : Nat} (h4 : off % 4 = 0) :
    (∃ r, globalRegAt c off = some r) ↔ off < 0x018 ∨ (0x100 ≤ off ∧ off < 0x100 + 4 * c.idTable.length) := by
  rw [← Option.isSome_iff_exists]
  obtain hlow | hhigh := Nat.lt_or_ge off 0x018
  · have hoff : off = 0x000 ∨ off = 0x004 ∨ off = 0x008 ∨ off = 0x00C ∨ off = 0x010 ∨ off = 0x014 := by omega
    rcases hoff with rfl | rfl | rfl | rfl | rfl | rfl <;> simp [globalRegAt]
  · rw [globalRegAt_of_le hhigh]
    split
    · simp only [Option.isSome_map, isSome_getElem?]
      omega
    · simp only [Option.isSome_none, Bool.false_eq_true, false_iff]
      omega

/-! ### Which addresses hold a register -/

/-- The addresses of the ports' registers (R41). -/
theorem exists_portReg_iff {c : Params} {addr : HostAddr} :
    (∃ p r, hostTarget c addr = .portReg p r) ↔
      addr.toNat % 4 = 0 ∧ ∃ p : PortId, addr.toNat / 0x1000 = p.val ∧ p.val < c.numPorts ∧
        (addr.toNat % 0x1000 < 0x01C ∨ (0x020 ≤ addr.toNat % 0x1000 ∧ addr.toNat % 0x1000 < 0x038) ∨
          (0x400 ≤ addr.toNat % 0x1000 ∧ addr.toNat % 0x1000 < 0x504) ∨
          (0x800 ≤ addr.toNat % 0x1000 ∧ addr.toNat % 0x1000 < 0x904)) := by
  simp only [hostTarget_eq_portReg, exists_and_left]
  exact and_congr_right fun h4 => by rw [exists_portRegAt_iff (by omega)]

/-- The addresses of the global registers (R33, R41). -/
theorem exists_globalReg_iff {c : Params} {addr : HostAddr} :
    (∃ r, hostTarget c addr = .globalReg r) ↔
      addr.toNat % 4 = 0 ∧ ((0xF000 ≤ addr.toNat ∧ addr.toNat < 0xF018) ∨
        (0xF100 ≤ addr.toNat ∧ addr.toNat < 0xF100 + 4 * c.idTable.length)) := by
  have hlt := addr.isLt
  simp only [hostTarget_eq_globalReg, exists_and_left]
  refine and_congr_right fun h4 => ?_
  rw [exists_globalRegAt_iff (by omega)]
  omega

/-- An access reaches a register exactly if it is aligned and the map holds its address (R41, R42). -/
theorem exists_register_iff {c : Params} {addr : HostAddr} :
    ((∃ p r, hostTarget c addr = .portReg p r) ∨ ∃ r, hostTarget c addr = .globalReg r) ↔
      addr.toNat % 4 = 0 ∧ mappedAddr c addr.toNat := by
  rw [exists_portReg_iff, exists_globalReg_iff, ← and_or_left]
  refine and_congr_right fun _ => or_congr_left ⟨?_, ?_⟩
  · rintro ⟨p, hp, hn, hoff⟩
    exact ⟨hp ▸ p.isLt, hp ▸ hn, hoff⟩
  · rintro ⟨h15, hn, hoff⟩
    exact ⟨⟨addr.toNat / 0x1000, h15⟩, rfl, hn, hoff⟩

/-! ### What an access answers -/

/-- `h_err` is 0 exactly where the access reaches a register (R42, R43). -/
theorem hostErr_eq_false_iff {c : Params} {addr : HostAddr} :
    hostErr c addr = false ↔ addr.toNat % 4 = 0 ∧ mappedAddr c addr.toNat := by
  rw [← exists_register_iff]
  unfold hostErr
  cases hostTarget c addr <;> simp

/-- A read answers the `h_err` of its address. -/
theorem hostRead_snd (s : State) (addr : HostAddr) : (hostRead s addr).2 = hostErr s.cfg addr := by
  unfold hostRead hostErr
  cases hostTarget s.cfg addr <;> rfl

/-- Where `h_err` is 1, a read answers 0 and a write changes nothing (R42, R43). -/
theorem access_of_hostErr {s : State} {addr : HostAddr} (h : hostErr s.cfg addr = true) (delay : Nat) (data : Word) :
    hostRead s addr = (0, true) ∧ hostWrite delay addr data s = s := by
  unfold hostErr at h
  unfold hostRead hostWrite
  cases ht : hostTarget s.cfg addr
  case misaligned => exact ⟨rfl, rfl⟩
  case unmapped => exact ⟨rfl, rfl⟩
  all_goals simp [ht] at h

/-- A read of `GCTRL`, which is write-only, answers 0 (R32, R43). -/
theorem hostRead_gctrl (s : State) : hostRead s 0xF00C = (0, false) := by
  simp only [hostRead, hostTarget_gctrl.2 rfl, readGlobalReg]

/-! ### Read-only registers -/

/-- The registers of a port's window that a host write can act on (R25 to R29, R44). -/
def PortReg.writable : PortReg → Bool
  | .ctrl | .cmd | .status | .dinLen | .dataIn _ => true
  | .resLen | .dataType | .rawval | .field _ | .result _ => false

/-- The other registers of a port ignore a write (R43). -/
theorem writePortReg_of_not_writable {r : PortReg} (h : r.writable = false) (c : Params) (delay : Nat) (data : Word)
    (q : Port) : writePortReg c delay r data q = q := by
  cases r
  case resLen | dataType | rawval | field | result => rfl
  all_goals cases h

/-- From `RES_LEN` to the fields no register of a port is writable. -/
theorem portRegAt_not_writable_of_lt :
    ∀ off < 0x038, 0x010 ≤ off → ∀ r ∈ portRegAt off, r.writable = false := by
  decide

/-- From `RES_LEN` on only the window `DATA_IN` is writable (R30, R41, R43). -/
theorem portRegAt_not_writable {off : Nat} {r : PortReg} (hr : portRegAt off = some r) (hres : 0x010 ≤ off)
    (hdin : off < 0x400 ∨ 0x504 ≤ off) : r.writable = false := by
  obtain hlow | hhigh := Nat.lt_or_ge off 0x038
  · exact portRegAt_not_writable_of_lt off hlow hres r hr
  · rw [portRegAt_of_le hhigh, if_neg (by omega)] at hr
    split at hr
    · cases hr
      rfl
    · cases hr

/-- Of the global registers only `ARB_STATUS` takes a write into the state (R32, R48). -/
theorem writeGlobalReg_of_ne {r : GlobalReg} (hr : r ≠ .arbStatus) (data : Word) (s : State) :
    writeGlobalReg r data s = s := by
  cases r
  case arbStatus => exact absurd rfl hr
  all_goals rfl

/-- A write to a read-only register changes nothing (R43). -/
theorem hostWrite_readOnly {addr : HostAddr} (h : readOnlyAddr addr.toNat) (delay : Nat) (data : Word) (s : State) :
    hostWrite delay addr data s = s := by
  unfold hostWrite
  split
  · rfl
  · rfl
  · next p r ht =>
    obtain ⟨-, hp, -, hr⟩ := hostTarget_eq_portReg.1 ht
    have hp15 := p.isLt
    have hw : r.writable = false := portRegAt_not_writable hr (by omega) (by omega)
    rw [State.modPort, writePortReg_of_not_writable hw, setPort_port]
  · next r ht =>
    refine writeGlobalReg_of_ne (fun he => ?_) data s
    obtain rfl : addr = 0xF008 := hostTarget_arbStatus.1 (he ▸ ht)
    revert h
    decide

/-! ### The statement -/

/-- Settles O43: `hostErr_eq_false_iff` says which addresses the map holds, and each window's map names their registers. -/
theorem badAddressesAnswerAnError : Obligations.BadAddressesAnswerAnError := by
  refine ⟨fun s addr data delay => ⟨fun hbad => ?_, fun h4 hm => ?_, fun hro => ?_⟩, fun s p hp => ⟨?_, ?_⟩,
    fun c => ⟨fun p hp => ⟨fun e he => ?_, fun w hw => ⟨?_, ?_⟩⟩, ?_, fun k e hk he => ?_⟩⟩
  · have herr : hostErr s.cfg addr = true := by
      rw [← Bool.not_eq_false, hostErr_eq_false_iff]
      exact not_and_or.2 hbad
    obtain ⟨hread, hwrite⟩ := access_of_hostErr herr delay data
    exact ⟨hread, herr, hwrite⟩
  · have herr : hostErr s.cfg addr = false := hostErr_eq_false_iff.2 ⟨h4, hm⟩
    exact ⟨(hostRead_snd s addr).trans herr, herr⟩
  · exact hostWrite_readOnly hro delay data s
  · exact hostRead_portAddr (r := .cmd) hp (by decide) rfl rfl
  · exact hostRead_gctrl s
  · have hmap : e.1 < 0x1000 ∧ e.1 % 4 = 0 ∧ portRegAt e.1 = some e.2 := by
      revert e
      decide
    obtain ⟨ho, h4, hr⟩ := hmap
    exact hostTarget_portAddr hp ho h4 hr
  · exact hostTarget_portAddr hp (by omega) (by omega) (portRegAt_dataIn hw)
  · exact hostTarget_portAddr hp (by omega) (by omega) (portRegAt_result hw)
  · simp only [List.mem_cons, List.not_mem_nil, or_false]
    rintro e (rfl | rfl | rfl | rfl | rfl | rfl) <;> exact hostTarget_eq_globalReg.2 ⟨rfl, by decide, rfl⟩
  · exact hostTarget_idEntry hk he

end Sys2Proof.Machine

/-!
PROOFS. The additive checksum (R72, R73), and the round trip of `ENCODE` and `VALIDATE` (R86, R88 to R90).
-/
namespace Sys2Proof.Machine

open Sys2Proof

/-! ### The checksum as a sum -/

@[simp] theorem csum_nil : csum [] = 0 := rfl

/-- The 8-bit accumulator holds the sum of the bytes in 8-bit arithmetic (R72). -/
theorem csum_eq_sum (bs : List Byte) : csum bs = bs.sum := by
  induction bs with
  | nil => rfl
  | cons b bs ih => rw [csum_cons, List.sum_cons, ih]

/-- As a number the checksum is the sum of the bytes mod 256 (R72). -/
theorem toNat_csum (bs : List Byte) : (csum bs).toNat = (bs.map BitVec.toNat).sum % 256 := by
  induction bs with
  | nil => rfl
  | cons b bs ih => rw [csum_cons, BitVec.toNat_add, ih, List.map_cons, List.sum_cons, Nat.add_mod_mod]

theorem csum_append (a b : List Byte) : csum (a ++ b) = csum a + csum b := by
  simp only [csum_eq_sum, List.sum_append]

/-- Repeating a byte multiplies it in 8-bit arithmetic, so 256 equal bytes have the checksum 0 (R72). -/
theorem csum_replicate (n : Nat) (b : Byte) : csum (List.replicate n b) = n * b := by
  rw [csum_eq_sum, List.sum_replicate, nsmul_eq_mul]

theorem csum_perm {bs cs : List Byte} (h : bs.Perm cs) : csum bs = csum cs := by
  rw [csum_eq_sum, csum_eq_sum, h.sum_eq]

/-- Replacing byte `i` by `v` moves the checksum by `v - bs[i]` (R73). -/
theorem csum_set {bs : List Byte} {i : Nat} (hi : i < bs.length) (v : Byte) :
    csum (bs.set i v) = csum bs + (v - bs.getD i 0) := by
  rw [csum_eq_sum, csum_eq_sum, List.sum_set', dif_pos hi, List.getD_eq_getElem _ _ hi, neg_add_eq_sub]

/-- A transposition is two replacements whose changes cancel, so the checksum does not see it (R73). -/
theorem csum_swap {bs : List Byte} {i j : Nat} (hi : i < bs.length) (hj : j < bs.length) :
    csum ((bs.set i (bs.getD j 0)).set j (bs.getD i 0)) = csum bs := by
  have hj' : j < (bs.set i (bs.getD j 0)).length := by rwa [List.length_set]
  have hold : (bs.set i (bs.getD j 0)).getD j 0 = bs.getD j 0 := by
    rw [List.getD_eq_getElem _ _ hj', List.getElem_set, ← List.getD_eq_getElem _ 0 hj, ite_self]
  rw [csum_set hj', hold, csum_set hi]
  ring

/-! ### The bytes a frame's checksum covers -/

theorem length_csumBody (f : List Byte) : (csumBody f).length = f.length - 2 := by
  simp only [csumBody, List.length_take, List.length_drop]
  omega

/-- Covered byte `k` is the frame's byte `k + 1` (R63, R72). -/
theorem getElem?_csumBody {f : List Byte} {k : Nat} (hk : k < f.length - 2) : (csumBody f)[k]? = f[k + 1]? := by
  rw [csumBody, List.getElem?_take_of_lt hk, List.getElem?_drop, Nat.add_comm]

/-- Settles O7: `csum_eq_sum` makes the checksum a sum, which no order of the bytes changes. -/
theorem checksumIsTheSumOfTheBytes : Obligations.ChecksumIsTheSumOfTheBytes :=
  ⟨toNat_csum, fun _ _ => csum_perm, fun f => ⟨length_csumBody f, fun _ => getElem?_csumBody⟩,
    csum_nil, csum_replicate 256 0x01, rfl, rfl⟩

/-- Settles O8: the laws of sums in a commutative group. -/
theorem checksumLawsHold : Obligations.ChecksumLawsHold :=
  ⟨csum_append, fun _ _ v hi => csum_set hi v, fun _ _ _ => csum_swap⟩

/-! ### The frame `ENCODE` builds -/

/-- The checksum of a frame made of a marker, a body and a trailing byte covers the body (R63, R88). -/
theorem csumBody_marker_append (m : Byte) (body : List Byte) (c : Byte) : csumBody (m :: body ++ [c]) = body := by
  simp [csumBody]

theorem csumBody_requestFrame (op id : Byte) (pl : List Byte) :
    csumBody (requestFrame op id pl) = [op, 0x02, 0x00, id] ++ pl := csumBody_marker_append _ _ _

/-- The checksum computed over a request frame is its trailing byte. -/
theorem csum_csumBody_requestFrame (op id : Byte) (pl : List Byte) :
    csum (csumBody (requestFrame op id pl)) = trailer (requestFrame op id pl) := by
  rw [csumBody_requestFrame, trailer_requestFrame]

theorem crcPasses_requestFrame (op id : Byte) (pl : List Byte) : crcPasses (requestFrame op id pl) = true :=
  decide_eq_true (csum_csumBody_requestFrame op id pl)

/-! ### Frames in buffers -/

/-- Buffers that agree on their first `n` bytes hold the same `n` bytes. -/
theorem bufTake_congr {lim : Nat} {m m' : Memory} {n : Nat} (h : ∀ k, k < n → bufGet lim m k = bufGet lim m' k) :
    bufTake lim m n = bufTake lim m' n :=
  List.map_congr_left fun k hk => h k (List.mem_range.1 hk)

/-- One byte more of a buffer. -/
theorem bufTake_succ (lim : Nat) (m : Memory) (n : Nat) : bufTake lim m (n + 1) = bufTake lim m n ++ [bufGet lim m n] := by
  simp only [bufTake, List.range_succ, List.map_append, List.map_cons, List.map_nil]

/-- The trailing byte of a buffered frame is its last byte. -/
theorem trailer_bufTake {lim : Nat} {m : Memory} {n : Nat} (hn : 0 < n) :
    trailer (bufTake lim m n) = bufGet lim m (n - 1) := by
  obtain ⟨n, rfl⟩ : ∃ l, n = l + 1 := ⟨n - 1, by omega⟩
  rw [bufTake_succ, trailer_append, Nat.add_sub_cancel]

/-! ### The two commands within their limits -/

/-- `ENCODE` within its limit completes with the request frame and its trailing byte (R88). -/
theorem exec_encode {s : State} (h : (s.port s.active).dinLen.toNat ≤ s.cfg.frameMax - 6) (op id : Byte) :
    exec (.encode op id) s =
      let frame := requestFrame op id ((s.port s.active).dinBytes s.cfg.frameMax)
      .next (s.modPort s.active
        (Port.completeFrame s.cfg.frameMax .none (trailer frame) frame .rawOnly Fields.zero)) :=
  congrArg _ (if_pos (argsOk_encode.2 h))

/-- `VALIDATE` within its limits completes with the verdict on the bytes of `DATA_IN` (R90). -/
theorem exec_validate {s : State} (h2 : 2 ≤ (s.port s.active).dinLen.toNat)
    (hF : (s.port s.active).dinLen.toNat ≤ s.cfg.frameMax) :
    exec .validate s =
      let frame := (s.port s.active).dinBytes s.cfg.frameMax
      .next (s.modPort s.active fun q =>
        (q.putStatus (if crcPasses frame then .none else .crc) (csum (csumBody frame))).finish) :=
  congrArg _ (if_pos (argsOk_validate.2 ⟨h2, hF⟩))

/-- What `ENCODE` within its limit leaves in the result registers of its port: the frame and its trailing byte (R88). -/
theorem encode_results {op id : Byte} {s t : State} (hv : s.cfg.Valid)
    (hlen : (s.port s.active).dinLen.toNat ≤ s.cfg.frameMax - 6) (ht : exec (.encode op id) s = .next t) :
    let frame := requestFrame op id ((s.port s.active).dinBytes s.cfg.frameMax)
    (t.port s.active).crcv = trailer frame ∧ (t.port s.active).resLen.toNat = frame.length ∧
      (t.port s.active).resultFrame s.cfg.frameMax = frame := by
  obtain ⟨hF, hF'⟩ := frameMax_of_valid hv
  rw [exec_encode hlen] at ht
  cases ht
  have hfit : (requestFrame op id ((s.port s.active).dinBytes s.cfg.frameMax)).length ≤ s.cfg.frameMax := by
    rw [length_requestFrame, length_dinBytes]
    omega
  rw [port_modPort_self]
  exact ⟨completeFrame_crcv .., toNat_resLen_completeFrame (by omega), resultFrame_completeFrame hfit (by omega)⟩

/-- Settles O11: the operand of `VALIDATE` is the request frame, whose checksum is its trailing byte. -/
theorem validateAcceptsWhatEncodeBuilt : Obligations.ValidateAcceptsWhatEncodeBuilt := by
  intro op id s t u v hv hlen ht hcfg hlenEq hbytes hvu
  obtain ⟨hF, -⟩ := frameMax_of_valid hv
  obtain ⟨hcrcv, hresLen, hframe⟩ := encode_results hv hlen ht
  rw [length_requestFrame, length_dinBytes] at hresLen
  have hdin : (u.port u.active).dinBytes u.cfg.frameMax =
      requestFrame op id ((s.port s.active).dinBytes s.cfg.frameMax) := by
    rw [← hframe, Port.dinBytes, Port.dinCount, hlenEq, hcfg]
    exact bufTake_congr hbytes
  have hlast : bufGet s.cfg.frameMax (t.port s.active).res ((t.port s.active).resLen.toNat - 1) =
      trailer (requestFrame op id ((s.port s.active).dinBytes s.cfg.frameMax)) := by
    rw [← hframe]
    exact (trailer_bufTake (by omega)).symm
  rw [exec_validate (by rw [hlenEq]; omega) (by rw [hlenEq, hcfg]; omega), hdin] at hvu
  cases hvu
  rw [port_modPort_self]
  have hcsum := csum_csumBody_requestFrame op id ((s.port s.active).dinBytes s.cfg.frameMax)
  exact ⟨if_pos (crcPasses_requestFrame ..), hcsum.trans hcrcv.symm, hlast.trans hcsum.symm⟩

end Sys2Proof.Machine

/-!
PROOFS. The receive framer from arming to a whole frame (R75 to R80).
-/
namespace Sys2Proof.Machine

open Sys2Proof

/-! ### What the framer does with a byte in each waiting state -/

/-- AWAIT_MARKER takes the marker (R76). -/
theorem takeByte_marker {s : State} (h : s.rxState = .awaitMarker) :
    takeByte 0x02 s =
      { s with
        rxTimer := s.cfg.byteTimeout, rxBuf := bufPut s.cfg.frameMax s.rxBuf 0 0x02, rxCnt := 1,
        rxState := .awaitHeader1 } := by
  simp only [takeByte, h, takeMarker, if_true]

/-- AWAIT_HEADER1 takes any byte (R77). -/
theorem takeByte_header1 {s : State} (h : s.rxState = .awaitHeader1) (b : Byte) :
    takeByte b s =
      { s with
        rxTimer := s.cfg.byteTimeout, rxBuf := bufPut s.cfg.frameMax s.rxBuf 1 b, rxCnt := 2,
        rxState := .awaitHeader2 } := by
  simp only [takeByte, h, takeHeader1]

/-- AWAIT_HEADER2 takes the declared length (R78). -/
theorem takeByte_header2 {s : State} (h : s.rxState = .awaitHeader2) (n : Byte) :
    takeByte n s =
      { s with
        rxTimer := s.cfg.byteTimeout, rxBuf := bufPut s.cfg.frameMax s.rxBuf 2 n, rxCnt := 3, rxLen := n,
        rxState := .accum } := by
  simp only [takeByte, h, takeHeader2]

/-- ACCUM appends the byte and is complete at `N + TERM_BIAS` bytes (R79). -/
theorem takeByte_accum {s : State} (h : s.rxState = .accum) (b : Byte) :
    takeByte b s =
      { s with
        rxTimer := s.cfg.byteTimeout, rxBuf := bufPut s.cfg.frameMax s.rxBuf s.rxCnt.toNat b, rxCnt := s.rxCnt + 1,
        rxState := if s.rxLen.toNat + s.cfg.termBias ≤ (s.rxCnt + 1).toNat then .complete else .accum } := by
  simp only [takeByte, h, takeAccum]

/-! ### The bytes so far -/

/-- The frame has `rx_cnt` bytes (R83). -/
@[simp] theorem length_rxFrame (s : State) : s.rxFrame.length = s.rxCnt.toNat := length_bufTake _ _ _

/-- Writing a buffer's next byte appends it to the bytes before it. -/
theorem bufTake_bufPut_succ {lim : Nat} (m : Memory) {k : Nat} (hk : k < lim) (b : Byte) :
    bufTake lim (bufPut lim m k b) (k + 1) = bufTake lim m k ++ [b] := by
  have hold : bufTake lim (bufPut lim m k b) k = bufTake lim m k := bufTake_congr fun i hi => by
    rw [bufGet_of_lt (by omega), bufGet_of_lt (by omega), read_bufPut, if_neg (by omega)]
  rw [bufTake_succ, hold, bufGet_of_lt hk, read_bufPut, if_pos ⟨rfl, hk⟩]

theorem frameLength_le_frameMax {c : Params} (hv : c.Valid) (n : Byte) : frameLength c n ≤ c.frameMax := by
  have hF := (frameMax_of_valid hv).1
  have hn := n.isLt
  unfold frameLength
  unfold Params.frameMax at hF ⊢
  omega

/-! ### Accumulating a frame -/

/-- The framer of a build `c` is in ACCUM with the bytes `f` of a frame that declares the length `n`. -/
def Accumulating (c : Params) (n : Byte) (f : List Byte) (s : State) : Prop :=
  s.cfg = c ∧ s.rxState = .accum ∧ s.rxLen = n ∧ s.rxFrame = f

/-- The marker, any byte and a length bring an armed framer to ACCUM with these three bytes (R76 to R78). -/
theorem accumulating_of_armed {s : State} (hv : s.cfg.Valid) (hs : s.rxState = .awaitMarker) (code n : Byte) :
    Accumulating s.cfg n [0x02, code, n] (takeByte n (takeByte code (takeByte 0x02 s))) := by
  have hF := (frameMax_of_valid hv).1
  rw [takeByte_marker hs, takeByte_header1 rfl code, takeByte_header2 rfl n]
  refine ⟨rfl, rfl, rfl, ?_⟩
  calc bufTake s.cfg.frameMax (bufPut s.cfg.frameMax (bufPut s.cfg.frameMax (bufPut s.cfg.frameMax s.rxBuf 0 0x02) 1 code)
          2 n) 3
      = bufTake s.cfg.frameMax s.rxBuf 0 ++ [0x02] ++ [code] ++ [n] := by
        rw [bufTake_bufPut_succ _ (by omega), bufTake_bufPut_succ _ (by omega), bufTake_bufPut_succ _ (by omega)]
    _ = [0x02, code, n] := rfl

/-- In ACCUM one more byte is appended, and the frame is complete exactly if that makes `max(4, N + TERM_BIAS)` bytes: with
three bytes there, the first one makes four (R79, R80). -/
theorem takeByte_accumulating {c : Params} {n : Byte} {f : List Byte} {s : State} (hv : c.Valid)
    (hs : Accumulating c n f s) (h3 : 3 ≤ f.length) (hf : f.length < frameLength c n) (b : Byte) :
    (takeByte b s).cfg = c ∧ (takeByte b s).rxLen = n ∧ (takeByte b s).rxFrame = f ++ [b] ∧
      (takeByte b s).rxState = if f.length + 1 = frameLength c n then .complete else .accum := by
  obtain ⟨rfl, hst, rfl, rfl⟩ := hs
  have hlim := frameLength_le_frameMax hv s.rxLen
  have hF := (frameMax_of_valid hv).2
  rw [length_rxFrame] at h3 hf ⊢
  have hcnt : (s.rxCnt + 1).toNat = s.rxCnt.toNat + 1 := by
    rw [BitVec.toNat_add]
    exact Nat.mod_eq_of_lt (by simp; omega)
  have hdone : s.rxLen.toNat + s.cfg.termBias ≤ (s.rxCnt + 1).toNat ↔ s.rxCnt.toNat + 1 = frameLength s.cfg s.rxLen := by
    unfold frameLength at hf ⊢
    omega
  rw [takeByte_accum hst]
  refine ⟨rfl, rfl, ?_, if_congr hdone rfl rfl⟩
  calc bufTake s.cfg.frameMax (bufPut s.cfg.frameMax s.rxBuf s.rxCnt.toNat b) (s.rxCnt + 1).toNat
      = bufTake s.cfg.frameMax s.rxBuf s.rxCnt.toNat ++ [b] := by rw [hcnt, bufTake_bufPut_succ _ (by omega)]

/-- Fewer bytes than a whole frame leave the framer in ACCUM with all of them (R79, R80). -/
theorem foldl_accumulating {c : Params} {n : Byte} (hv : c.Valid) (rest : List Byte) {f : List Byte} {s : State}
    (hs : Accumulating c n f s) (h3 : 3 ≤ f.length) (hlt : f.length + rest.length < frameLength c n) :
    Accumulating c n (f ++ rest) (rest.foldl (fun u b => takeByte b u) s) := by
  induction rest generalizing f s with
  | nil => simpa using hs
  | cons b rest ih =>
    rw [List.length_cons] at hlt
    obtain ⟨hcfg, hlen, hframe, hst⟩ := takeByte_accumulating hv hs h3 (by omega) b
    rw [if_neg (by omega)] at hst
    have hnext := ih ⟨hcfg, hst, hlen, hframe⟩ (by simp; omega) (by simp; omega)
    rwa [List.append_assoc, List.singleton_append] at hnext

/-- Settles O31: `foldl_accumulating` up to the byte before the last, and `takeByte_accumulating` for the last one. -/
theorem framerCompletesAtTheDeclaredLength : Obligations.FramerCompletesAtTheDeclaredLength := by
  intro s code n rest hv hst _
  have hhead := accumulating_of_armed hv hst code n
  dsimp only
  rw [List.foldl_append]
  refine ⟨fun (hlen : rest.length + 3 = frameLength s.cfg n) => ?_,
    fun (hlt : rest.length + 3 < frameLength s.cfg n) => ?_⟩
  · obtain rfl | ⟨init, b, rfl⟩ := rest.eq_nil_or_concat'
    · have h4 : 4 ≤ frameLength s.cfg n := Nat.le_max_left _ _
      rw [List.length_nil] at hlen
      omega
    · rw [List.length_append, List.length_singleton] at hlen
      have hinit := foldl_accumulating hv init hhead (Nat.le_refl 3) (by simp; omega)
      obtain ⟨-, -, hframe, hdone⟩ := takeByte_accumulating hv hinit (by simp) (by simp; omega) b
      rw [if_pos (by simp; omega)] at hdone
      rw [List.foldl_append, ← List.append_assoc]
      exact ⟨hdone, hframe⟩
  · obtain ⟨-, hacc, -, hframe⟩ := foldl_accumulating hv rest hhead (Nat.le_refl 3) (by simp; omega)
    exact ⟨hacc, by simpa using congrArg List.length hframe, hframe⟩

end Sys2Proof.Machine

/-!
The classifier: which ids an entry of the id table matches, and that the first match in table order gives the type.
-/
namespace Sys2Proof.Machine

open Sys2Proof

/-! ### What an entry matches -/

theorem matchesId_iff {e : IdEntry} {id : Byte} :
    IdEntry.matchesId e id = true ↔ id = e.idStart ∨ e.idStart ≤ e.idEnd ∧ e.idStart ≤ id ∧ id ≤ e.idEnd := by
  simp only [IdEntry.matchesId, Bool.or_eq_true, Bool.and_eq_true, decide_eq_true_eq, and_assoc]

/-- A reversed entry has no range, so only its start is left (R93). -/
theorem matchesId_of_reversed {e : IdEntry} (h : e.idEnd < e.idStart) (id : Byte) :
    IdEntry.matchesId e id = true ↔ id = e.idStart := by
  rw [matchesId_iff]
  exact or_iff_left fun ⟨hle, _⟩ => BitVec.not_le.mpr h hle

/-- Between equal bounds lies their one value (R93). -/
theorem matchesId_of_single {e : IdEntry} (h : e.idEnd = e.idStart) (id : Byte) :
    IdEntry.matchesId e id = true ↔ id = e.idStart := by
  rw [matchesId_iff]
  exact or_iff_left_of_imp fun ⟨_, hlo, hhi⟩ => BitVec.le_antisymm (h ▸ hhi) hlo

/-- The range of a proper entry holds its start, so the range alone decides (R93). -/
theorem matchesId_of_range {e : IdEntry} (h : e.idStart < e.idEnd) (id : Byte) :
    IdEntry.matchesId e id = true ↔ e.idStart ≤ id ∧ id ≤ e.idEnd := by
  have hle : e.idStart ≤ e.idEnd := BitVec.le_of_lt h
  rw [matchesId_iff, and_iff_right hle]
  refine or_iff_right_of_imp ?_
  rintro rfl
  exact ⟨BitVec.le_refl _, hle⟩

/-! ### What a table gives -/

/-- The classifier is a search for the first entry that matches (R92). -/
theorem classify_eq_find? (table : List IdEntry) (id : Byte) :
    classify table id = ((table.find? (IdEntry.matchesId · id)).map IdEntry.dataType).getD .rawOnly := by
  induction table with
  | nil => rfl
  | cons e rest ih =>
    cases hm : IdEntry.matchesId e id with
    | true => simp [classify, hm]
    | false => simp [classify, hm, ih]

theorem classify_eq_of_first_match {before : List IdEntry} {e : IdEntry} {id : Byte} (after : List IdEntry)
    (hbefore : ∀ d ∈ before, IdEntry.matchesId d id = false) (he : IdEntry.matchesId e id = true) :
    classify (before ++ e :: after) id = e.dataType := by
  have hnone : before.find? (IdEntry.matchesId · id) = none := by simpa using hbefore
  have hfirst : (e :: after).find? (IdEntry.matchesId · id) = some e := List.find?_cons_of_pos he
  rw [classify_eq_find?, List.find?_append, hnone, Option.none_or, hfirst]
  rfl

theorem classify_eq_rawOnly_of_no_match {table : List IdEntry} {id : Byte}
    (hnone : ∀ d ∈ table, IdEntry.matchesId d id = false) : classify table id = .rawOnly := by
  have hfind : table.find? (IdEntry.matchesId · id) = none := by simpa using hnone
  rw [classify_eq_find?, hfind]
  rfl

/-- Settles O13: the three kinds of entry, and `classify_eq_find?` for a table with and without a match. -/
theorem firstMatchingEntryGivesTheType : Obligations.FirstMatchingEntryGivesTheType :=
  ⟨fun _ id => ⟨fun h => matchesId_of_reversed h id, fun h => matchesId_of_single h id, fun h => matchesId_of_range h id⟩,
    fun _ after _ _ => classify_eq_of_first_match after, fun _ _ => classify_eq_rawOnly_of_no_match⟩

end Sys2Proof.Machine

/-!
PROOFS. The outcomes of an exchange (R112), and how the controller collects them (R118).
-/
namespace Sys2Proof.Machine

open Sys2Proof

/-! ### What a framer at rest gives -/

/-- A complete frame, its checksum and trailing byte read off the receive buffer (R86, R112). -/
theorem exchangeResult_complete {s : State} (hs : s.rxState = .complete) (hcnt : 0 < s.rxCnt.toNat) :
    exchangeResult s =
      let c := csum ((s.rxFrame.drop 1).take (s.rxCnt.toNat - 2))
      some
        { err := if c = bufGet s.cfg.frameMax s.rxBuf (s.rxCnt.toNat - 1) then .none else .crc, crcv := c,
          raw := s.rxFrame } := by
  have hbody : csumBody s.rxFrame = (s.rxFrame.drop 1).take (s.rxCnt.toNat - 2) := by rw [csumBody, length_rxFrame]
  have hlast : trailer s.rxFrame = bufGet s.cfg.frameMax s.rxBuf (s.rxCnt.toNat - 1) := trailer_bufTake hcnt
  simp only [exchangeResult, hs, crcPasses, decide_eq_true_eq, hbody, hlast]

theorem exchangeResult_errProtocol {s : State} (hs : s.rxState = .errProtocol) :
    exchangeResult s = some { err := .protocol, crcv := 0, raw := [] } := by
  simp only [exchangeResult, hs]

theorem exchangeResult_errTimeout {s : State} (hs : s.rxState = .errTimeout) :
    exchangeResult s = some { err := .timeout, crcv := 0, raw := [] } := by
  simp only [exchangeResult, hs]

/-! ### The controller in ARB_RX -/

/-- With a result there the controller builds the reply of the request in service, and idles the framer (R118). -/
theorem arbiterTurn_rx_some {s0 : State} {r : TransportResult} (ha : s0.arb = .rx) (hx : exchangeResult s0 = some r)
    (x : CycleInput) (s : State) :
    arbiterTurn x s0 s =
      { s with reply := { port := s0.cur.port, tag := s0.cur.tag, result := r }, rxState := .idle, arb := .reply } := by
  simp only [arbiterTurn, ha, hx]

/-- Without a result the controller waits (R118). -/
theorem arbiterTurn_rx_none {s0 : State} (ha : s0.arb = .rx) (hx : exchangeResult s0 = none) (x : CycleInput) (s : State) :
    arbiterTurn x s0 s = s := by
  simp only [arbiterTurn, ha, hx]

/-- The agents before the controller leave its state as it is. -/
theorem arb_receiveTurn_hostTurn (x : CycleInput) (s : State) :
    (receiveTurn x s (hostTurn x (s.outputs x))).arb = s.arb :=
  (congrArg State.arb (receiveTurn_frame x s (hostTurn x (s.outputs x))) :).trans
    (congrArg State.arb (hostTurn_frame x (s.outputs x)) :)

/-- What a cycle of ARB_RX leaves of the controller and the framer is the controller's turn: the engines change neither. -/
theorem cycleWith_rx {x : CycleInput} {s t : State} (hr : resetsNow x s = false) (ha : s.arb = .rx)
    (h : cycleWith x s = .next t) :
    t.arb = (beforeEngines x s).arb ∧ t.reply = (beforeEngines x s).reply ∧ t.rxState = (beforeEngines x s).rxState := by
  obtain ⟨_, -, -, -, hE⟩ := cycleWith_line hr h (.inr ha)
  exact ⟨(congrArg State.arb hE :), (congrArg State.reply hE :), (congrArg State.rxState hE :)⟩

theorem collects_of_result {x : CycleInput} {s t : State} {r : TransportResult} (hr : resetsNow x s = false)
    (ha : s.arb = .rx) (hx : exchangeResult s = some r) (h : cycleWith x s = .next t) :
    t.reply = { port := s.cur.port, tag := s.cur.tag, result := r } ∧ t.rxState = .idle ∧ t.arb = .reply := by
  obtain ⟨harb, hreply, hrx⟩ := cycleWith_rx hr ha h
  rw [beforeEngines, arbiterTurn_rx_some ha hx] at harb hreply hrx
  exact ⟨hreply, hrx, harb⟩

theorem waits_of_no_result {x : CycleInput} {s t : State} (hr : resetsNow x s = false) (ha : s.arb = .rx)
    (hx : exchangeResult s = none) (h : cycleWith x s = .next t) : t.arb = .rx := by
  obtain ⟨harb, -, -⟩ := cycleWith_rx hr ha h
  rw [beforeEngines, arbiterTurn_rx_none ha hx, arb_receiveTurn_hostTurn] at harb
  exact harb.trans ha

/-- Settles O36: the result of each framer at rest, and the cycle of ARB_RX by whether there is a result. -/
theorem exchangeOutcomes : Obligations.ExchangeOutcomes := by
  intro s
  refine ⟨fun hs h2 _ => exchangeResult_complete hs (by omega), exchangeResult_errProtocol, exchangeResult_errTimeout,
    fun x t hr ha h => ?_⟩
  cases hx : exchangeResult s with
  | some r => exact collects_of_result hr ha hx h
  | none => exact waits_of_no_result hr ha hx h

end Sys2Proof.Machine

/-!
PROOFS. The first half of the register operations (R131, R132, R135): the read request and its submission.
-/
namespace Sys2Proof.Machine

open Sys2Proof

/-! ### The read request -/

/-- The six bytes of a read request, the last one the sum of the four between it and the marker (R131). -/
theorem readRequest_eq (c : Params) (id : Byte) :
    readRequest c id = [0x02, c.readOpcode, 0x02, 0x00, id, c.readOpcode + 0x02 + 0x00 + id] := by
  simp [readRequest, requestFrame, csum]

/-! ### Submitting with room in the queue -/

/-- With room in the queue a submission has a state, and `submits` says which (R114). -/
theorem exists_submit {s : State} (h : s.rq.length ≠ s.cfg.qDepth) (p : PortId) (w : SeqState) (bs : List Byte) :
    ∃ t, s.submit p w bs = some t ∧ submits p w bs s t :=
  ⟨_, submit_some h, submits_of_submit (submit_some h)⟩

/-- `READ` answers the state of its submission (R132). -/
theorem exec_read_of_submit {s t : State} {id : Byte}
    (h : s.submit s.active .rdWait (readRequest s.cfg id) = some t) : exec (.read id) s = .next t := by
  simp only [exec, execRead, h]

/-- `WRITE_DRY` within its limit answers the state of its submission (R135, R138). -/
theorem exec_writeDry_of_submit {s t : State} {id offset : Byte}
    (hn : (s.port s.active).dinLen.toNat ≤ s.cfg.frameMax)
    (h : s.submit s.active .wrReadWait (readRequest s.cfg id) = some t) : exec (.writeDry id offset) s = .next t := by
  have hargs : argsOk s.cfg (.writeDry id offset) (s.port s.active).dinCount = true := argsOk_writeDry.2 hn
  simp only [exec, execWriteDry, hargs, h, if_true]

/-- `WRITE_COMMIT` within its limit answers the state of its submission (R135, R139). -/
theorem exec_writeCommit_of_submit {s t : State} {id offset : Byte}
    (hn : (s.port s.active).dinLen.toNat ≤ s.cfg.frameMax)
    (h : s.submit s.active .wrReadWait (readRequest s.cfg id) = some t) :
    exec (.writeCommit id offset) s = .next t := by
  have hargs : argsOk s.cfg (.writeCommit id offset) (s.port s.active).dinCount = true := argsOk_writeCommit.2 hn
  simp only [exec, execWriteCommit, hargs, h, if_true]

/-- Settles O21: each of the three commands answers the state of its submission of `readRequest`. -/
theorem readSubmitsTheReadRequest : Obligations.ReadSubmitsTheReadRequest := by
  intro id offset s hq
  dsimp only
  rw [← readRequest_eq]
  refine ⟨?_, fun hn i hi => ?_⟩
  · obtain ⟨t, hsubmit, heffect⟩ := exists_submit hq s.active .rdWait (readRequest s.cfg id)
    exact ⟨t, exec_read_of_submit hsubmit, heffect⟩
  · obtain ⟨t, hsubmit, heffect⟩ := exists_submit hq s.active .wrReadWait (readRequest s.cfg id)
    refine ⟨t, ?_, heffect⟩
    obtain rfl | rfl := hi
    · exact exec_writeDry_of_submit hn hsubmit
    · exact exec_writeCommit_of_submit hn hsubmit

end Sys2Proof.Machine

/-!
PROOFS. Writes that a busy port ignores (R26, R28, R29, R163), and the cycles that reset the block (R158, R159).
-/
namespace Sys2Proof.Machine

open Sys2Proof

/-! ### Writes to a busy port -/

/-- The registers of a port that hold its command and operands: while the port is busy, a write to them is ignored (R163). -/
def PortReg.locked : PortReg → Bool
  | .cmd | .dinLen | .dataIn _ => true
  | .ctrl | .status | .resLen | .dataType | .rawval | .field _ | .result _ => false

/-- A write to a locked register of a busy port only sets `WIGN` (R26, R28, R29). -/
theorem writePortReg_locked {r : PortReg} {q : Port} (hr : r.locked = true) (hb : q.busy = true) (c : Params) (delay : Nat)
    (data : Word) : writePortReg c delay r data q = q.ignoreWrite := by
  cases r
  case cmd | dinLen | dataIn => exact if_pos hb
  all_goals cases hr

/-- At the offsets of `CMD`, `DIN_LEN` and the words of `DATA_IN` the map has a locked register (R41). -/
theorem exists_locked_portRegAt {off : Nat}
    (h : off = 0x004 ∨ off = 0x00C ∨ (0x400 ≤ off ∧ off ≤ 0x500 ∧ off % 4 = 0)) :
    off < 0x1000 ∧ off % 4 = 0 ∧ ∃ r, portRegAt off = some r ∧ r.locked = true := by
  obtain rfl | rfl | ⟨hlo, hhi, h4⟩ := h
  · exact ⟨by decide, rfl, .cmd, rfl, rfl⟩
  · exact ⟨by decide, rfl, .dinLen, rfl, rfl⟩
  · obtain ⟨w, rfl⟩ : ∃ w, off = 0x400 + 4 * w := ⟨(off - 0x400) / 4, by omega⟩
    exact ⟨by omega, h4, .dataIn w, portRegAt_dataIn (by omega), rfl⟩

/-- Settles O44: the written register is locked, and a locked register of a busy port ignores the write. -/
theorem busyPortIgnoresWrites : Obligations.BusyPortIgnoresWrites := by
  intro s p off data delay hp hbusy hoff
  obtain ⟨ho, h4, r, hr, hlocked⟩ := exists_locked_portRegAt hoff
  rw [hostWrite_portAddr hp ho h4 hr, writePortReg_locked hlocked hbusy]
  rfl

/-! ### Which cycles reset -/

/-- A soft reset is a write of a word with bit 0 set to `GCTRL`, in every build (R32, R158). -/
theorem softReset_iff {c : Params} {a : HostAccess} :
    softReset c a = true ↔ ∃ w : Word, a = .write 0xF00C w ∧ w.getLsbD 0 = true := by
  cases a with
  | idle => simp [softReset]
  | read addr => simp [softReset]
  | write addr data =>
    simp only [softReset, Bool.and_eq_true, decide_eq_true_eq, hostTarget_gctrl, HostAccess.write.injEq]
    constructor
    · rintro ⟨haddr, hbit⟩
      exact ⟨data, ⟨haddr, rfl⟩, hbit⟩
    · rintro ⟨w, ⟨haddr, rfl⟩, hbit⟩
      exact ⟨haddr, hbit⟩

/-- A cycle resets on `rst_n = 0` and on a soft reset only (R158). -/
theorem resetsNow_iff {x : CycleInput} {s : State} :
    resetsNow x s = true ↔ x.rstN = false ∨ ∃ w : Word, x.host = .write 0xF00C w ∧ w.getLsbD 0 = true := by
  rw [resetsNow, Bool.or_eq_true, Bool.not_eq_true', softReset_iff]

/-! ### What a reset leaves -/

/-- Whatever its buffers hold, a port after a reset has its registers at their reset values (R159). -/
theorem freshPort_isReset (c : Params) (n : Nat) (p : PortId) : (freshPort c n p).IsReset := by
  simp [Port.IsReset, freshPort, Port.reset]

/-- The line of a port that is not done is low (R148). -/
theorem irq_eq_false_of_not_done {s : State} {p : PortId} (h : (s.port p).done = false) : s.irq p = false := by
  rw [State.irq, h, Bool.and_false]

/-- A reset takes every register of the block to its reset value (R159). -/
theorem blockReset_isReset (n : Nat) (s : State) : (blockReset n s).IsReset := by
  refine ⟨fun p => ?_, rfl, rfl, rfl, rfl, rfl, rfl, rfl, rfl, rfl, rfl⟩
  exact ⟨port_blockReset n s p ▸ freshPort_isReset s.cfg n p, irq_eq_false_of_not_done (by rw [port_blockReset]; rfl)⟩

/-- Two reset cycles whose inputs differ in `rst_n` alone end in the same state. -/
theorem cycleWith_reset_rstN {x : CycleInput} {s : State} {b b' : Bool} (h : resetsNow { x with rstN := b } s = true)
    (h' : resetsNow { x with rstN := b' } s = true) :
    cycleWith { x with rstN := b } s = cycleWith { x with rstN := b' } s := by
  rw [cycleWith_reset h, cycleWith_reset h']
  rfl

/-- Settles O52: `resetsNow_iff` says which cycles reset, and `blockReset_isReset` what each of them leaves. -/
theorem resetCycleResets : Obligations.ResetCycleResets := by
  intro x s
  refine ⟨resetsNow_iff, fun hr => ?_, fun w hw hbit => ?_⟩
  · exact ⟨_, cycleWith_reset hr, blockReset_isReset _ _, rfl⟩
  · exact cycleWith_reset_rstN (resetsNow_iff.2 (.inr ⟨w, hw, hbit⟩)) (resetsNow_iff.2 (.inl rfl))

end Sys2Proof.Machine

/-!
PROOFS. What a cycle that resets nothing keeps of each port: operands (R50), results (R49), coherence (R27, R31, R124).
-/
namespace Sys2Proof.Machine

open Sys2Proof

/-! ### The host's access to one port -/

/-- The bookkeeping of a cycle does not change what the host's access makes of a port. -/
@[simp] theorem hostTurn_outputs_port (x : CycleInput) (s : State) (p : PortId) :
    (hostTurn x (s.outputs x)).port p = (hostTurn x s).port p := by
  unfold hostTurn
  split
  · rfl
  · rfl
  · unfold hostWrite
    rw [outputs_cfg]
    split
    · rfl
    · rfl
    · rw [port_modPort, port_modPort]
      rfl
    · next r _ => cases r <;> rfl

/-- No register write reaches a port's results, its tag or its wait (R43, R49). -/
theorem writePortReg_keeps (c : Params) (delay : Nat) (r : PortReg) (data : Word) (q : Port) :
    let q' := writePortReg c delay r data q
    q'.results = q.results ∧ q'.tag = q.tag ∧ q'.waiting = q.waiting ∧ q'.wtimer = q.wtimer := by
  cases hb : q.busy with
  | false =>
    obtain ⟨hres, htag, hwait, htimer, -⟩ := writePortReg_idle (c := c) (delay := delay) (r := r) (data := data) hb
    exact ⟨hres, htag, hwait, htimer⟩
  | true =>
    have hsame := (writePortReg_busy (c := c) (delay := delay) (r := r) (data := data) hb).1
    exact ⟨(congrArg Port.results hsame :), (congrArg Port.tag hsame :), (congrArg Port.waiting hsame :),
      (congrArg Port.wtimer hsame :)⟩

/-- No access of the host reaches a port's results, its tag or its wait (R43, R49). -/
theorem hostTurn_keeps (x : CycleInput) (s : State) (p : PortId) :
    let q := (hostTurn x s).port p
    q.results = (s.port p).results ∧ q.tag = (s.port p).tag ∧ q.waiting = (s.port p).waiting ∧
      q.wtimer = (s.port p).wtimer := by
  rcases hostTurn_port x s p with h | ⟨r, data, h⟩ <;> rw [h]
  · exact ⟨rfl, rfl, rfl, rfl⟩
  · exact writePortReg_keeps _ _ _ _ _

/-- A host's access leaves an engine where it is, or accepts a command (R26). -/
theorem hostTurn_seq (x : CycleInput) (s : State) (p : PortId) :
    ((hostTurn x s).port p).seq = (s.port p).seq ∨ ((hostTurn x s).port p).seq = .localCmd := by
  rcases hostTurn_port x s p with h | ⟨r, data, h⟩ <;> rw [h]
  · exact .inl rfl
  · cases hb : (s.port p).busy with
    | true => exact .inl (congrArg Port.seq (writePortReg_busy hb).1 :)
    | false =>
      obtain ⟨-, -, -, -, -, -, ⟨-, hseq, -⟩ | ⟨-, hseq, -⟩⟩ :=
        writePortReg_idle (c := s.cfg) (delay := x.delay) (r := r) (data := data) hb
      · exact .inl hseq
      · exact .inr hseq

/-- Of a busy port a host's access keeps the engine, the operands and the delay (R163). -/
theorem hostTurn_busy_keeps {x : CycleInput} {s : State} {p : PortId} (h : (s.port p).busy = true) :
    let q := (hostTurn x s).port p
    q.busy = true ∧ q.seq = (s.port p).seq ∧ q.operands = (s.port p).operands ∧ q.delay = (s.port p).delay := by
  obtain ⟨hsame, -⟩ := hostTurn_busy (x := x) h
  exact ⟨(congrArg Port.busy hsame :).trans h, (congrArg Port.seq hsame :), (congrArg Port.operands hsame :),
    (congrArg Port.delay hsame :)⟩

/-- A host's access keeps a port coherent (R26, R27). -/
theorem hostTurn_coherent {s : State} {p : PortId} (h : (s.port p).Coherent) (x : CycleInput) :
    ((hostTurn x s).port p).Coherent := by
  obtain ⟨hbusy, hwait, hdone⟩ := h
  have hwaiting := (hostTurn_keeps x s p).2.2.1
  cases hb : (s.port p).busy with
  | true =>
    obtain ⟨hb', hseq', -⟩ := hostTurn_busy_keeps (x := x) hb
    have hdone' := (hostTurn_busy (x := x) hb).2
    exact ⟨iff_of_true hb' (hseq' ▸ hbusy.1 hb), by rw [hwaiting, hseq', hwait], fun ⟨_, hd⟩ => hdone ⟨hb, hdone' hd⟩⟩
  | false =>
    have hidle : (s.port p).seq = .idle := not_not.1 fun hne => by simp [hbusy.2 hne] at hb
    rw [hidle] at hwait
    rcases hostTurn_port x s p with h | ⟨r, data, h⟩
    · rw [h]
      exact ⟨hbusy, by rw [hidle, hwait], hdone⟩
    · rw [h] at hwaiting ⊢
      obtain ⟨-, -, -, -, -, -, ⟨hb', hseq', -⟩ | ⟨hb', hseq', hdone', -⟩⟩ :=
        writePortReg_idle (c := s.cfg) (delay := x.delay) (r := r) (data := data) hb
      · rw [hidle] at hseq'
        exact ⟨by simp [hb', hseq'], by rw [hwaiting, hseq', hwait], by simp [hb']⟩
      · exact ⟨by simp [hb', hseq'], by rw [hwaiting, hseq', hwait]; rfl, by simp [hdone']⟩

/-! ### What each outcome of an engine's turn keeps -/

/-- A counter that moves is no part of what a port shows. -/
theorem Port.Ticked.keeps {q q' : Port} (h : Port.Ticked q q') :
    q'.operands = q.operands ∧ q'.results = q.results ∧ q'.busy = q.busy ∧ q'.done = q.done ∧ q'.seq = q.seq ∧
      q'.waiting = q.waiting ∧ q'.tag = q.tag ∧ q'.ie = q.ie ∧ q'.wign = q.wign :=
  ⟨(congrArg Port.operands h :), (congrArg Port.results h :), (congrArg Port.busy h :), (congrArg Port.done h :),
    (congrArg Port.seq h :), (congrArg Port.waiting h :), (congrArg Port.tag h :), (congrArg Port.ie h :),
    (congrArg Port.wign h :)⟩

/-- A submission keeps what a port shows; the port waits under the next tag (R114). -/
theorem Port.Submitted.keeps {c : Params} {q q' : Port} (h : Port.Submitted c q q') :
    q'.operands = q.operands ∧ q'.results = q.results ∧ q'.busy = q.busy ∧ q'.done = q.done ∧ q'.seq.isWait = true ∧
      q'.waiting = true ∧ q'.tag = nextTag c q.tag ∧ q'.ie = q.ie ∧ q'.wign = q.wign := by
  obtain ⟨hwait, heq⟩ := h
  exact ⟨(congrArg Port.operands heq :), (congrArg Port.results heq :), (congrArg Port.busy heq :),
    (congrArg Port.done heq :), hwait, (congrArg Port.waiting heq :), (congrArg Port.tag heq :), (congrArg Port.ie heq :),
    (congrArg Port.wign heq :)⟩

/-- A port that has completed and waits for nothing is coherent. -/
theorem Port.Completed.coherent {q : Port} (h : q.Completed) (hw : q.waiting = false) : q.Coherent := by
  obtain ⟨hbusy, -, hseq⟩ := h
  exact ⟨by simp [hbusy, hseq], by rw [hw, hseq]; rfl, by simp [hbusy]⟩

/-! ### A port at work -/

/-- A port that runs its command in this cycle is in LOCAL. -/
theorem seq_of_runsNow {s : State} {p : PortId} (h : runsNow s p = true) : (s.port p).seq = .localCmd := by
  simp only [runsNow, Bool.and_eq_true, decide_eq_true_eq] at h
  exact h.1

/-- A coherent port that waits is in a wait state and busy (R31). -/
theorem Port.Coherent.of_waiting {q : Port} (h : q.Coherent) (hw : q.waiting = true) :
    q.seq.isWait = true ∧ q.busy = true := by
  obtain ⟨hbusy, hwait, -⟩ := h
  have hseq : q.seq.isWait = true := hwait ▸ hw
  refine ⟨hseq, hbusy.2 fun hidle => ?_⟩
  rw [hidle] at hseq
  cases hseq

/-- A coherent port in LOCAL is busy and waits for nothing. -/
theorem Port.Coherent.of_localCmd {q : Port} (h : q.Coherent) (hs : q.seq = .localCmd) :
    q.busy = true ∧ q.waiting = false :=
  ⟨h.1.2 (by simp [hs]), by rw [h.2.1, hs]; rfl⟩

/-! ### The cycle -/

/-- `IE`, `WIGN` and the operands are after the cycle as the host's access left them: no engine writes them (R25, R50). -/
theorem cycleWith_operands {x : CycleInput} {s t : State} (hr : resetsNow x s = false) (h : cycleWith x s = .next t)
    (p : PortId) :
    let q := (hostTurn x s).port p
    (t.port p).ie = q.ie ∧ (t.port p).wign = q.wign ∧ (t.port p).operands = q.operands := by
  have hcases := cycleWith_portCases hr h p
  rw [hostTurn_outputs_port] at hcases
  have ended : ∀ {w q q'}, Port.Ended w q q' → q'.ie = q.ie ∧ q'.wign = q.wign ∧ q'.operands = q.operands :=
    fun ⟨_, _, _, hops, hie, hwign, _⟩ => ⟨hie, hwign, hops⟩
  have submitted : ∀ {q q'}, Port.Submitted s.cfg q q' → q'.ie = q.ie ∧ q'.wign = q.wign ∧ q'.operands = q.operands :=
    fun hs => let ⟨hops, _, _, _, _, _, _, hie, hwign⟩ := hs.keeps; ⟨hie, hwign, hops⟩
  rcases hcases with ⟨-, he | hs⟩ | ⟨-, -, ht⟩ | ⟨-, -, he | hs⟩ | ⟨-, -, -, -, hd⟩
  · exact ended he
  · exact submitted hs
  · obtain ⟨hops, -, -, -, -, -, -, hie, hwign⟩ := ht.keeps
    exact ⟨hie, hwign, hops⟩
  · exact ended he
  · exact submitted hs
  · rw [hd]
    exact ⟨rfl, rfl, rfl⟩

/-- Settles O59: no engine writes the operands, and of a busy port the host's access keeps them. -/
theorem operandsAreStableWhileBusy : Obligations.OperandsAreStableWhileBusy := fun _ _ p hr hb h =>
  (cycleWith_operands hr h p).2.2.trans (hostTurn_busy_keeps hb).2.2.1

/-- What a cycle can make of a coherent port, from the port `q` that the host's access left: it was busy and completes, it was
busy and submits a request, or a counter moved at most (R39, R114, R121). -/
theorem cycleWith_coherentCases {x : CycleInput} {s t : State} {p : PortId} (hr : resetsNow x s = false)
    (hok : (s.port p).Coherent) (h : cycleWith x s = .next t) :
    let q := (hostTurn x s).port p
    ((s.port p).busy = true ∧ Port.Ended false q (t.port p)) ∨
      ((s.port p).busy = true ∧ Port.Submitted s.cfg q (t.port p)) ∨ Port.Ticked q (t.port p) := by
  have hcases := cycleWith_portCases hr h p
  rw [hostTurn_outputs_port] at hcases
  rcases hcases with ⟨hrun, hcase⟩ | ⟨-, -, ht⟩ | ⟨-, hw, hcase⟩ | ⟨-, -, hw, hnot, -⟩
  · obtain ⟨hbusy, hwait⟩ := hok.of_localCmd (seq_of_runsNow hrun)
    rw [(hostTurn_keeps x s p).2.2.1, hwait] at hcase
    exact hcase.elim (fun he => .inl ⟨hbusy, he⟩) fun hs => .inr (.inl ⟨hbusy, hs⟩)
  · exact .inr (.inr ht)
  · have hbusy := (hok.of_waiting hw).2
    exact hcase.elim (fun he => .inl ⟨hbusy, he⟩) fun hs => .inr (.inl ⟨hbusy, hs⟩)
  · obtain ⟨hseq, hbusy⟩ := hok.of_waiting hw
    rw [(hostTurn_busy_keeps hbusy).2.1, hseq] at hnot
    cases hnot

/-- Settles O60: the host's access keeps the results, and a port's engine writes them only where it ends a command. -/
theorem resultsChangeOnlyAtCompletion : Obligations.ResultsChangeOnlyAtCompletion := by
  intro s t p hr hok h
  have hhost := (hostTurn_keeps s.input s p).1
  rcases cycleWith_coherentCases hr (hok p).1 h with ⟨hbusy, ⟨hb', hd', -⟩, -⟩ | ⟨-, hs⟩ | ht
  · exact .inr ⟨hbusy, hb', hd'⟩
  · exact .inl (hs.keeps.2.1.trans hhost)
  · exact .inl (ht.keeps.2.1.trans hhost)

/-- A cycle that resets nothing keeps a port coherent. -/
theorem cycleWith_coherent {x : CycleInput} {s t : State} {p : PortId} (hr : resetsNow x s = false)
    (hok : (s.port p).Coherent) (h : cycleWith x s = .next t) : (t.port p).Coherent := by
  have hq := hostTurn_coherent hok x
  rcases cycleWith_coherentCases hr hok h with ⟨-, hcomp, hw, -⟩ | ⟨hbusy, hs⟩ | ht
  · exact hcomp.coherent hw
  · obtain ⟨-, -, hb', hd', hseq', hw', -⟩ := hs.keeps
    have hqb := (hostTurn_busy_keeps (x := x) hbusy).1
    refine ⟨iff_of_true (hb'.trans hqb) fun hidle => ?_, hw'.trans hseq'.symm, by rw [hb', hd']; exact hq.2.2⟩
    rw [hidle] at hseq'
    cases hseq'
  · obtain ⟨-, -, hb', hd', hseq', hw', -⟩ := ht.keeps
    unfold Port.Coherent
    rw [hb', hd', hseq', hw']
    exact hq

/-- The engine of a coherent port that is not there stays idle (R41). -/
theorem cycleWith_absent {x : CycleInput} {s t : State} {p : PortId} (hr : resetsNow x s = false)
    (hok : (s.port p).Coherent) (h : cycleWith x s = .next t) (hp : s.cfg.numPorts ≤ p.val)
    (hidle : (s.port p).seq = .idle) : (t.port p).seq = .idle := by
  have hnb : ¬(s.port p).busy = true := fun hb => hok.1.1 hb hidle
  rcases cycleWith_coherentCases hr hok h with ⟨hb, -⟩ | ⟨hb, -⟩ | ht
  · exact absurd hb hnb
  · exact absurd hb hnb
  · obtain ⟨-, -, -, -, hseq, -⟩ := ht.keeps
    rw [hseq, hostTurn_port_absent hp, hidle]

theorem freshPort_coherent (c : Params) (n : Nat) (p : PortId) : (freshPort c n p).Coherent := by
  simp [Port.Coherent, freshPort, Port.reset, SeqState.isWait]

/-- A cycle keeps the ports coherent, and those that are not there idle. -/
theorem cycleWith_portsOk {x : CycleInput} {s t : State} (hok : s.PortsOk) (h : cycleWith x s = .next t) : t.PortsOk := by
  intro p
  cases hr : resetsNow x s with
  | true =>
    cases (cycleWith_reset hr).symm.trans h
    rw [port_blockReset]
    exact ⟨freshPort_coherent _ _ p, fun _ => rfl⟩
  | false =>
    obtain ⟨hcoh, habsent⟩ := hok p
    rw [cycleWith_cfg hr h]
    exact ⟨cycleWith_coherent hr hcoh h, fun hp => cycleWith_absent hr hcoh h hp (habsent hp)⟩

/-- Settles O55: `cycleWith_portsOk` for the inputs the state holds. -/
theorem stepKeepsThePortsCoherent : Obligations.StepKeepsThePortsCoherent := fun _ _ hok h => cycleWith_portsOk hok h

/-! ### Every cycle answers -/

/-- No cycle, not even one that resets, changes the build parameters (R33). -/
theorem cycleWith_keeps_cfg {x : CycleInput} {s t : State} (h : cycleWith x s = .next t) : t.cfg = s.cfg := by
  cases hr : resetsNow x s with
  | true =>
    cases (cycleWith_reset hr).symm.trans h
    rfl
  | false => exact cycleWith_cfg hr h

/-- Every cycle answers a next state (R144). -/
theorem cycleWith_total (x : CycleInput) (s : State) : ∃ t, cycleWith x s = .next t := by
  obtain ⟨run, rfl, hrun⟩ := cycles_exist (fun _ => x) s
  exact ⟨run 1, hrun 0⟩

/-- Settles O6: a step is a cycle, every cycle answers, and none changes the build parameters. -/
theorem everyStepAnswersANextState : Obligations.EveryStepAnswersANextState := fun s =>
  (cycleWith_total s.input s).imp fun _ h => ⟨h, cycleWith_keeps_cfg h⟩

end Sys2Proof.Machine

/-!
PROOFS. Every cycle keeps the byte buffers canonical and within their storage (R29, R30, R44).
-/
namespace Sys2Proof.Machine

open Sys2Proof

/-! ### The buffers of one port -/

/-- The buffers of a port are in canonical form: what `State.BuffersOk` asks of each port. -/
def Port.BuffersOk (lim : Nat) (q : Port) : Prop := bufferOk lim q.din ∧ bufferOk lim q.res ∧ bufferOk lim q.wbuf

theorem buffersOk_iff {s : State} :
    s.BuffersOk ↔ bufferOk s.cfg.frameMax s.rxBuf ∧ ∀ p, (s.port p).BuffersOk s.cfg.frameMax := Iff.rfl

theorem Port.BuffersOk.completeFrame {lim : Nat} {q : Port} (h : q.BuffersOk lim) (e : ErrTag) (c : Byte)
    (raw : List Byte) (t : DataType) (fl : Fields) : (q.completeFrame lim e c raw t fl).BuffersOk lim :=
  ⟨h.1, bufferOk_bufPutBytes h.2.1 0 raw, h.2.2⟩

theorem Port.BuffersOk.putWork {lim : Nat} {q : Port} (h : q.BuffersOk lim) (frame : List Byte) :
    (q.putWork lim frame).BuffersOk lim :=
  ⟨h.1, h.2.1, bufferOk_bufPutBytes h.2.2 0 frame⟩

theorem Port.BuffersOk.writePortReg {c : Params} {q : Port} (h : q.BuffersOk c.frameMax) (delay : Nat) (r : PortReg)
    (data : Word) : (writePortReg c delay r data q).BuffersOk c.frameMax := by
  obtain ⟨hdin, hres, hwbuf⟩ := writePortReg_buffers (delay := delay) (r := r) (data := data) h.1
  exact ⟨hdin, hres ▸ h.2.1, hwbuf ▸ h.2.2⟩

theorem freshPort_buffersOk (c : Params) (n : Nat) (p : PortId) : (freshPort c n p).BuffersOk c.frameMax :=
  ⟨bufferOk_freeBuffer _ _ _, bufferOk_freeBuffer _ _ _, bufferOk_freeBuffer _ _ _⟩

/-! ### Operations on one port -/

/-- An operation on one port that keeps its buffers keeps all of them. -/
theorem State.BuffersOk.modPort {s : State} (h : s.BuffersOk) {p : PortId} {f : Port → Port}
    (hf : (s.port p).BuffersOk s.cfg.frameMax → (f (s.port p)).BuffersOk s.cfg.frameMax) : (s.modPort p f).BuffersOk := by
  refine ⟨h.1, fun r => ?_⟩
  rw [port_modPort]
  split
  · exact hf (h.2 p)
  · exact h.2 r

theorem State.BuffersOk.submit {s t : State} (h : s.BuffersOk) {p : PortId} {w : SeqState} {bs : List Byte}
    (ht : s.submit p w bs = some t) : t.BuffersOk := by
  have hmod : (s.modPort p (Port.startWait s.cfg w)).BuffersOk := h.modPort id
  unfold State.submit at ht
  split at ht
  · cases ht
  · cases ht
    exact hmod

theorem State.BuffersOk.finishRead {s : State} (h : s.BuffersOk) (p : PortId) (id : Byte) (r : TransportResult) :
    (finishRead p id r s).BuffersOk := h.modPort fun hq => hq.completeFrame _ _ _ _ _

theorem State.BuffersOk.finishXchg {s : State} (h : s.BuffersOk) (p : PortId) (r : TransportResult) :
    (finishXchg p r s).BuffersOk := h.modPort fun hq => hq.completeFrame _ _ _ _ _

theorem State.BuffersOk.finishCommit {s : State} (h : s.BuffersOk) (p : PortId) (r : TransportResult) :
    (finishCommit p r s).BuffersOk := h.modPort fun hq => hq.completeFrame _ _ _ _ _

theorem State.BuffersOk.finishBounds {s : State} (h : s.BuffersOk) (p : PortId) (f : List Byte) :
    (finishBounds p f s).BuffersOk := h.modPort fun hq => hq.completeFrame _ _ _ _ _

theorem State.BuffersOk.failArg {s : State} (h : s.BuffersOk) (p : PortId) : (s.failArg p).BuffersOk := h.modPort id

theorem State.BuffersOk.finishWriteDry {s : State} (h : s.BuffersOk) (p : PortId) (id offset : Byte)
    (r : TransportResult) : (finishWriteDry p id offset r s).BuffersOk := by
  unfold Machine.finishWriteDry
  rcases writeStep_cases p id offset r s with ⟨-, hw⟩ | ⟨-, -, hw⟩ | ⟨-, -, hw⟩ <;> simp only [hw]
  · exact h.finishRead p id r
  · exact h.finishBounds p r.raw
  · exact (h.modPort fun hq => hq.putWork _).modPort fun hq => hq.completeFrame _ _ _ _ _

theorem State.BuffersOk.commitWrite {s : State} (h : s.BuffersOk) (p : PortId) (id offset : Byte)
    (r : TransportResult) : (commitWrite p id offset r s).BuffersOk := by
  unfold Machine.commitWrite
  rcases writeStep_cases p id offset r s with ⟨-, hw⟩ | ⟨-, -, hw⟩ | ⟨-, -, hw⟩ <;> simp only [hw]
  · exact h.finishRead p id r
  · exact h.finishBounds p r.raw
  · have hbuilt := h.modPort (p := p) fun hq =>
      hq.putWork (writeFrame s.cfg r.raw offset.toNat ((s.port p).dinBytes s.cfg.frameMax))
    split
    · next hsub => exact hbuilt.submit hsub
    · exact hbuilt.finishCommit p _

/-! ### The engines -/

theorem State.BuffersOk.exec {s t : State} (h : s.BuffersOk) (i : Instr) (ht : exec i s = .next t) : t.BuffersOk := by
  cases i with
  | xchg =>
    cases ht
    split
    · split
      · next hsub => exact h.submit hsub
      · exact h.finishXchg _ _
    · exact h.failArg _
  | read id =>
    cases ht
    split
    · next hsub => exact h.submit hsub
    · exact h.finishRead _ _ _
  | writeDry id offset =>
    cases ht
    split
    · split
      · next hsub => exact h.submit hsub
      · exact h.finishWriteDry _ _ _ _
    · exact h.failArg _
  | writeCommit id offset =>
    cases ht
    split
    · split
      · next hsub => exact h.submit hsub
      · exact h.commitWrite _ _ _ _
    · exact h.failArg _
  | encode op id =>
    cases ht
    split
    · exact h.modPort fun hq => hq.completeFrame _ _ _ _ _
    · exact h.failArg _
  | validate =>
    cases ht
    split
    · exact h.modPort id
    · exact h.failArg _
  | classify reg =>
    cases ht
    exact h.modPort id
  | decode code =>
    cases ht
    split
    · exact h.failArg _
    · split
      · exact h.modPort id
      · exact h.failArg _
  | rawbyte offset =>
    cases ht
    split
    · exact h.modPort id
    · exact h.modPort id

theorem State.BuffersOk.handOver {s : State} (h : s.BuffersOk) (p : PortId) (r : TransportResult) :
    (handOver p r s).BuffersOk := by
  have hstop : (s.modPort p Port.stopWait).BuffersOk := h.modPort id
  unfold Machine.handOver deliver
  dsimp only
  split
  · exact hstop
  · exact hstop
  · exact hstop.finishXchg p r
  · exact hstop.finishRead p _ r
  · split
    · exact hstop.commitWrite p _ _ r
    · exact hstop.finishWriteDry p _ _ r
  · exact hstop.finishCommit p r

theorem State.BuffersOk.engineTurn {x : CycleInput} {s0 s t : State} {p : PortId} (h : s.BuffersOk)
    (ht : engineTurn x s0 p s = .next t) : t.BuffersOk := by
  unfold Machine.engineTurn at ht
  split at ht
  · unfold runCommand at ht
    split at ht
    · next i _ => exact State.BuffersOk.exec (s := { s with active := p }) h i ht
    · cases ht
      exact h.failArg p
  · cases ht
    unfold engineWait
    split
    · exact h.modPort id
    · split
      · exact h.handOver p _
      · split
        · unfold clientTick
          split
          · exact h.handOver p _
          · exact h.modPort id
        · exact h

/-- What all the engines' turns make of canonical buffers. -/
theorem State.BuffersOk.enginesTurn {x : CycleInput} {s0 : State} {ps : List PortId} {s t : State} (h : s.BuffersOk)
    (ht : enginesTurn x s0 ps s = .next t) : t.BuffersOk := by
  obtain ⟨u, hu, hok⟩ := enginesTurn_keeps (x := x) (s0 := s0) (P := State.BuffersOk)
    (fun p v hv => by
      obtain ⟨w, hw, -⟩ :=
        engineTurn_effect (n := max v.cfg.frameMax s0.reply.result.raw.length) x s0 p v (by omega) (by omega)
      exact ⟨w, hw, hv.engineTurn hw⟩) ps h
  cases ht.symm.trans hu
  exact hok

/-! ### The other agents -/

/-- Buffers are canonical in every state with the same build, ports and receive buffer. -/
theorem State.BuffersOk.congr {s t : State} (h : s.BuffersOk) (hcfg : t.cfg = s.cfg) (hports : t.ports = s.ports)
    (hbuf : t.rxBuf = s.rxBuf) : t.BuffersOk := by
  rw [buffersOk_iff, hcfg, hbuf]
  exact ⟨h.1, fun p => by rw [port_of_ports hports]; exact h.2 p⟩

theorem State.BuffersOk.hostTurn {s : State} (h : s.BuffersOk) (x : CycleInput) : (hostTurn x s).BuffersOk := by
  have hframe := hostTurn_frame x s
  have hcfg : (Machine.hostTurn x s).cfg = s.cfg := (congrArg State.cfg hframe :)
  have hbuf : (Machine.hostTurn x s).rxBuf = s.rxBuf := (congrArg State.rxBuf hframe :)
  rw [buffersOk_iff, hcfg, hbuf]
  refine ⟨h.1, fun p => ?_⟩
  rcases hostTurn_port x s p with hp | ⟨r, data, hp⟩ <;> rw [hp]
  · exact h.2 p
  · exact Port.BuffersOk.writePortReg (h.2 p) _ _ _

/-- Each byte the framer takes goes to one place of the receive buffer at most (R76 to R79). -/
theorem bufferOk_takeByte {s : State} (h : bufferOk s.cfg.frameMax s.rxBuf) (b : Byte) :
    bufferOk s.cfg.frameMax (takeByte b s).rxBuf := by
  unfold takeByte
  split
  · unfold takeMarker
    split
    · exact bufferOk_bufPut h _ _
    · exact h
  · exact bufferOk_bufPut h _ _
  · exact bufferOk_bufPut h _ _
  · exact bufferOk_bufPut h _ _
  all_goals exact h

theorem State.BuffersOk.receiveTurn {s : State} (h : s.BuffersOk) (x : CycleInput) (s0 : State) :
    (receiveTurn x s0 s).BuffersOk := by
  have hframe := receiveTurn_frame x s0 s
  have hcfg : (Machine.receiveTurn x s0 s).cfg = s.cfg := (congrArg State.cfg hframe :)
  have hports : (Machine.receiveTurn x s0 s).ports = s.ports := (congrArg State.ports hframe :)
  rw [buffersOk_iff, hcfg]
  refine ⟨?_, fun p => by rw [port_of_ports hports]; exact h.2 p⟩
  unfold Machine.receiveTurn
  split
  · rw [show (flushFifo x s0 s).rxBuf = s.rxBuf from (congrArg State.rxBuf (flushFifo_frame x s0 s) :)]
    exact h.1
  · split
    · split
      · exact bufferOk_takeByte h.1 _
      · split
        · rw [show (byteTick s).rxBuf = s.rxBuf from (congrArg State.rxBuf (byteTick_frame s) :)]
          exact h.1
        · exact h.1
    · rw [show (pushByte x s0 s).rxBuf = s.rxBuf from (congrArg State.rxBuf (pushByte_frame x s0 s) :)]
      exact h.1

theorem State.BuffersOk.arbiterTurn {s : State} (h : s.BuffersOk) (x : CycleInput) (s0 : State) :
    (arbiterTurn x s0 s).BuffersOk :=
  have hframe := arbiterTurn_frame x s0 s
  h.congr (congrArg State.cfg hframe :) (congrArg State.ports hframe :) (congrArg State.rxBuf hframe :)

theorem State.BuffersOk.latePop {s : State} (h : s.BuffersOk) (s0 : State) : (latePop s0 s).BuffersOk :=
  have hframe := latePop_frame s0 s
  h.congr (congrArg State.cfg hframe :) (congrArg State.ports hframe :) (congrArg State.rxBuf hframe :)

theorem blockReset_buffersOk (n : Nat) (s : State) : (blockReset n s).BuffersOk := by
  refine ⟨bufferOk_freeBuffer _ _ _, fun p => ?_⟩
  rw [port_blockReset]
  exact freshPort_buffersOk _ _ p

/-- A cycle keeps every buffer canonical: each agent's turn does, and a reset leaves canonical buffers. -/
theorem cycleWith_buffersOk {x : CycleInput} {s t : State} (h : s.BuffersOk) (ht : cycleWith x s = .next t) :
    t.BuffersOk := by
  cases hr : resetsNow x s with
  | true =>
    cases (cycleWith_reset hr).symm.trans ht
    exact blockReset_buffersOk _ _
  | false =>
    obtain ⟨u, hu, rfl⟩ := cycleWith_next hr ht
    have houtputs : (s.outputs x).BuffersOk := h
    have hbefore : (beforeEngines x s).BuffersOk := ((houtputs.hostTurn x).receiveTurn x s).arbiterTurn x s
    exact (hbefore.enginesTurn hu).latePop s

/-- Settles O54: `cycleWith_buffersOk` for the inputs the state holds. -/
theorem stepKeepsTheBuffersCanonical : Obligations.StepKeepsTheBuffersCanonical := fun _ _ h ht => cycleWith_buffersOk h ht

end Sys2Proof.Machine

/-!
PROOFS. Which ports submit a request in a cycle, in what order the requests are queued, and what the controller pops (R114 to
R116).
-/
namespace Sys2Proof.Machine

open Sys2Proof

/-! ### One engine's submission -/

/-- A port that submitted nothing in its engine's turn: it keeps its tag, and is in no wait that it was not in before. -/
def Port.NoSubmission (q q' : Port) : Prop :=
  q'.tag = q.tag ∧ (q'.waiting = true → q.waiting = true) ∧ (q'.seq.isWait = true → q'.seq = q.seq)

theorem Port.Ended.noSubmission {w : Bool} {q q' : Port} (h : Port.Ended w q q') (hw : w = true → q.waiting = true) :
    Port.NoSubmission q q' := by
  obtain ⟨⟨-, -, hseq⟩, hwait, htag, -⟩ := h
  exact ⟨htag, fun ht => hw (hwait ▸ ht), fun hs => by rw [hseq] at hs; cases hs⟩

theorem Port.Ticked.noSubmission {q q' : Port} (h : Port.Ticked q q') : Port.NoSubmission q q' := by
  obtain ⟨-, -, -, -, hseq, hwait, htag, -⟩ := h.keeps
  exact ⟨htag, fun ht => hwait ▸ ht, fun _ => hseq⟩

/-- A dry run queues nothing (R138). -/
theorem finishWriteDry_rq (p : PortId) (id offset : Byte) (r : TransportResult) (s : State) :
    (finishWriteDry p id offset r s).rq = s.rq := by
  unfold finishWriteDry
  rcases writeStep_cases p id offset r s with ⟨-, h⟩ | ⟨-, -, h⟩ | ⟨-, -, h⟩ <;> simp only [h] <;> rfl

/-- The commit of a write queues a request only with the port waiting for its acknowledgement (R139). -/
theorem commitWrite_submission (p : PortId) (id offset : Byte) (r : TransportResult) (s : State) :
    (commitWrite p id offset r s).rq = s.rq ∨ ((commitWrite p id offset r s).port p).seq = .wrCommitWait := by
  unfold commitWrite
  rcases writeStep_cases p id offset r s with ⟨-, h⟩ | ⟨-, -, h⟩ | ⟨-, -, h⟩ <;> simp only [h]
  · exact .inl rfl
  · exact .inl rfl
  · split
    · next hsub =>
      rw [(submits_of_submit hsub).2.2]
      exact .inr rfl
    · exact .inl rfl

/-- The only result that makes a port submit another request is that of a write's read step (R139). -/
theorem handOver_submission (p : PortId) (r : TransportResult) (s : State) :
    (handOver p r s).rq = s.rq ∨
      ((s.port p).seq = .wrReadWait ∧ ((handOver p r s).port p).seq = .wrCommitWait) := by
  have hseq : ((s.modPort p Port.stopWait).port p).seq = (s.port p).seq := by rw [port_modPort_self, stopWait_seq]
  unfold handOver
  cases hs : (s.port p).seq with
  | idle | localCmd => simp only [deliver, hseq, hs, modPort_rq, true_or]
  | xchgWait => exact .inl (by rw [deliver_xchgWait (hseq.trans hs)]; rfl)
  | rdWait => exact .inl (by rw [deliver_rdWait (hseq.trans hs)]; rfl)
  | wrCommitWait => exact .inl (by rw [deliver_wrCommitWait (hseq.trans hs)]; rfl)
  | wrReadWait =>
    rw [deliver_wrReadWait (hseq.trans hs)]
    split
    · exact (commitWrite_submission p _ _ r _).imp_right fun h => ⟨rfl, h⟩
    · exact .inl (finishWriteDry_rq p _ _ r _)

/-- An engine that runs no command queues a request only where a write goes on to its commit (R139). -/
theorem engineWait_submission (x : CycleInput) (s0 : State) (p : PortId) (s : State) :
    (engineWait x s0 p s).rq = s.rq ∨
      ((s.port p).seq = .wrReadWait ∧ ((engineWait x s0 p s).port p).seq = .wrCommitWait) := by
  unfold engineWait
  split
  · exact .inl rfl
  · split
    · exact handOver_submission p _ s
    · split
      · unfold clientTick
        split
        · exact handOver_submission p _ s
        · exact .inl rfl
      · exact .inl rfl

/-- One engine's turn as the queue sees it: the port submitted nothing, or one request under its next tag, entering a wait from
LOCAL or going on from a write's read step to its commit (R114, R124, R139). -/
theorem engineTurn_submission {x : CycleInput} {s0 s t : State} {p : PortId} (h : engineTurn x s0 p s = .next t) :
    (t.rq = s.rq ∧ Port.NoSubmission (s.port p) (t.port p)) ∨
      ∃ bs, t.rq = s.rq ++ [{ port := p, tag := nextTag s.cfg (s.port p).tag, bytes := bs }] ∧
        Port.Submitted s.cfg (s.port p) (t.port p) ∧
        ((s0.port p).seq = .localCmd ∨ ((s.port p).seq = .wrReadWait ∧ (t.port p).seq = .wrCommitWait)) := by
  obtain ⟨t', ht', heffect⟩ :=
    engineTurn_effect (n := max s.cfg.frameMax s0.reply.result.raw.length) x s0 p s (by omega) (by omega)
  cases h.symm.trans ht'
  have hwait : runsNow s0 p = false →
      t.rq = s.rq ∨ ((s.port p).seq = .wrReadWait ∧ (t.port p).seq = .wrCommitWait) := fun hrun => by
    rw [engineTurn, hrun] at h
    cases h
    exact engineWait_submission x s0 p s
  have ticked : ∀ {q'}, portStep p q' [] s t → Port.Ticked (s.port p) q' →
      t.rq = s.rq ∧ Port.NoSubmission (s.port p) (t.port p) := fun hstep hq => by
    obtain ⟨-, hport, -, hrq⟩ := portStep_frame hstep
    exact ⟨by rw [hrq, List.append_nil], hport ▸ hq.noSubmission⟩
  rcases heffect with ⟨hrun, q', l, hstep, ⟨rfl, he⟩ | ⟨-, hs, bs, -, rfl⟩⟩ | ⟨-, -, q', hstep, hq⟩ | ⟨hrun, -, hcmd⟩ |
    ⟨-, -, -, -, rfl⟩ | ⟨-, -, q', hstep, hq⟩
  · obtain ⟨-, hport, -, hrq⟩ := portStep_frame hstep
    exact .inl ⟨by rw [hrq, List.append_nil], hport ▸ he.noSubmission id⟩
  · obtain ⟨-, hport, -, hrq⟩ := portStep_frame hstep
    exact .inr ⟨bs, hrq, hport ▸ hs, .inl (seq_of_runsNow hrun)⟩
  · exact .inl (ticked hstep hq)
  · obtain ⟨q', l, hstep, ⟨rfl, he⟩ | ⟨-, hs, bs, -, rfl⟩⟩ := commandEffect_stopWait hcmd
    · obtain ⟨-, hport, -, hrq⟩ := portStep_frame hstep
      exact .inl ⟨by rw [hrq, List.append_nil], hport ▸ he.noSubmission (by simp)⟩
    · obtain ⟨-, hport, -, hrq⟩ := portStep_frame hstep
      refine .inr ⟨bs, hrq, hport ▸ hs, .inr ((hwait hrun).resolve_left fun hsame => ?_)⟩
      simpa using hsame.symm.trans hrq
  · refine .inl ⟨rfl, ?_⟩
    rw [port_modPort_self]
    exact ⟨rfl, by simp, fun _ => rfl⟩
  · exact .inl (ticked hstep hq)

/-- A port submits in its engine's turn exactly if it enters a wait in the cycle. -/
theorem engineTurn_entersWait {x : CycleInput} {s0 s t : State} {p : PortId} (hp : s.port p = (hostTurn x s0).port p)
    (h : engineTurn x s0 p s = .next t) :
    (entersWait s0 t p = false ∧ t.rq = s.rq ∧ Port.NoSubmission (s.port p) (t.port p)) ∨
      (entersWait s0 t p = true ∧ Port.Submitted s.cfg (s.port p) (t.port p) ∧
        ∃ bs, t.rq = s.rq ++ [{ port := p, tag := nextTag s.cfg (s.port p).tag, bytes := bs }]) := by
  have hhost := hostTurn_seq x s0 p
  rw [← hp] at hhost
  rcases engineTurn_submission h with ⟨hrq, hno⟩ | ⟨bs, hrq, hs, hseq⟩
  · refine .inl ⟨?_, hrq, hno⟩
    rw [entersWait, Bool.and_eq_false_iff, decide_eq_false_iff_not, not_not, ← Bool.not_eq_true, ← imp_iff_not_or]
    intro hw
    have hsame := hno.2.2 hw
    rcases hhost with hhost | hhost
    · exact hsame.trans hhost
    · rw [hsame, hhost] at hw
      cases hw
  · refine .inr ⟨?_, hs, bs, hrq⟩
    rw [entersWait, hs.1, Bool.true_and, decide_eq_true_eq]
    intro hsame
    rcases hseq with hlocal | ⟨hread, hcommit⟩
    · have hw := hs.1
      rw [hsame, hlocal] at hw
      cases hw
    · rw [hsame] at hcommit
      rcases hhost with hhost | hhost
      · rw [hread, hcommit] at hhost
        cases hhost
      · rw [hread] at hhost
        cases hhost

/-! ### All the engines' submissions -/

/-- The engines of two lists of ports, one list after the other. -/
theorem enginesTurn_append {x : CycleInput} {s0 : State} {ps rs : List PortId} {s t : State}
    (h : enginesTurn x s0 (ps ++ rs) s = .next t) :
    ∃ u, enginesTurn x s0 ps s = .next u ∧ enginesTurn x s0 rs u = .next t := by
  induction ps generalizing s with
  | nil => exact ⟨s, rfl, h⟩
  | cons p ps ih =>
    simp only [List.cons_append, enginesTurn] at h ⊢
    split at h
    · exact ih h
    · cases h
    · cases h

/-- One port's engine, and then those of the others. -/
theorem enginesTurn_cons {x : CycleInput} {s0 : State} {p : PortId} {ps : List PortId} {s t : State}
    (h : enginesTurn x s0 (p :: ps) s = .next t) :
    ∃ u, engineTurn x s0 p s = .next u ∧ enginesTurn x s0 ps u = .next t := by
  simp only [enginesTurn] at h
  split at h
  · next u hu => exact ⟨u, hu, h⟩
  · cases h
  · cases h

/-- The engines' turns leave the other ports alone. -/
theorem enginesTurn_port_of_notMem {x : CycleInput} {s0 : State} {ps : List PortId} {s t : State} {p : PortId}
    (h : enginesTurn x s0 ps s = .next t) (hp : p ∉ ps) : t.port p = s.port p := by
  induction ps generalizing s with
  | nil => cases h; rfl
  | cons r ps ih =>
    obtain ⟨u, hu, h⟩ := enginesTurn_cons h
    rw [List.mem_cons, not_or] at hp
    exact (ih h hp.2).trans ((engineTurn_frame hu).2.1 p hp.1)

theorem engineTurn_cfg {x : CycleInput} {s0 s t : State} {p : PortId} (h : engineTurn x s0 p s = .next t) :
    t.cfg = s.cfg := (congrArg State.cfg (engineTurn_frame h).1 :)

theorem enginesTurn_cfg {x : CycleInput} {s0 : State} {ps : List PortId} {s t : State}
    (h : enginesTurn x s0 ps s = .next t) : t.cfg = s.cfg := (congrArg State.cfg (enginesTurn_frame h).1 :)

/-- A port enters a wait or not whatever the other ports do. -/
theorem entersWait_congr {s t u : State} {p : PortId} (h : t.port p = u.port p) : entersWait s t p = entersWait s u p := by
  simp only [entersWait, h]

/-- The request `e` is the submission of its port in the cycle from `s` to `t`: under the port's next tag, under which the port
then waits (R114). -/
def submissionOf (s t : State) (e : Request) : Prop :=
  e.tag = nextTag s.cfg (s.port e.port).tag ∧ (t.port e.port).tag = e.tag ∧ (t.port e.port).waiting = true

/-- The engines' turns queue one request for each of their ports that enters a wait, in the ports' order (R114, R115). -/
theorem enginesTurn_submissions {x : CycleInput} {s0 : State} {ps : List PortId} {s t : State} (hps : ps.Nodup)
    (hcfg : s.cfg = s0.cfg) (hports : ∀ p ∈ ps, s.port p = (hostTurn x s0).port p)
    (h : enginesTurn x s0 ps s = .next t) :
    ∃ l, t.rq = s.rq ++ l ∧ l.map Request.port = ps.filter (entersWait s0 t) ∧ ∀ e ∈ l, submissionOf s0 t e := by
  induction ps generalizing s with
  | nil =>
    cases h
    exact ⟨[], by simp, rfl, by simp⟩
  | cons p ps ih =>
    obtain ⟨u, hu, h⟩ := enginesTurn_cons h
    obtain ⟨hp, hps⟩ := List.nodup_cons.1 hps
    have hout := (engineTurn_frame hu).2.1
    have hkept := enginesTurn_port_of_notMem h hp
    obtain ⟨l, hl, hmap, hsub⟩ := ih hps ((engineTurn_cfg hu).trans hcfg)
      (fun r hr => (hout r fun he => hp (he ▸ hr)).trans (hports r (List.mem_cons_of_mem p hr))) h
    have hpq := hports p List.mem_cons_self
    have henters : entersWait s0 t p = entersWait s0 u p := entersWait_congr hkept
    rcases engineTurn_entersWait hpq hu with ⟨hno, hrq, -⟩ | ⟨hyes, hs, bs, hrq⟩
    · refine ⟨l, by rw [hl, hrq], ?_, hsub⟩
      rw [List.filter_cons_of_neg (by rw [henters, hno]; exact Bool.false_ne_true), hmap]
    · refine ⟨{ port := p, tag := nextTag s.cfg (s.port p).tag, bytes := bs } :: l, by rw [hl, hrq]; simp, ?_, ?_⟩
      · rw [List.filter_cons_of_pos (by rw [henters, hyes]), List.map_cons, hmap]
      · obtain ⟨-, -, -, -, -, hwait, htag, -⟩ := hs.keeps
        have htag0 : (s.port p).tag = (s0.port p).tag := by rw [hpq, (hostTurn_keeps x s0 p).2.1]
        intro e he
        rcases List.mem_cons.1 he with rfl | he
        · exact ⟨by rw [hcfg, htag0], by rw [hkept, htag], by rw [hkept, hwait]⟩
        · exact hsub e he

/-- What a cycle makes of a port, as the tags see it: it enters a wait by a submission, or it submitted nothing. -/
theorem cycleWith_entersWait {x : CycleInput} {s t : State} (hr : resetsNow x s = false) (h : cycleWith x s = .next t)
    (p : PortId) :
    (entersWait s t p = true ∧ Port.Submitted s.cfg ((hostTurn x s).port p) (t.port p)) ∨
      (entersWait s t p = false ∧ Port.NoSubmission ((hostTurn x s).port p) (t.port p)) := by
  obtain ⟨u, v, hturn, hu, hcfg, ht⟩ := cycleWith_port hr h p
  rw [hostTurn_outputs_port] at hu
  have henters : entersWait s t p = entersWait s v p := entersWait_congr ht
  rw [henters, ht, ← hu, ← hcfg]
  rcases engineTurn_entersWait hu hturn with ⟨hno, -, hsame⟩ | ⟨hyes, hs, -⟩
  · exact .inr ⟨hno, hsame⟩
  · exact .inl ⟨hyes, hs⟩

/-! ### What the controller pops -/

/-- The host's access and the receive side leave the controller alone. -/
theorem received_controller (x : CycleInput) (s : State) :
    let b := receiveTurn x s (hostTurn x (s.outputs x))
    b.rq = s.rq ∧ b.cur = s.cur ∧ b.txIdx = s.txIdx ∧ b.arb = s.arb ∧ b.reply = s.reply ∧ b.cfg = s.cfg := by
  have hR := receiveTurn_frame x s (hostTurn x (s.outputs x))
  have hH := hostTurn_frame x (s.outputs x)
  exact ⟨(congrArg State.rq hR :).trans (congrArg State.rq hH :), (congrArg State.cur hR :).trans (congrArg State.cur hH :),
    (congrArg State.txIdx hR :).trans (congrArg State.txIdx hH :), (congrArg State.arb hR :).trans (congrArg State.arb hH :),
    (congrArg State.reply hR :).trans (congrArg State.reply hH :), (congrArg State.cfg hR :).trans (congrArg State.cfg hH :)⟩

/-- A pop takes the head of the queue. -/
theorem popRequest_rq (s : State) : s.popRequest.rq = s.rq.tail := by
  unfold State.popRequest
  split
  · next hq => rw [hq]; rfl
  · next hq => rw [hq]; rfl

theorem earlyPop_rq (s0 s : State) :
    (earlyPop s0 s).rq = if popsNow s0 && !popsLast s0 then s.rq.tail else s.rq := by
  unfold earlyPop
  split
  · exact popRequest_rq s
  · rfl

theorem latePop_rq (s0 s : State) : (latePop s0 s).rq = if popsLast s0 then s.rq.tail else s.rq := by
  unfold latePop
  split
  · exact popRequest_rq s
  · rfl

/-- Up to the engines the queue loses its head at most, where the pop comes first (R116; log entry 9). -/
theorem beforeEngines_rq (x : CycleInput) (s : State) :
    (beforeEngines x s).rq = if popsNow s && !popsLast s then s.rq.tail else s.rq := by
  have hrq := (received_controller x s).1
  unfold beforeEngines arbiterTurn
  cases ha : s.arb with
  | idle | reply => simp only [earlyPop_rq, hrq]
  | tx =>
    rw [(popsNow_busy (.inl ha)).1]
    dsimp only
    split <;> exact hrq
  | rx =>
    rw [(popsNow_busy (.inr ha)).1]
    dsimp only
    split <;> exact hrq

theorem popsNow_of_popsLast {s : State} (h : popsLast s = true) : popsNow s = true := by
  rw [popsLast, Bool.and_eq_true] at h
  exact h.1

/-- The queue after a cycle: what the engines pushed behind the old queue, less its head where the controller popped (R116). -/
theorem latePop_pushed_rq {x : CycleInput} {s u : State} {l : List Request} (hu : u.rq = (beforeEngines x s).rq ++ l) :
    (latePop s u).rq = (if popsNow s then s.rq.tail else s.rq) ++ l := by
  rw [latePop_rq, hu, beforeEngines_rq]
  cases hlast : popsLast s with
  | false => simp
  | true =>
    have hpops := popsNow_of_popsLast hlast
    obtain ⟨r, rest, hq⟩ := rq_of_popsNow hpops
    simp [hpops, hq]

/-- From ARB_IDLE and ARB_REPLY the controller goes to ARB_TX where it pops, else to ARB_IDLE (R116, R119; log entry 28). -/
theorem cycleWith_arb {x : CycleInput} {s t : State} (hr : resetsNow x s = false) (h : cycleWith x s = .next t)
    (ha : s.arb = .idle ∨ s.arb = .reply) : t.arb = if popsNow s then .tx else .idle := by
  obtain ⟨u, hu, rfl⟩ := cycleWith_next hr h
  obtain ⟨hE, l, hl, -⟩ := enginesTurn_frame hu
  obtain ⟨hrq, -, -, harb, -⟩ := received_controller x s
  have hbefore : ∃ c : State, beforeEngines x s = earlyPop s c ∧ c.rq = s.rq ∧ c.arb = .idle := by
    unfold beforeEngines arbiterTurn
    rcases ha with ha | ha <;> simp only [ha]
    · exact ⟨_, rfl, hrq, harb.trans ha⟩
    · exact ⟨_, rfl, hrq, rfl⟩
  obtain ⟨c, hc, hcq, hca⟩ := hbefore
  have huarb : u.arb = (earlyPop s c).arb := (congrArg State.arb hE :).trans (by rw [hc])
  cases hpops : popsNow s with
  | false => simp [latePop, popsLast, hpops, huarb, earlyPop, hca]
  | true =>
    obtain ⟨r, rest, hq⟩ := rq_of_popsNow hpops
    cases hlast : popsLast s with
    | false => simp [latePop, hlast, huarb, earlyPop, hpops, popRequest_cons (hcq.trans hq)]
    | true =>
      have huq : u.rq = r :: (rest ++ l) := by rw [hl, beforeEngines_rq, hpops, hlast, hq]; rfl
      simp [latePop, hlast, popRequest_cons huq]

/-- What a cycle that resets nothing makes of the queue: the controller takes its head where it pops, and the engines push one
request for each port that enters a wait (R114 to R116). -/
theorem cycleWith_pushed {x : CycleInput} {s t : State} (hr : resetsNow x s = false) (h : cycleWith x s = .next t) :
    ∃ pushed, t.rq = (if popsNow s then s.rq.tail else s.rq) ++ pushed ∧
      pushed.map Request.port = allPorts.filter (entersWait s t) ∧ ∀ e ∈ pushed, submissionOf s t e := by
  obtain ⟨u, hu, rfl⟩ := cycleWith_next hr h
  obtain ⟨l, hl, hmap, hsub⟩ := enginesTurn_submissions nodup_allPorts (beforeEngines_frame x s).1
    (fun p _ => (beforeEngines_port x s p).trans (hostTurn_outputs_port x s p)) hu
  refine ⟨l, latePop_pushed_rq hl, hmap.trans ?_, fun e he => ?_⟩
  · exact List.filter_congr fun p _ => entersWait_congr (latePop_port s u p).symm
  · obtain ⟨htag, hport, hwait⟩ := hsub e he
    exact ⟨htag, by rw [latePop_port, hport], by rw [latePop_port, hwait]⟩

/-- A pop takes the head of the queue into service (R116). -/
theorem cycleWith_pops {x : CycleInput} {s t : State} (hr : resetsNow x s = false) (h : cycleWith x s = .next t)
    (ha : s.arb = .idle ∨ s.arb = .reply) (hp : popsNow s = true) :
    ∃ r rest, s.rq = r :: rest ∧ t.cur = r ∧ t.txIdx = 0 ∧ t.arb = .tx := by
  have harb := cycleWith_arb hr h ha
  rw [hp, if_pos rfl] at harb
  obtain ⟨l, ⟨-, -, hidle, -⟩ | ⟨r, rest, hq, -, hcur, -, hidx⟩⟩ := cycleWith_queue hr h ha
  · rw [harb] at hidle
    cases hidle
  · exact ⟨r, rest, hq, hcur, hidx, harb⟩

/-- Without a pop the controller ends in ARB_IDLE with the same request in `cur` (R116, R119). -/
theorem cycleWith_rests {x : CycleInput} {s t : State} (hr : resetsNow x s = false) (h : cycleWith x s = .next t)
    (ha : s.arb = .idle ∨ s.arb = .reply) (hp : popsNow s = false) : t.cur = s.cur ∧ t.arb = .idle := by
  have harb := cycleWith_arb hr h ha
  rw [hp, if_neg Bool.false_ne_true] at harb
  obtain ⟨l, ⟨-, hcur, -⟩ | ⟨r, rest, -, -, -, htx, -⟩⟩ := cycleWith_queue hr h ha
  · exact ⟨hcur, harb⟩
  · rw [harb] at htx
    cases htx

theorem popsNow_of_nil {s : State} (h : s.rq = []) : popsNow s = false := by simp [popsNow, h]

/-- Settles O38: `cycleWith_pushed` says what is pushed, `cycleWith_pops` and `cycleWith_rests` what the controller takes. -/
theorem requestsAreServedInOrder : Obligations.RequestsAreServedInOrder := by
  intro x s t hr h
  obtain ⟨pushed, hrq, hmap, hsub⟩ := cycleWith_pushed hr h
  refine ⟨pushed, hmap, hsub, ?_⟩
  have pops : ∀ {r rest}, s.arb = .idle ∨ s.arb = .reply → s.rq = r :: rest → popsNow s = true →
      t.rq = rest ++ pushed ∧ t.cur = r ∧ t.txIdx = 0 ∧ t.arb = .tx := fun ha hq hp => by
    obtain ⟨r', rest', hq', hcur, hidx, harb⟩ := cycleWith_pops hr h ha hp
    cases hq.symm.trans hq'
    rw [hp, if_pos rfl, hq] at hrq
    exact ⟨hrq, hcur, hidx, harb⟩
  have rests : s.arb = .idle ∨ s.arb = .reply → popsNow s = false →
      t.rq = s.rq ++ pushed ∧ t.cur = s.cur ∧ t.arb = .idle := fun ha hp => by
    rw [hp, if_neg Bool.false_ne_true] at hrq
    exact ⟨hrq, cycleWith_rests hr h ha hp⟩
  have busy : s.arb = .tx ∨ s.arb = .rx → t.rq = s.rq ++ pushed ∧ t.cur = s.cur := fun ha => by
    rw [(popsNow_busy ha).1, if_neg Bool.false_ne_true] at hrq
    obtain ⟨-, -, hcur, -⟩ := cycleWith_line hr h ha
    exact ⟨hrq, hcur⟩
  cases ha : s.arb with
  | tx => exact busy (.inl ha)
  | rx => exact busy (.inr ha)
  | idle =>
    cases hq : s.rq with
    | nil => simpa [hq] using rests (.inl ha) (popsNow_of_nil hq)
    | cons r rest => exact pops (.inl ha) hq ((popsNow_idle ha).2 (by simp [hq]))
  | reply =>
    cases hq : s.rq with
    | nil => simpa [hq] using rests (.inr ha) (popsNow_of_nil hq)
    | cons r rest =>
      cases hp : popsNow s with
      | false => exact .inl (hq ▸ rests (.inr ha) hp)
      | true => exact .inr (pops (.inr ha) hq hp)

end Sys2Proof.Machine

/-!
PROOFS. The turn of one port's engine inside a cycle, and the tag discipline (R114, R119, R120).
-/
namespace Sys2Proof.Machine

open Sys2Proof

/-! ### The state in which a port's engine takes its turn -/

/-- The ports are the lower ones, the port itself and the higher ones. -/
theorem allPorts_split (p : PortId) :
    allPorts = allPorts.filter (fun r => decide (r < p)) ++ p :: allPorts.filter fun r => decide (p < r) := by
  revert p
  decide

/-- The queue up to the engines: as it was, or without its head where the controller has popped (log entries 9 and 28). -/
theorem length_beforeEngines_rq (x : CycleInput) (s : State) :
    (beforeEngines x s).rq.length = s.rq.length ∨
      (s.rq ≠ [] ∧ (s.arb = .idle ∨ s.arb = .reply) ∧ (beforeEngines x s).rq.length + 1 = s.rq.length) := by
  rw [beforeEngines_rq]
  split
  · next hp =>
    have hpops : popsNow s = true := (Bool.and_eq_true_iff.1 hp).1
    obtain ⟨r, rest, hq⟩ := rq_of_popsNow hpops
    refine .inr ⟨by simp [hq], ?_, by simp [hq]⟩
    rw [popsNow, Bool.and_eq_true, idlesNow] at hpops
    simpa using Or.imp_right And.left (by simpa using hpops.2)
  · exact .inl rfl

/-- In a cycle that resets nothing a port becomes what its engine's turn makes of it as the host's access left it, in a state
whose queue is as full as the port finds it (R114, R115). -/
theorem cycleWith_turn {x : CycleInput} {s t : State} (hr : resetsNow x s = false) (h : cycleWith x s = .next t)
    (p : PortId) :
    ∃ u v, engineTurn x s p u = .next v ∧ u.cfg = s.cfg ∧ u.port p = (hostTurn x s).port p ∧
      countsFor s t p u.rq.length ∧ t.port p = v.port p := by
  obtain ⟨w, hw, rfl⟩ := cycleWith_next hr h
  have hnodup := nodup_allPorts
  rw [allPorts_split p] at hw hnodup
  obtain ⟨hlow, hpHigh, hdisjoint⟩ := List.nodup_append.1 hnodup
  have hp : p ∉ allPorts.filter fun r => decide (r < p) := fun hm => hdisjoint p hm p List.mem_cons_self rfl
  obtain ⟨u, hu, hrest⟩ := enginesTurn_append hw
  obtain ⟨v, hv, hhigh⟩ := enginesTurn_cons hrest
  have hbefore := fun r => (beforeEngines_port x s r).trans (hostTurn_outputs_port x s r)
  refine ⟨u, v, hv, (enginesTurn_cfg hu).trans (beforeEngines_frame x s).1,
    (enginesTurn_port_of_notMem hu hp).trans (hbefore p), ?_, ?_⟩
  · obtain ⟨l, hl, hmap, -⟩ := enginesTurn_submissions hlow (beforeEngines_frame x s).1 (fun r _ => hbefore r) hu
    have hkept : ∀ r ∈ allPorts.filter (fun r => decide (r < p)), (latePop s w).port r = u.port r := fun r hr => by
      rw [latePop_port]
      exact enginesTurn_port_of_notMem hrest fun hm => hdisjoint r hr r hm rfl
    have hlen : l.length = (allPorts.filter fun r => entersWait s (latePop s w) r && decide (r < p)).length := by
      rw [← List.filter_filter, List.filter_congr fun r hr => entersWait_congr (hkept r hr), ← hmap, List.length_map]
    unfold countsFor
    rw [hl, List.length_append, hlen]
    rcases length_beforeEngines_rq x s with hsame | ⟨hne, harb, hpop⟩
    · exact .inl (by rw [hsame])
    · exact .inr ⟨hne, harb, by omega⟩
  · rw [latePop_port]
    exact enginesTurn_port_of_notMem hhigh (List.nodup_cons.1 hpHigh).1

/-! ### The hand-over of a reply -/

/-- A coherent port that waits has no command to run and none to delay. -/
theorem not_localCmd_of_waiting {s : State} {p : PortId} (hok : (s.port p).Coherent)
    (hw : (s.port p).waiting = true) : (s.port p).seq ≠ .localCmd := fun hlocal => by
  rw [(hok.of_localCmd hlocal).2] at hw
  cases hw

theorem runsNow_eq_false {s : State} {p : PortId} (h : (s.port p).seq ≠ .localCmd) : runsNow s p = false := by
  simp [runsNow, h]

theorem delaysNow_eq_false {s : State} {p : PortId} (h : (s.port p).seq ≠ .localCmd) : delaysNow s p = false := by
  simp [delaysNow, h]

/-- The engine of a port that the reply reaches hands it over, tick or no tick (R119, R122). -/
theorem engineTurn_of_replyReaches {s0 : State} {p : PortId} (hseq : (s0.port p).seq ≠ .localCmd)
    (hf : replyReaches s0 p) (x : CycleInput) (s : State) :
    engineTurn x s0 p s = .next (handOver p s0.reply.result s) := by
  rw [engineTurn, runsNow_eq_false hseq, engineWait, delaysNow_eq_false hseq, replyFor_iff.2 hf]
  rfl

/-- The cycle in which a reply reaches a port: the port becomes what the hand-over makes of it (R119, R122). -/
theorem cycleWith_handOver {x : CycleInput} {s t : State} {p : PortId} (hr : resetsNow x s = false)
    (hok : (s.port p).Coherent) (hf : replyReaches s p) (h : cycleWith x s = .next t) :
    ∃ u, u.cfg = s.cfg ∧ u.port p = (hostTurn x s).port p ∧ countsFor s t p u.rq.length ∧
      t.port p = (handOver p s.reply.result u).port p := by
  obtain ⟨u, v, hturn, hcfg, hport, hcount, ht⟩ := cycleWith_turn hr h p
  rw [engineTurn_of_replyReaches (not_localCmd_of_waiting hok hf.2.2.1) hf] at hturn
  cases hturn
  exact ⟨u, hcfg, hport, hcount, ht⟩

/-- After a hand-over a port waits no more, or it waits for the commit of a write (R119, R139). -/
theorem handOver_waiting (p : PortId) (r : TransportResult) (s : State) :
    ((handOver p r s).port p).waiting = false ∨
      ((s.port p).seq = .wrReadWait ∧ ((handOver p r s).port p).seq = .wrCommitWait) := by
  rcases deliver_effect (n := max 1 r.raw.length) p (s.modPort p Port.stopWait) (r := r) (by omega) (by omega) with
    heffect | ⟨-, hsame⟩
  · obtain ⟨q', l, hstep, ⟨-, he⟩ | ⟨-, -, bs, -, rfl⟩⟩ := commandEffect_stopWait heffect
    · refine .inl ?_
      rw [show (handOver p r s).port p = q' from (portStep_frame hstep).2.1, he.2.1]
    · obtain ⟨-, -, -, hqueued⟩ := portStep_frame hstep
      refine .inr ((handOver_submission p r s).resolve_left fun hrq => ?_)
      simpa using hrq.symm.trans hqueued
  · refine .inl ?_
    rw [handOver, hsame, port_modPort_self, stopWait_waiting]

/-- A port that the reply reaches submits its commit in that cycle or waits no more after it. -/
theorem cycleWith_replied {x : CycleInput} {s t : State} {p : PortId} (hr : resetsNow x s = false)
    (hok : (s.port p).Coherent) (hf : replyReaches s p) (h : cycleWith x s = .next t)
    (hno : entersWait s t p = false) : (t.port p).waiting = false := by
  obtain ⟨u, -, hport, -, ht⟩ := cycleWith_handOver hr hok hf h
  rw [ht]
  refine (handOver_waiting p _ u).resolve_right fun ⟨hread, hcommit⟩ => ?_
  rw [hport, (hostTurn_busy_keeps (hok.of_waiting hf.2.2.1).2).2.1] at hread
  rw [entersWait, ht, hcommit, hread] at hno
  cases hno

/-! ### Runs of tags -/

/-- The tags `l`, oldest first, are the last ones before and up to `τ`, counted mod `n`: what `State.TagsOk` says of the live
tags of a port. -/
def TagRun (n : Nat) (l : List Nat) (τ : Nat) : Prop :=
  τ < n ∧ (∀ t ∈ l, t < n) ∧ ∀ j, j < l.length → (l.reverse.getD j 0 + j) % n = τ

theorem TagRun.suffix {n τ : Nat} {l l' : List Nat} (h : TagRun n l τ) (hl : l' <:+ l) : TagRun n l' τ := by
  obtain ⟨hτ, hlt, hrun⟩ := h
  obtain ⟨l₀, rfl⟩ := hl
  refine ⟨hτ, fun t ht => hlt t (List.mem_append_right l₀ ht), fun j hj => ?_⟩
  have := hrun j (by rw [List.length_append]; omega)
  rwa [List.reverse_append, List.getD_append _ _ _ _ (by rwa [List.length_reverse])] at this

/-- A submission appends the next tag (R114). -/
theorem TagRun.push {n τ : Nat} {l : List Nat} (h : TagRun n l τ) : TagRun n (l ++ [(τ + 1) % n]) ((τ + 1) % n) := by
  obtain ⟨hτ, hlt, hrun⟩ := h
  have hnext : (τ + 1) % n < n := Nat.mod_lt _ (by omega)
  refine ⟨hnext, fun t ht => ?_, fun j hj => ?_⟩
  · rcases List.mem_append.1 ht with ht | ht
    · exact hlt t ht
    · rwa [List.mem_singleton.1 ht]
  · rw [List.reverse_append, List.reverse_singleton, List.singleton_append]
    cases j with
    | zero => simp
    | succ j =>
      rw [List.length_append, List.length_singleton] at hj
      rw [List.getD_cons_succ, ← hrun j (by omega), ← Nat.add_assoc, Nat.mod_add_mod]

/-- Fewer tags than `n` are pairwise different. -/
theorem TagRun.nodup {n τ : Nat} {l : List Nat} (h : TagRun n l τ) (hl : l.length ≤ n) : l.Nodup := by
  obtain ⟨-, -, hrun⟩ := h
  rw [← List.nodup_reverse, List.nodup_iff_pairwise_ne, List.pairwise_iff_getElem]
  intro i j hi hj hij heq
  rw [List.length_reverse] at hi hj
  have hi' := hrun i hi
  have hj' := hrun j hj
  rw [List.getD_eq_getElem _ _ (by rwa [List.length_reverse])] at hi' hj'
  rw [heq] at hi'
  have hmod : i ≡ j [MOD n] := Nat.ModEq.add_left_cancel' _ (hi'.trans hj'.symm)
  exact absurd (hmod.eq_of_lt_of_lt (by omega) (by omega)) (by omega)

/-! ### The controller in ARB_TX -/

/-- In ARB_TX the controller moves the index by the handshake, and arms the framer where that was the last byte (R117). -/
theorem arbiterTurn_tx {s0 : State} (ha : s0.arb = .tx) (x : CycleInput) (s : State) :
    arbiterTurn x s0 s =
      if armsNow x s0 then State.armFramer { s with txIdx := txNext x s0, arb := .rx }
      else { s with txIdx := txNext x s0 } := by
  simp only [arbiterTurn, ha]

/-- From ARB_TX the controller goes to ARB_RX where it arms the framer, else it stays (R117). -/
theorem cycleWith_tx_arb {x : CycleInput} {s t : State} (hr : resetsNow x s = false) (h : cycleWith x s = .next t)
    (ha : s.arb = .tx) : t.arb = if armsNow x s then .rx else .tx := by
  obtain ⟨-, -, -, -, hE⟩ := cycleWith_line hr h (.inl ha)
  rw [show t.arb = (beforeEngines x s).arb from (congrArg State.arb hE :), beforeEngines, arbiterTurn_tx ha]
  split
  · rfl
  · exact (arb_receiveTurn_hostTurn x s).trans ha

/-! ### The requests the controller holds -/

/-- The requests that the controller still holds: the one in service, then the queued ones in order. -/
def State.held (s : State) : List Request := (if s.arb = .idle then [] else [s.cur]) ++ s.rq

theorem liveTags_eq (s : State) (p : PortId) :
    s.liveTags p = (s.held.filter fun r => decide (r.port = p)).map Request.tag := rfl

/-- What a cycle makes of the held requests: the one that was replied to goes, and what the cycle pushed comes (R114 to
R119). -/
theorem cycleWith_held {x : CycleInput} {s t : State} (hr : resetsNow x s = false) (h : cycleWith x s = .next t) :
    ∃ pushed, t.held = (if s.arb = .reply then s.rq else s.held) ++ pushed ∧
      pushed.map Request.port = allPorts.filter (entersWait s t) ∧ ∀ e ∈ pushed, submissionOf s t e := by
  obtain ⟨pushed, hrq, hmap, hsub⟩ := cycleWith_pushed hr h
  refine ⟨pushed, ?_, hmap, hsub⟩
  have rest : s.arb = .idle ∨ s.arb = .reply → t.held = s.rq ++ pushed := fun ha => by
    cases hp : popsNow s with
    | false =>
      rw [hp, if_neg Bool.false_ne_true] at hrq
      simp [State.held, (cycleWith_rests hr h ha hp).2, hrq]
    | true =>
      obtain ⟨r, rest, hq, hcur, -, harb⟩ := cycleWith_pops hr h ha hp
      rw [hp, if_pos rfl, hq] at hrq
      simp [State.held, harb, hcur, hq, hrq]
  have busy : s.arb = .tx ∨ s.arb = .rx → t.arb ≠ .idle → t.held = s.cur :: s.rq ++ pushed := fun ha hne => by
    rw [(popsNow_busy ha).1, if_neg Bool.false_ne_true] at hrq
    obtain ⟨-, -, hcur, -⟩ := cycleWith_line hr h ha
    simp [State.held, hne, hcur, hrq]
  cases ha : s.arb with
  | idle => simpa [State.held, ha] using rest (.inl ha)
  | reply => simpa using rest (.inr ha)
  | tx =>
    have hne : t.arb ≠ .idle := by
      rw [cycleWith_tx_arb hr h ha]
      split <;> decide
    simpa [State.held, ha] using busy (.inl ha) hne
  | rx =>
    have hne : t.arb ≠ .idle := fun hidle => by
      cases hx : exchangeResult s with
      | none => simp [waits_of_no_result hr ha hx h] at hidle
      | some r => simp [(collects_of_result hr ha hx h).2.2] at hidle
    simpa [State.held, ha] using busy (.inr ha) hne

/-- Of a cycle's submissions port `p` has one if it enters a wait and else none (R114). -/
theorem tags_of_pushed {s t : State} {l : List Request} (hmap : l.map Request.port = allPorts.filter (entersWait s t))
    (hsub : ∀ e ∈ l, submissionOf s t e) (p : PortId) :
    (l.filter fun r => decide (r.port = p)).map Request.tag =
      if entersWait s t p then [nextTag s.cfg (s.port p).tag] else [] := by
  have hlen : (l.filter fun r => decide (r.port = p)).length = if entersWait s t p then 1 else 0 := by
    calc (l.filter fun r => decide (r.port = p)).length
        = (l.map Request.port).count p := by
          rw [List.count, List.countP_map, List.countP_eq_length_filter]
          rfl
      _ = if entersWait s t p then 1 else 0 := by
          rw [hmap, (nodup_allPorts.filter _).count]
          simp [mem_allPorts]
  have htags : ∀ τ ∈ (l.filter fun r => decide (r.port = p)).map Request.tag, τ = nextTag s.cfg (s.port p).tag := by
    simp only [List.mem_map, List.mem_filter, decide_eq_true_eq]
    rintro τ ⟨e, ⟨he, rfl⟩, rfl⟩
    exact (hsub e he).1
  rw [List.eq_replicate_of_mem htags, List.length_map, hlen]
  split <;> rfl

/-- The live tags of a port after a cycle: those before it, without that of the reply in hand, and the new one where the port
submitted (R114 to R120). -/
theorem cycleWith_liveTags {x : CycleInput} {s t : State} (hr : resetsNow x s = false) (h : cycleWith x s = .next t)
    (p : PortId) :
    ∃ kept, t.liveTags p = kept ++ (if entersWait s t p then [nextTag s.cfg (s.port p).tag] else []) ∧
      s.liveTags p = (if s.arb = .reply ∧ s.cur.port = p then [s.cur.tag] else []) ++ kept := by
  obtain ⟨pushed, hheld, hmap, hsub⟩ := cycleWith_held hr h
  refine ⟨((if s.arb = .reply then s.rq else s.held).filter fun r => decide (r.port = p)).map Request.tag, ?_, ?_⟩
  · rw [liveTags_eq, hheld, List.filter_append, List.map_append, tags_of_pushed hmap hsub]
  · rw [liveTags_eq]
    by_cases ha : s.arb = .reply
    · by_cases hp : s.cur.port = p <;> simp [State.held, ha, hp]
    · simp [ha]

/-- The reply that a cycle leaves in hand is that of the request in service (R118). -/
theorem cycleWith_reply {x : CycleInput} {s t : State} (hr : resetsNow x s = false) (h : cycleWith x s = .next t)
    (ha : t.arb = .reply) : t.reply.port = t.cur.port ∧ t.reply.tag = t.cur.tag := by
  have resting : s.arb = .idle ∨ s.arb = .reply → False := fun hs => by
    rw [cycleWith_arb hr h hs] at ha
    split at ha <;> cases ha
  cases hs : s.arb with
  | idle => exact (resting (.inl hs)).elim
  | reply => exact (resting (.inr hs)).elim
  | tx =>
    rw [cycleWith_tx_arb hr h hs] at ha
    split at ha <;> cases ha
  | rx =>
    obtain ⟨-, -, hcur, -⟩ := cycleWith_line hr h (.inr hs)
    cases hx : exchangeResult s with
    | none =>
      rw [waits_of_no_result hr hs hx h] at ha
      cases ha
    | some r =>
      rw [(collects_of_result hr hs hx h).1, hcur]
      exact ⟨rfl, rfl⟩

/-- A port that still waits after a cycle in which it submitted nothing has a live request: the reply in hand was not its
last one. -/
theorem liveTags_ne_nil {x : CycleInput} {s t : State} {p : PortId} (hr : resetsNow x s = false)
    (hok : (s.port p).Coherent) (htags : s.TagsOk) (h : cycleWith x s = .next t) (hno : entersWait s t p = false)
    (hw : (t.port p).waiting = true) : t.liveTags p ≠ [] := by
  obtain ⟨hall, hreply⟩ := htags
  obtain ⟨-, hlt, hrun, hlive⟩ := hall p
  obtain ⟨kept, ht, hs⟩ := cycleWith_liveTags hr h p
  rcases cycleWith_entersWait hr h p with ⟨hyes, -⟩ | ⟨-, -, hwait, -⟩
  · rw [hno] at hyes
    cases hyes
  have hsw : (s.port p).waiting = true := by
    rw [← (hostTurn_keeps x s p).2.2.1]
    exact hwait hw
  rw [ht, hno, if_neg Bool.false_ne_true, List.append_nil]
  rintro rfl
  have hsne := hlive hsw
  rw [List.append_nil] at hs
  split at hs
  · next hcur =>
    have htag := hrun 0 (by rw [hs]; exact Nat.zero_lt_one)
    rw [hs] at htag hlt
    have hcurTag : s.cur.tag = (s.port p).tag := by
      rw [← htag]
      exact (Nat.mod_eq_of_lt (hlt _ List.mem_cons_self)).symm
    obtain ⟨hport, hrtag⟩ := hreply hcur.1
    have hf : replyReaches s p := ⟨hcur.1, hport.trans hcur.2, hsw, hcurTag.symm.trans hrtag.symm⟩
    rw [cycleWith_replied hr hok hf h hno] at hw
    cases hw
  · exact hsne hs

theorem blockReset_tagsOk (n : Nat) (s : State) : (blockReset n s).TagsOk := by
  refine ⟨fun p => ?_, fun h => by cases h⟩
  rw [port_blockReset]
  exact ⟨Nat.two_pow_pos _, by simp [liveTags_eq, State.held, blockReset, State.resetWith],
    by simp [liveTags_eq, State.held, blockReset, State.resetWith], by simp [freshPort, Port.reset]⟩

/-- A cycle keeps the tag discipline. -/
theorem cycleWith_tagsOk {x : CycleInput} {s t : State} (hok : s.PortsOk) (htags : s.TagsOk)
    (h : cycleWith x s = .next t) : t.TagsOk := by
  cases hr : resetsNow x s with
  | true =>
    cases (cycleWith_reset hr).symm.trans h
    exact blockReset_tagsOk _ _
  | false =>
    refine ⟨fun p => ?_, cycleWith_reply hr h⟩
    obtain ⟨hτ, hlt, hrun, -⟩ := htags.1 p
    obtain ⟨kept, ht, hs⟩ := cycleWith_liveTags hr h p
    have hkept : TagRun (2 ^ s.cfg.tagBits) kept (s.port p).tag :=
      TagRun.suffix ⟨hτ, hlt, hrun⟩ (hs ▸ List.suffix_append _ kept)
    have hhost := (hostTurn_keeps x s p).2.1
    suffices hgoal : TagRun (2 ^ s.cfg.tagBits) (t.liveTags p) (t.port p).tag ∧
        ((t.port p).waiting = true → t.liveTags p ≠ []) by
      rw [cycleWith_cfg hr h]
      exact ⟨hgoal.1.1, hgoal.1.2.1, hgoal.1.2.2, hgoal.2⟩
    rcases cycleWith_entersWait hr h p with ⟨hyes, hsub⟩ | ⟨hno, htag, -⟩
    · obtain ⟨-, -, -, -, -, -, htag, -⟩ := hsub.keeps
      rw [ht, hyes, if_pos rfl, htag, hhost]
      exact ⟨hkept.push, fun _ => by simp⟩
    · refine ⟨?_, liveTags_ne_nil hr (hok p).1 htags h hno⟩
      rw [ht, hno, if_neg Bool.false_ne_true, List.append_nil, htag, hhost]
      exact hkept

/-- Settles O57: `cycleWith_tagsOk` for the inputs the state holds. -/
theorem stepKeepsTheTags : Obligations.StepKeepsTheTags := fun _ _ hok htags h => cycleWith_tagsOk hok htags h

/-- A port has one live request in service at most, and the others in the queue. -/
theorem length_liveTags_le (s : State) (p : PortId) : (s.liveTags p).length ≤ s.rq.length + 1 := by
  calc (s.liveTags p).length
      ≤ s.held.length := by
        rw [liveTags_eq, List.length_map]
        exact List.length_filter_le _ _
    _ ≤ s.rq.length + 1 := by
        unfold State.held
        split <;> simp

/-- Settles O58: at most `QDEPTH + 1` tags in a row are different mod `2^TAG_BITS`. -/
theorem liveRequestsNeverShareATag : Obligations.LiveRequestsNeverShareATag := by
  intro s p hv hq htags
  obtain ⟨hτ, hlt, hrun, -⟩ := htags.1 p
  have hdepth : s.rq.length ≤ s.cfg.qDepth := hq.1
  obtain ⟨-, -, -, -, -, -, -, hbits, -⟩ := hv
  have hlen := length_liveTags_le s p
  exact TagRun.nodup ⟨hτ, hlt, hrun⟩ (by omega)

end Sys2Proof.Machine

/-!
PROOFS. The framer and the receive FIFO over a cycle, and that every cycle keeps the line and the queues in order (R35, R74 to
R80, R117, R118).
-/
namespace Sys2Proof.Machine

open Sys2Proof

/-! ### What of a cycle the engines and the last pop leave alone -/

/-- The engines and the pop that comes last touch the ports, the queue and the controller only. -/
theorem cycleWith_frame {x : CycleInput} {s t : State} (hr : resetsNow x s = false) (h : cycleWith x s = .next t) :
    let b := beforeEngines x s
    { t with ports := b.ports, rq := b.rq, cur := b.cur, txIdx := b.txIdx, arb := b.arb, active := b.active } = b := by
  obtain ⟨u, hu, rfl⟩ := cycleWith_next hr h
  have hE := (enginesTurn_frame hu).1
  unfold latePop State.popRequest
  split
  · split <;> rw [← hE]
  · rw [← hE]

/-- The registers of the framer and the receive FIFO are after the cycle as the controller leaves them. -/
theorem cycleWith_receiver {x : CycleInput} {s t : State} (hr : resetsNow x s = false) (h : cycleWith x s = .next t) :
    t.framer = (beforeEngines x s).framer ∧ t.rxq = (beforeEngines x s).rxq ∧ t.rxOvr = (beforeEngines x s).rxOvr ∧
      t.reply = (beforeEngines x s).reply := by
  have hF := cycleWith_frame hr h
  exact ⟨(congrArg State.framer hF :), (congrArg State.rxq hF :), (congrArg State.rxOvr hF :), (congrArg State.reply hF :)⟩

/-- The state in which the controller takes its turn. -/
def State.received (x : CycleInput) (s : State) : State := receiveTurn x s (hostTurn x (s.outputs x))

theorem beforeEngines_eq (x : CycleInput) (s : State) : beforeEngines x s = arbiterTurn x s (s.received x) := rfl

/-- The controller leaves the FIFO and `RX_OVR` to the receive side. -/
theorem beforeEngines_fifo (x : CycleInput) (s : State) :
    (beforeEngines x s).rxq = (s.received x).rxq ∧ (beforeEngines x s).rxOvr = (s.received x).rxOvr := by
  have hA := arbiterTurn_frame x s (s.received x)
  exact ⟨(congrArg State.rxq hA :), (congrArg State.rxOvr hA :)⟩

/-- In ARB_IDLE and in ARB_REPLY the controller leaves the framer alone. -/
theorem beforeEngines_framer_of_resting {x : CycleInput} {s : State} (ha : s.arb = .idle ∨ s.arb = .reply) :
    (beforeEngines x s).framer = (s.received x).framer := by
  rw [beforeEngines_eq, arbiterTurn]
  rcases ha with ha | ha <;> simp only [ha]
  · exact (congrArg State.framer (earlyPop_frame s (s.received x)) :)
  · exact (congrArg State.framer (earlyPop_frame s { s.received x with arb := .idle }) :)

/-! ### The framer's registers -/

/-- The host leaves the framer alone. -/
theorem hostTurn_framer (x : CycleInput) (s : State) :
    (hostTurn x (s.outputs x)).framer = s.framer ∧ (hostTurn x (s.outputs x)).cfg = s.cfg ∧
      (hostTurn x (s.outputs x)).rxq = s.rxq := by
  have hH := hostTurn_frame x (s.outputs x)
  exact ⟨(congrArg State.framer hH :), (congrArg State.cfg hH :), (congrArg State.rxq hH :)⟩

/-- The registers of the framer one by one. -/
theorem framer_eq_iff {s u : State} :
    u.framer = s.framer ↔
      u.rxState = s.rxState ∧ u.rxBuf = s.rxBuf ∧ u.rxCnt = s.rxCnt ∧ u.rxLen = s.rxLen ∧ u.rxTimer = s.rxTimer := by
  simp only [State.framer, Prod.mk.injEq]

/-- What the framer does with a byte depends on its registers and the build only. -/
theorem takeByte_framer_congr {s u : State} (hcfg : u.cfg = s.cfg) (hf : u.framer = s.framer) (b : Byte) :
    (takeByte b u).framer = (takeByte b s).framer := by
  obtain ⟨hst, hbuf, hcnt, hlen, htimer⟩ := framer_eq_iff.1 hf
  unfold takeByte
  rw [hst]
  cases s.rxState with
  | awaitMarker =>
    simp only [takeMarker]
    split <;> simp only [State.framer, hcfg, hbuf, hlen]
  | awaitHeader1 => simp only [takeHeader1, State.framer, hcfg, hbuf, hlen]
  | awaitHeader2 => simp only [takeHeader2, State.framer, hcfg, hbuf]
  | accum => simp only [takeAccum, State.framer, hcfg, hbuf, hcnt, hlen]
  | idle | complete | errProtocol | errTimeout => exact hf

/-- What a tick does to the framer depends on its registers only. -/
theorem byteTick_framer_congr {s u : State} (hf : u.framer = s.framer) : (byteTick u).framer = (byteTick s).framer := by
  obtain ⟨hst, hbuf, hcnt, hlen, htimer⟩ := framer_eq_iff.1 hf
  unfold byteTick
  rw [htimer]
  split <;> simp only [State.framer, hst, hbuf, hcnt, hlen]

/-- Outside ARB_TX nothing is armed. -/
theorem armsNow_eq_false {x : CycleInput} {s : State} (ha : s.arb ≠ .tx) : armsNow x s = false := by
  simp [armsNow, ha]

/-- A framer that waits for nothing is left alone by the receive side. -/
theorem received_framer_of_not_waiting {x : CycleInput} {s : State} (hw : s.rxState.isWaiting = false) :
    (s.received x).framer = s.framer := by
  refine Eq.trans ?_ (hostTurn_framer x s).1
  unfold State.received receiveTurn
  rw [hw]
  split
  · exact (congrArg State.framer (flushFifo_frame x s (hostTurn x (s.outputs x))) :)
  · exact (congrArg State.framer (pushByte_frame x s (hostTurn x (s.outputs x))) :)

/-- A waiting framer with a byte there takes the oldest one (R75). -/
theorem received_of_byte {x : CycleInput} {s : State} {b : Byte} {rest : List Byte} (ha : s.arb ≠ .tx)
    (hw : s.rxState.isWaiting = true) (hb : s.rxq ++ x.rx.toList = b :: rest) :
    s.received x = { takeByte b (hostTurn x (s.outputs x)) with rxq := rest } := by
  unfold State.received receiveTurn
  rw [armsNow_eq_false ha, hw, hb]
  rfl

/-- A waiting framer with no byte there counts a tick, if one comes (R81). -/
theorem received_of_no_byte {x : CycleInput} {s : State} (ha : s.arb ≠ .tx) (hw : s.rxState.isWaiting = true)
    (hb : s.rxq ++ x.rx.toList = []) :
    s.received x = if x.tick then byteTick (hostTurn x (s.outputs x)) else hostTurn x (s.outputs x) := by
  unfold State.received receiveTurn
  rw [armsNow_eq_false ha, hw, hb]
  rfl

/-! ### The framer's count and buffer agree with its state -/

theorem framerOk_congr {s u : State} (hcfg : u.cfg = s.cfg) (hf : u.framer = s.framer) : u.FramerOk ↔ s.FramerOk := by
  obtain ⟨hst, hbuf, hcnt, hlen, -⟩ := framer_eq_iff.1 hf
  unfold State.FramerOk
  rw [hcfg, hst, hbuf, hcnt, hlen]

/-- Writing one buffer byte leaves the others. -/
theorem bufGet_bufPut_ne {lim i k : Nat} (h : i ≠ k) (m : Memory) (v : Byte) :
    bufGet lim (bufPut lim m k v) i = bufGet lim m i := by
  simp [bufGet, h]

theorem bufGet_bufPut_self {lim k : Nat} (h : k < lim) (m : Memory) (v : Byte) : bufGet lim (bufPut lim m k v) k = v := by
  simp [bufGet, h]

/-- A byte keeps the framer's count and buffer in agreement with its state (R76 to R79). -/
theorem takeByte_framerOk {s : State} (hv : s.cfg.Valid) (h : s.FramerOk) (b : Byte) : (takeByte b s).FramerOk := by
  have hF := (frameMax_of_valid hv).1
  have hF0 : 0 < s.cfg.frameMax := by omega
  have hF2 : 2 < s.cfg.frameMax := by omega
  have hF9 := (frameMax_of_valid hv).2
  unfold State.FramerOk at h
  cases hs : s.rxState with
  | idle | complete | errProtocol | errTimeout =>
    have hsame : takeByte b s = s := by simp only [takeByte, hs]
    rw [hsame, State.FramerOk]
    simpa only [hs] using h
  | awaitMarker =>
    by_cases hb : b = 0x02
    · rw [hb, takeByte_marker hs]
      exact ⟨rfl, bufGet_bufPut_self hF0 _ _⟩
    · have herr : takeByte b s = { s with rxTimer := s.cfg.byteTimeout, rxState := .errProtocol, rxCnt := 0 } := by
        simp only [takeByte, hs, takeMarker, if_neg hb]
      rw [herr]
      exact rfl
  | awaitHeader1 =>
    simp only [hs] at h
    rw [takeByte_header1 hs]
    exact ⟨rfl, (bufGet_bufPut_ne (by decide) _ _).trans h.2⟩
  | awaitHeader2 =>
    simp only [hs] at h
    rw [takeByte_header2 hs]
    have h4 : 4 ≤ frameLength s.cfg b := Nat.le_max_left _ _
    exact ⟨Nat.le_refl 3, h4, (bufGet_bufPut_ne (by decide) _ _).trans h.2, bufGet_bufPut_self hF2 _ _⟩
  | accum =>
    simp only [hs] at h
    obtain ⟨h3, hlt, hmark, hlen⟩ := h
    have hlim := frameLength_le_frameMax hv s.rxLen
    have hcnt : (s.rxCnt + 1).toNat = s.rxCnt.toNat + 1 := by
      rw [BitVec.toNat_add]
      exact Nat.mod_eq_of_lt (by simp; omega)
    rw [takeByte_accum hs]
    have hmark' := (bufGet_bufPut_ne (lim := s.cfg.frameMax) (show 0 ≠ s.rxCnt.toNat by omega) s.rxBuf b).trans hmark
    have hlen' := (bufGet_bufPut_ne (lim := s.cfg.frameMax) (show 2 ≠ s.rxCnt.toNat by omega) s.rxBuf b).trans hlen
    unfold State.FramerOk
    by_cases hdone : s.rxLen.toNat + s.cfg.termBias ≤ (s.rxCnt + 1).toNat
    · simp only [if_pos hdone]
      refine ⟨?_, hmark', hlen'⟩
      unfold frameLength at hlt ⊢
      show (s.rxCnt + 1).toNat = _
      omega
    · simp only [if_neg hdone]
      refine ⟨by omega, ?_, hmark', hlen'⟩
      unfold frameLength at hlt ⊢
      show (s.rxCnt + 1).toNat < _
      omega

/-- A waiting framer is not idle after a byte. -/
theorem takeByte_ne_idle {s : State} (hw : s.rxState.isWaiting = true) (b : Byte) : (takeByte b s).rxState ≠ .idle := by
  unfold takeByte
  cases hs : s.rxState <;> simp only [hs, RxState.isWaiting, Bool.false_eq_true] at hw ⊢
  · unfold takeMarker
    split <;> simp
  · simp [takeHeader1]
  · simp [takeHeader2]
  · simp only [takeAccum]
    split <;> simp

/-- A tick keeps the framer's count and buffer in agreement with its state, and the framer at work (R81). -/
theorem byteTick_framerOk {s : State} (h : s.FramerOk) (hs : s.rxState ≠ .idle) :
    (byteTick s).FramerOk ∧ (byteTick s).rxState ≠ .idle := by
  unfold byteTick
  split
  · exact ⟨rfl, by simp⟩
  · exact ⟨h, hs⟩

theorem framerOk_of_outputs {x : CycleInput} {s : State} (h : s.FramerOk) : (hostTurn x (s.outputs x)).FramerOk :=
  (framerOk_congr (hostTurn_framer x s).2.1 (hostTurn_framer x s).1).2 h

/-- A framer at work stays at work, in agreement, through the receive side's turn. -/
theorem received_framerOk {x : CycleInput} {s : State} (hv : s.cfg.Valid) (h : s.FramerOk) (ha : s.arb ≠ .tx)
    (hs : s.rxState ≠ .idle) : (s.received x).FramerOk ∧ (s.received x).rxState ≠ .idle := by
  obtain ⟨hframer, hcfg, -⟩ := hostTurn_framer x s
  have hst : (hostTurn x (s.outputs x)).rxState = s.rxState := (framer_eq_iff.1 hframer).1
  have hhost := framerOk_of_outputs (x := x) h
  cases hw : s.rxState.isWaiting with
  | false =>
    have hsame := received_framer_of_not_waiting (x := x) hw
    obtain ⟨-, -, -, -, -, (hcfg' : (s.received x).cfg = s.cfg)⟩ := received_controller x s
    exact ⟨(framerOk_congr hcfg' hsame).2 h, (framer_eq_iff.1 hsame).1 ▸ hs⟩
  | true =>
    cases hb : s.rxq ++ x.rx.toList with
    | cons b rest =>
      rw [received_of_byte ha hw hb]
      exact ⟨takeByte_framerOk (hcfg.symm ▸ hv) hhost b, takeByte_ne_idle (hst.symm ▸ hw) b⟩
    | nil =>
      rw [received_of_no_byte ha hw hb]
      split
      · exact byteTick_framerOk hhost (hst.symm ▸ hs)
      · exact ⟨hhost, hst.symm ▸ hs⟩

/-! ### The line -/

/-- A count that agrees with its state is that of a frame that fits the buffer. -/
theorem rxCnt_le_frameMax {s : State} (hv : s.cfg.Valid) (h : s.FramerOk) : s.rxCnt.toNat ≤ s.cfg.frameMax := by
  have hF := (frameMax_of_valid hv).1
  have hlim := frameLength_le_frameMax hv s.rxLen
  unfold State.FramerOk at h
  cases hs : s.rxState <;> simp only [hs] at h
  · exact h
  · simp [h]
  · simp [h.1]; omega
  · simp [h.1]; omega
  · omega
  · omega
  · simp [h]
  · simp [h]

/-- The line is in order as the framer's registers and the controller's state say. -/
theorem lineOk_of_framer {s t : State} (hcfg : t.cfg = s.cfg) (hf : t.framer = s.framer)
    (harb : t.arb = .rx ↔ s.rxState ≠ .idle) (h : s.FramerOk) : t.LineOk :=
  ⟨by rw [(framer_eq_iff.1 hf).1]; exact harb, (framerOk_congr hcfg hf).2 h⟩

/-- A cycle that resets nothing keeps the framer at work exactly in ARB_RX, and its registers in agreement. -/
theorem cycleWith_lineOk {x : CycleInput} {s t : State} (hr : resetsNow x s = false) (hv : s.cfg.Valid) (hl : s.LineOk)
    (h : cycleWith x s = .next t) : t.LineOk := by
  obtain ⟨hwork, hok⟩ := hl
  have hcfg := cycleWith_cfg hr h
  have hframer := (cycleWith_receiver hr h).1
  have idles : s.arb ≠ .rx → s.rxState = .idle := fun ha => not_not.1 fun hne => ha (hwork.2 hne)
  have quiet : s.arb ≠ .rx → (s.received x).framer = s.framer := fun ha =>
    received_framer_of_not_waiting (by rw [idles ha]; rfl)
  have resting : s.arb = .idle ∨ s.arb = .reply → t.LineOk := fun ha => by
    have hne : s.arb ≠ .rx := by rcases ha with ha | ha <;> simp [ha]
    refine lineOk_of_framer hcfg (hframer.trans ((beforeEngines_framer_of_resting ha).trans (quiet hne))) ?_ hok
    rw [cycleWith_arb hr h ha, idles hne]
    split <;> simp
  cases ha : s.arb with
  | idle => exact resting (.inl ha)
  | reply => exact resting (.inr ha)
  | tx =>
    have hne : s.arb ≠ .rx := by simp [ha]
    have harb := cycleWith_tx_arb hr h ha
    rw [beforeEngines_eq, arbiterTurn_tx ha] at hframer
    cases harms : armsNow x s with
    | true =>
      rw [harms, if_pos rfl] at harb hframer
      obtain ⟨hst, -, hcnt, -⟩ := framer_eq_iff.1 hframer
      rw [armFramer_rxState] at hst
      rw [armFramer_rxCnt] at hcnt
      refine ⟨by simp [harb, hst], ?_⟩
      simp only [State.FramerOk, hst]
      exact hcnt
    | false =>
      rw [harms, if_neg Bool.false_ne_true] at harb hframer
      refine lineOk_of_framer hcfg (hframer.trans (quiet hne)) ?_ hok
      rw [harb, idles hne]
      simp
  | rx =>
    obtain ⟨hok', hst'⟩ := received_framerOk (x := x) hv hok (by simp [ha]) (hwork.1 ha)
    obtain ⟨-, -, -, -, -, (hcfg' : (s.received x).cfg = s.cfg)⟩ := received_controller x s
    cases hx : exchangeResult s with
    | none =>
      rw [beforeEngines_eq, arbiterTurn_rx_none ha hx] at hframer
      exact lineOk_of_framer (hcfg.trans hcfg'.symm) hframer (iff_of_true (waits_of_no_result hr ha hx h) hst') hok'
    | some r =>
      rw [beforeEngines_eq, arbiterTurn_rx_some ha hx] at hframer
      obtain ⟨-, hst, harb⟩ := collects_of_result hr ha hx h
      have hcnt : t.rxCnt = (s.received x).rxCnt := (framer_eq_iff.1 hframer).2.2.1
      refine ⟨by simp [hst, harb], ?_⟩
      simp only [State.FramerOk, hst]
      rw [hcnt, hcfg, ← hcfg']
      exact rxCnt_le_frameMax (hcfg'.symm ▸ hv) hok'

/-! ### The queues -/

/-- The receive FIFO stays within its depth (R35, R75). -/
theorem length_received_rxq {x : CycleInput} {s : State} (hv : s.cfg.Valid) (h : s.rxq.length ≤ s.cfg.rxFifoDepth) :
    (s.received x).rxq.length ≤ s.cfg.rxFifoDepth := by
  obtain ⟨-, -, hrxq⟩ := hostTurn_framer x s
  obtain ⟨-, -, -, -, -, -, -, -, hdepth⟩ := hv
  unfold State.received receiveTurn
  split
  · unfold flushFifo
    split
    · exact Nat.zero_le _
    · split
      · exact hdepth
      · exact Nat.zero_le _
  · split
    · split
      · next b rest hb =>
        have hlen : (s.rxq ++ x.rx.toList).length ≤ s.rxq.length + 1 := by
          rw [List.length_append]
          cases x.rx <;> simp
        rw [hb, List.length_cons] at hlen
        exact (show rest.length ≤ s.rxq.length by omega).trans h
      · split
        · rw [show (byteTick _).rxq = _ from (congrArg State.rxq (byteTick_frame (hostTurn x (s.outputs x))) :), hrxq]
          exact h
        · exact hrxq ▸ h
    · unfold pushByte
      split
      · exact hrxq ▸ h
      · split
        · next hlt =>
          show (_ ++ [_]).length ≤ _
          rw [List.length_append, hrxq]
          exact hlt
        · exact hrxq ▸ h

/-- The index after the cycle's handshake, as a number (R117). -/
theorem toNat_txNext {x : CycleInput} {s : State} (ha : s.arb = .tx) (hlen : s.cur.bytes.length < 512) :
    (txNext x s).toNat =
      s.txIdx.toNat + if x.txReady = true ∧ s.txIdx.toNat < s.cur.bytes.length then 1 else 0 := by
  have hbyte : s.txByte.isSome = decide (s.txIdx.toNat < s.cur.bytes.length) := by
    rw [Bool.eq_iff_iff, decide_eq_true_eq]
    simp [State.txByte, ha]
  have hiff : (s.txByte.isSome && x.txReady) = true ↔ x.txReady = true ∧ s.txIdx.toNat < s.cur.bytes.length := by
    rw [hbyte, Bool.and_eq_true, decide_eq_true_eq, and_comm]
  unfold txNext
  simp only [hiff]
  split
  · next hlt =>
    rw [BitVec.toNat_add]
    exact Nat.mod_eq_of_lt (by simp; omega)
  · rfl

/-- The bytes of a reply fit a frame buffer (R112). -/
theorem length_exchangeResult {s : State} (hv : s.cfg.Valid) (h : s.FramerOk) {r : TransportResult}
    (hx : exchangeResult s = some r) : r.raw.length ≤ s.cfg.frameMax := by
  unfold exchangeResult at hx
  split at hx
  · cases hx
    exact (length_rxFrame s).symm ▸ rxCnt_le_frameMax hv h
  · cases hx
    exact Nat.zero_le _
  · cases hx
    exact Nat.zero_le _
  all_goals cases hx

/-- Of a cycle only ARB_RX with a framer at rest makes a reply, and its bytes fit a frame buffer (R112, R118). -/
theorem cycleWith_reply_fits {x : CycleInput} {s t : State} (hr : resetsNow x s = false) (hv : s.cfg.Valid)
    (hok : s.FramerOk) (hraw : s.reply.result.raw.length ≤ s.cfg.frameMax) (h : cycleWith x s = .next t) :
    t.reply.result.raw.length ≤ s.cfg.frameMax := by
  obtain ⟨-, -, -, -, (hsame : (s.received x).reply = s.reply), -⟩ := received_controller x s
  obtain ⟨-, -, -, hreply⟩ := cycleWith_receiver hr h
  rw [hreply, beforeEngines_eq]
  cases ha : s.arb with
  | idle =>
    rw [show arbiterTurn x s (s.received x) = earlyPop s (s.received x) by simp only [arbiterTurn, ha],
      show (earlyPop s (s.received x)).reply = s.reply from (congrArg State.reply (earlyPop_frame s _) :).trans hsame]
    exact hraw
  | reply =>
    rw [show arbiterTurn x s (s.received x) = earlyPop s { s.received x with arb := .idle } by simp only [arbiterTurn, ha],
      show (earlyPop s { s.received x with arb := .idle }).reply = s.reply from
        (congrArg State.reply (earlyPop_frame s _) :).trans hsame]
    exact hraw
  | tx =>
    rw [arbiterTurn_tx ha]
    split <;> exact hsame ▸ hraw
  | rx =>
    cases hx : exchangeResult s with
    | none =>
      rw [arbiterTurn_rx_none ha hx]
      exact hsame ▸ hraw
    | some r =>
      rw [arbiterTurn_rx_some ha hx]
      exact length_exchangeResult hv hok hx

/-- In ARB_TX the index moves by the handshake (R117). -/
theorem cycleWith_txIdx {x : CycleInput} {s t : State} (hr : resetsNow x s = false) (h : cycleWith x s = .next t)
    (ha : s.arb = .tx) : t.txIdx = txNext x s := by
  obtain ⟨-, -, -, -, hE⟩ := cycleWith_line hr h (.inl ha)
  rw [show t.txIdx = (beforeEngines x s).txIdx from (congrArg State.txIdx hE :), beforeEngines_eq, arbiterTurn_tx ha]
  split <;> rfl

/-- The request in service fits a frame, and in ARB_TX a byte of it is left to send unless it is empty (R117; log entry 6). -/
theorem cycleWith_cur {x : CycleInput} {s t : State} (hr : resetsNow x s = false) (hv : s.cfg.Valid) (hq : s.QueuesOk)
    (h : cycleWith x s = .next t) :
    t.cur.bytes.length ≤ s.cfg.frameMax ∧
      (t.arb = .tx → t.txIdx.toNat < t.cur.bytes.length ∨ (t.txIdx = 0 ∧ t.cur.bytes = [])) := by
  obtain ⟨-, -, hbytes, hcurLen, -, hidx⟩ := hq
  have hF := (frameMax_of_valid hv).2
  have resting : s.arb = .idle ∨ s.arb = .reply → t.cur.bytes.length ≤ s.cfg.frameMax ∧
      (t.arb = .tx → t.txIdx.toNat < t.cur.bytes.length ∨ (t.txIdx = 0 ∧ t.cur.bytes = [])) := fun ha => by
    cases hp : popsNow s with
    | true =>
      obtain ⟨r, rest, hrq, hcur, hzero, -⟩ := cycleWith_pops hr h ha hp
      rw [hcur, hzero]
      refine ⟨hbytes r (by simp [hrq]), fun _ => ?_⟩
      rcases Nat.eq_zero_or_pos r.bytes.length with hnil | hpos
      · exact .inr ⟨rfl, List.length_eq_zero_iff.1 hnil⟩
      · exact .inl hpos
    | false =>
      obtain ⟨hcur, harb⟩ := cycleWith_rests hr h ha hp
      rw [hcur, harb]
      exact ⟨hcurLen, fun htx => by cases htx⟩
  cases ha : s.arb with
  | idle => exact resting (.inl ha)
  | reply => exact resting (.inr ha)
  | tx =>
    obtain ⟨-, -, hcur, -⟩ := cycleWith_line hr h (.inl ha)
    have hnext := toNat_txNext (x := x) ha (by omega)
    rw [hcur, cycleWith_txIdx hr h ha, cycleWith_tx_arb hr h ha]
    refine ⟨hcurLen, fun harb => .inl ?_⟩
    have hne : (txNext x s).toNat ≠ s.cur.bytes.length := fun hlast => by
      simp [armsNow, ha, hlast] at harb
    rcases hidx ha with hlt | ⟨hzero, hnil⟩
    · split at hnext <;> omega
    · simp [hzero, hnil] at hnext hne
      exact absurd hnext hne
  | rx =>
    obtain ⟨-, -, hcur, -⟩ := cycleWith_line hr h (.inr ha)
    rw [hcur]
    refine ⟨hcurLen, fun harb => ?_⟩
    cases hx : exchangeResult s with
    | none => simp [waits_of_no_result hr ha hx h] at harb
    | some r => simp [(collects_of_result hr ha hx h).2.2] at harb

/-- The queue stays within its depth and its requests within a frame (R37, R114). -/
theorem cycleWith_rq_bounds {x : CycleInput} {s t : State} (hr : resetsNow x s = false) (hq : s.QueuesOk)
    (h : cycleWith x s = .next t) :
    t.rq.length ≤ s.cfg.qDepth ∧ ∀ e ∈ t.rq, e.bytes.length ≤ s.cfg.frameMax := by
  obtain ⟨hlen, -, hbytes, -, hraw, -⟩ := hq
  obtain ⟨u, hu, rfl⟩ := cycleWith_next hr h
  obtain ⟨-, l, hl, -, hdepth, hl'⟩ := enginesTurn_frame hu
  rw [(beforeEngines_frame x s).1] at hdepth hl'
  have tail_or : ∀ {c : Bool} {q : List Request}, (if c then q.tail else q).Sublist q := fun {c q} => by
    cases c
    · exact List.Sublist.refl q
    · exact List.tail_sublist q
  have hbefore : (beforeEngines x s).rq.Sublist s.rq := by
    rw [beforeEngines_rq]
    exact tail_or
  have hafter : (latePop s u).rq.Sublist u.rq := by
    rw [latePop_rq]
    exact tail_or
  refine ⟨hafter.length_le.trans (hdepth (hbefore.length_le.trans hlen)), fun e he => ?_⟩
  have heu := hafter.subset he
  rw [hl] at heu
  rcases List.mem_append.1 heu with he | he
  · exact hbytes e (hbefore.subset he)
  · exact (hl' e he).trans (by omega)

/-- A cycle that resets nothing keeps the queues within their limits, and in ARB_TX a byte left to send (R117). -/
theorem cycleWith_queuesOk {x : CycleInput} {s t : State} (hr : resetsNow x s = false) (hv : s.cfg.Valid) (hl : s.LineOk)
    (hq : s.QueuesOk) (h : cycleWith x s = .next t) : t.QueuesOk := by
  obtain ⟨hrqLen, hrqBytes⟩ := cycleWith_rq_bounds hr hq h
  obtain ⟨hcurLen, hidx⟩ := cycleWith_cur hr hv hq h
  obtain ⟨-, hfifo, -, -, hraw, -⟩ := hq
  have hfifo' : t.rxq.length ≤ s.cfg.rxFifoDepth := by
    rw [(cycleWith_receiver hr h).2.1, (beforeEngines_fifo x s).1]
    exact length_received_rxq hv hfifo
  unfold State.QueuesOk
  rw [cycleWith_cfg hr h]
  exact ⟨hrqLen, hfifo', hrqBytes, hcurLen, cycleWith_reply_fits hr hv hl.2 hraw h, hidx⟩

theorem blockReset_lineOk (n : Nat) (s : State) : (blockReset n s).LineOk :=
  ⟨by simp [blockReset, State.resetWith], Nat.zero_le _⟩

theorem blockReset_queuesOk (n : Nat) (s : State) : (blockReset n s).QueuesOk :=
  ⟨Nat.zero_le _, Nat.zero_le _, by simp [blockReset, State.resetWith], Nat.zero_le _, Nat.zero_le _, fun h => by cases h⟩

/-- Settles O56: a reset leaves the line and the queues in order, and every other cycle keeps them so. -/
theorem stepKeepsTheLineInOrder : Obligations.StepKeepsTheLineInOrder := by
  intro s t hv ⟨hl, hq⟩ h
  cases hr : resetsNow s.input s with
  | true =>
    cases (cycleWith_reset hr).symm.trans h
    exact ⟨blockReset_lineOk _ _, blockReset_queuesOk _ _⟩
  | false => exact ⟨cycleWith_lineOk hr hv hl h, cycleWith_queuesOk hr hv hl hq h⟩

/-! ### Runs of well-kept states -/

/-- A cycle that resets nothing keeps every invariant of a valid build. -/
theorem cycleWith_wellKept {x : CycleInput} {s t : State} (hr : resetsNow x s = false) (hk : s.WellKept)
    (h : cycleWith x s = .next t) : t.WellKept := by
  obtain ⟨hv, hports, hl, hq, htags⟩ := hk
  exact ⟨cycleWith_cfg hr h ▸ hv, cycleWith_portsOk hports h, cycleWith_lineOk hr hv hl h, cycleWith_queuesOk hr hv hl hq h,
    cycleWith_tagsOk hports htags h⟩

/-- Every state of a run without a reset is well kept if the first one is. -/
theorem run_wellKept {x : Nat → CycleInput} {s : Nat → State} (hrun : IsRun x s) (h0 : (s 0).WellKept) (n : Nat) :
    (s n).WellKept := by
  induction n with
  | zero => exact h0
  | succ n ih => exact cycleWith_wellKept (hrun n).1 ih (hrun n).2

/-- Settles O12: all states of the run are well kept, so each exchange, each queued request and each wait ends. -/
theorem exchangesAndWaitsEnd : Obligations.ExchangesAndWaitsEnd := by
  intro x s hrun hu ht h0
  have hk := run_wellKept hrun h0
  refine ⟨fun n ha => ?_, fun n j e he => ?_, fun n p hw => wait_ends hrun hk hu ht hw⟩
  · obtain ⟨k, hline, hreply, hsent, htaken, hticks⟩ := exchange_ends hrun hk hu ht ha
    obtain ⟨-, -, -, ⟨-, -, -, hcurLen, -⟩, -⟩ := hk n
    exact ⟨k, hreply, (run_line hrun hline).1, hline, hsent, hcurLen, htaken, hticks⟩
  · obtain ⟨k, hcur, harb, hidx, hcount⟩ := request_served hrun hk hu ht j he
    obtain ⟨-, -, -, ⟨hdepth, -⟩, -⟩ := hk n
    have hj : j < (s n).rq.length := (List.getElem?_eq_some_iff.1 he).1
    refine ⟨k, hcur, harb, hidx, hcount.trans ?_, by omega⟩
    split <;> omega

end Sys2Proof.Machine

/-!
PROOFS. The command map: which words decode to which command, and which are refused (R64, R65, R67, R68, R70).
-/
namespace Sys2Proof.Machine

open Sys2Proof

/-! ### Words by their fields -/

/-- The opcode and the operand bytes that a command's word shows (R65). -/
def showsCommand (w : Word) (i : Instr) : Prop :=
  match i with
  | .xchg => cmdOp w = 0x01
  | .read id => cmdOp w = 0x02 ∧ cmdA w = id
  | .writeDry id offset => cmdOp w = 0x03 ∧ cmdA w = id ∧ cmdB w = offset
  | .writeCommit id offset => cmdOp w = 0x04 ∧ cmdA w = id ∧ cmdB w = offset
  | .encode op id => cmdOp w = 0x05 ∧ cmdA w = op ∧ cmdB w = id
  | .validate => cmdOp w = 0x06
  | .classify id => cmdOp w = 0x07 ∧ cmdA w = id
  | .decode code => cmdOp w = 0x08 ∧ cmdA w = code
  | .rawbyte offset => cmdOp w = 0x09 ∧ cmdB w = offset

/-- The decoder reads a command exactly from the words that show it with `RSV` 0 (R64, R65). -/
theorem decode_eq_ok_iff {w : Word} {i : Instr} : decode w = .ok i ↔ cmdRsv w = 0 ∧ showsCommand w i := by
  constructor
  · intro h
    unfold decode at h
    split at h
    · cases h
    · next hrsv =>
      refine ⟨not_not.1 hrsv, ?_⟩
      split at h <;> cases h
      case h_1 hop => exact BitVec.eq_of_toNat_eq hop
      case h_6 hop => exact BitVec.eq_of_toNat_eq hop
      case h_3 hop => exact ⟨BitVec.eq_of_toNat_eq hop, rfl, rfl⟩
      case h_4 hop => exact ⟨BitVec.eq_of_toNat_eq hop, rfl, rfl⟩
      case h_5 hop => exact ⟨BitVec.eq_of_toNat_eq hop, rfl, rfl⟩
      all_goals next hop => exact ⟨BitVec.eq_of_toNat_eq hop, rfl⟩
  · rintro ⟨hrsv, hshows⟩
    unfold decode
    rw [if_neg (not_not.2 hrsv)]
    cases i with
    | xchg | validate => rw [show cmdOp w = _ from hshows]; rfl
    | read | classify | decode | rawbyte =>
      obtain ⟨hop, rfl⟩ := hshows
      rw [hop]
      rfl
    | writeDry | writeCommit | encode =>
      obtain ⟨hop, rfl, rfl⟩ := hshows
      rw [hop]
      rfl

/-- The decoder reads a command exactly from the words with `RSV` 0 and `OP` from 1 to 9 (R67). -/
theorem exists_decode_ok_iff {w : Word} :
    (∃ i, decode w = .ok i) ↔ cmdRsv w = 0 ∧ 1 ≤ (cmdOp w).toNat ∧ (cmdOp w).toNat ≤ 9 := by
  constructor
  · rintro ⟨i, hi⟩
    obtain ⟨hrsv, hshows⟩ := decode_eq_ok_iff.1 hi
    refine ⟨hrsv, ?_⟩
    cases i with
    | xchg | validate => rw [show cmdOp w = _ from hshows]; decide
    | read | classify | decode | rawbyte | writeDry | writeCommit | encode => rw [hshows.1]; decide
  · rintro ⟨hrsv, hlo, hhi⟩
    have op : ∀ n : Nat, (cmdOp w).toNat = n → cmdOp w = BitVec.ofNat 8 n := fun n hn => by
      rw [← hn, BitVec.ofNat_toNat, BitVec.setWidth_eq]
    obtain h | h | h | h | h | h | h | h | h : (cmdOp w).toNat = 1 ∨ (cmdOp w).toNat = 2 ∨ (cmdOp w).toNat = 3 ∨
      (cmdOp w).toNat = 4 ∨ (cmdOp w).toNat = 5 ∨ (cmdOp w).toNat = 6 ∨ (cmdOp w).toNat = 7 ∨ (cmdOp w).toNat = 8 ∨
      (cmdOp w).toNat = 9 := by omega
    · exact ⟨.xchg, decode_eq_ok_iff.2 ⟨hrsv, op 1 h⟩⟩
    · exact ⟨.read _, decode_eq_ok_iff.2 ⟨hrsv, op 2 h, rfl⟩⟩
    · exact ⟨.writeDry _ _, decode_eq_ok_iff.2 ⟨hrsv, op 3 h, rfl, rfl⟩⟩
    · exact ⟨.writeCommit _ _, decode_eq_ok_iff.2 ⟨hrsv, op 4 h, rfl, rfl⟩⟩
    · exact ⟨.encode _ _, decode_eq_ok_iff.2 ⟨hrsv, op 5 h, rfl, rfl⟩⟩
    · exact ⟨.validate, decode_eq_ok_iff.2 ⟨hrsv, op 6 h⟩⟩
    · exact ⟨.classify _, decode_eq_ok_iff.2 ⟨hrsv, op 7 h, rfl⟩⟩
    · exact ⟨.decode _, decode_eq_ok_iff.2 ⟨hrsv, op 8 h, rfl⟩⟩
    · exact ⟨.rawbyte _, decode_eq_ok_iff.2 ⟨hrsv, op 9 h, rfl⟩⟩

/-! ### Words by their bits -/

/-- Words are equal if their four fields are. -/
theorem word_eq_iff {v w : Word} :
    v = w ↔ cmdRsv v = cmdRsv w ∧ cmdOp v = cmdOp w ∧ cmdA v = cmdA w ∧ cmdB v = cmdB w := by
  refine ⟨fun h => by rw [h]; exact ⟨rfl, rfl, rfl, rfl⟩, fun ⟨hrsv, hop, ha, hb⟩ => ?_⟩
  rw [← word_fields v, ← word_fields w, hrsv, hop, ha, hb]

/-- A word agrees with a packed command on a mask exactly if each field agrees on its part of the mask. -/
theorem and_eq_packCommand_iff {w mask : Word} {op a b : Byte} :
    w &&& mask = packCommand op a b ↔
      cmdRsv w &&& cmdRsv mask = 0 ∧ cmdOp w &&& cmdOp mask = op ∧ cmdA w &&& cmdA mask = a ∧
        cmdB w &&& cmdB mask = b := by
  rw [word_eq_iff, cmdRsv_packCommand, cmdOp_packCommand, cmdA_packCommand, cmdB_packCommand]
  simp only [cmdRsv, cmdOp, cmdA, cmdB, BitVec.extractLsb'_and]

/-- A mask of a whole byte keeps it. -/
theorem byte_and_full (b : Byte) : b &&& 0xFF#8 = b := BitVec.and_allOnes

/-- Whether a command has the operand `A` (R65). -/
def Instr.readsA : Instr → Bool
  | .read _ | .writeDry _ _ | .writeCommit _ _ | .encode _ _ | .classify _ | .decode _ => true
  | .xchg | .validate | .rawbyte _ => false

/-- Whether a command has the operand `B` (R65). -/
def Instr.readsB : Instr → Bool
  | .writeDry _ _ | .writeCommit _ _ | .encode _ _ | .rawbyte _ => true
  | .xchg | .read _ | .validate | .classify _ | .decode _ => false

/-- A command's mask covers `OP`, `RSV` and the operands the command has. -/
theorem encodingMask_fields (i : Instr) :
    cmdRsv (encodingMask i) = 0xFF#8 ∧ cmdOp (encodingMask i) = 0xFF#8 ∧
      cmdA (encodingMask i) = (if Instr.readsA i then 0xFF#8 else 0#8) ∧
      cmdB (encodingMask i) = if Instr.readsB i then 0xFF#8 else 0#8 := by
  have none : cmdRsv 0xFF0000FF = 0xFF#8 ∧ cmdOp 0xFF0000FF = 0xFF#8 ∧ cmdA 0xFF0000FF = 0#8 ∧
      cmdB 0xFF0000FF = 0#8 := by decide
  have onlyA : cmdRsv 0xFFFF00FF = 0xFF#8 ∧ cmdOp 0xFFFF00FF = 0xFF#8 ∧ cmdA 0xFFFF00FF = 0xFF#8 ∧
      cmdB 0xFFFF00FF = 0#8 := by decide
  have onlyB : cmdRsv 0xFF00FFFF = 0xFF#8 ∧ cmdOp 0xFF00FFFF = 0xFF#8 ∧ cmdA 0xFF00FFFF = 0#8 ∧
      cmdB 0xFF00FFFF = 0xFF#8 := by decide
  have both : cmdRsv 0xFFFFFFFF = 0xFF#8 ∧ cmdOp 0xFFFFFFFF = 0xFF#8 ∧ cmdA 0xFFFFFFFF = 0xFF#8 ∧
      cmdB 0xFFFFFFFF = 0xFF#8 := by decide
  cases i with
  | xchg | validate => exact none
  | read | classify | decode => exact onlyA
  | rawbyte => exact onlyB
  | writeDry | writeCommit | encode => exact both

/-- The bits that a command's row fixes or reads are those that show the command (R65). -/
theorem and_encodingMask_iff {w : Word} {i : Instr} : w &&& encodingMask i = encode i ↔ cmdRsv w = 0 ∧ showsCommand w i := by
  obtain ⟨hrsv, hop, ha, hb⟩ := encodingMask_fields i
  cases i <;> rw [encode, and_eq_packCommand_iff, hrsv, hop, ha, hb, byte_and_full, byte_and_full] <;>
    simp [Instr.readsA, Instr.readsB, byte_and_full, showsCommand]

/-- Settles O1: `decode_eq_ok_iff` and `and_encodingMask_iff` both come to the fields of the word. -/
theorem decodeAndEncodeAgree : Obligations.DecodeAndEncodeAgree := by
  refine ⟨fun i => ?_, fun w i => decode_eq_ok_iff.trans and_encodingMask_iff.symm, fun w => ?_⟩
  · rw [decode_eq_ok_iff]
    cases i <;> simp [encode, showsCommand]
  · have hok : (∃ e, decode w = .error e) ↔ ¬∃ i, decode w = .ok i := by
      cases decode w <;> simp
    rw [hok, exists_decode_ok_iff]
    show ¬_ ↔ cmdRsv w ≠ 0 ∨ cmdOp w = 0 ∨ 9 < (cmdOp w).toNat
    have hzero : cmdOp w = 0 ↔ (cmdOp w).toNat = 0 := BitVec.toNat_inj.symm
    rw [hzero, not_and_or, ← ne_eq]
    refine or_congr_right ?_
    omega

/-- Settles O2: each of the words shows its command. -/
theorem decodesTheSpecsWords : Obligations.DecodesTheSpecsWords := by
  simp only [Obligations.DecodesTheSpecsWords, decode_eq_ok_iff, showsCommand]
  decide

/-! ### Data-type codes -/

/-- The codes are 0 to 6 (R68). -/
theorem typeCode_le (t : DataType) : typeCode t ≤ 6 := by cases t <;> decide

/-- A code names the type whose code it is, and no other (R68). -/
theorem typeOfCode_eq_some_iff {c : Byte} {t : DataType} : typeOfCode c = some t ↔ c.toNat = typeCode t := by
  unfold typeOfCode
  constructor
  · intro h
    split at h <;> cases h <;> assumption
  · intro h
    rw [h]
    cases t <;> rfl

theorem typeOfCode_eq_none {c : Byte} (h : 6 < c.toNat) : typeOfCode c = none := by
  cases hc : typeOfCode c with
  | none => rfl
  | some t =>
    have hle := typeCode_le t
    rw [typeOfCode_eq_some_iff.1 hc] at h
    omega

/-- Settles O3: `typeOfCode_eq_some_iff`, and the codes of the table. -/
theorem typeCodesNameTheTypes : Obligations.TypeCodesNameTheTypes :=
  ⟨rfl, rfl, rfl, rfl, rfl, rfl, rfl, fun _ => typeOfCode_eq_none, fun _ _ => typeOfCode_eq_some_iff⟩

end Sys2Proof.Machine

/-!
PROOFS. The commands that complete at once (R88, R90, R95, R98, R108, R109), what breaks their limits (R66, R67), and the
submissions of the exchange commands with room in the queue and without (R114, R126).
-/
namespace Sys2Proof.Machine

open Sys2Proof

/-! ### Codec -/

/-- The bytes of `ENCODE`'s frame and its trailing byte as a sum (R88). -/
theorem requestFrame_eq (op id : Byte) (data : List Byte) :
    requestFrame op id data = [0x02, op, 0x02, 0x00, id] ++ data ++ [op + 0x02 + 0x00 + id + csum data] := by
  have hsum : csum ([op, 0x02, 0x00, id] ++ data) = op + 0x02 + 0x00 + id + csum data := by
    rw [csum_append]
    simp [csum]
  rw [← hsum]
  rfl

/-- Settles O9: `exec_encode`, and what a completion with a frame leaves. -/
theorem encodeBuildsTheRequestFrame : Obligations.EncodeBuildsTheRequestFrame := by
  intro op id s hv hlen
  have hexec := exec_encode hlen op id
  obtain ⟨hcrcv, hresLen, hframe⟩ := encode_results hv hlen hexec
  refine ⟨_, hexec, sameButPort_modPort .., ?_⟩
  have hsame := sameButFrame_completeFrame s.cfg.frameMax .none
    (trailer (requestFrame op id ((s.port s.active).dinBytes s.cfg.frameMax)))
    (requestFrame op id ((s.port s.active).dinBytes s.cfg.frameMax)) .rawOnly Fields.zero (s.port s.active)
  have htrailer : trailer (requestFrame op id ((s.port s.active).dinBytes s.cfg.frameMax)) =
      op + 0x02 + 0x00 + id + csum ((s.port s.active).dinBytes s.cfg.frameMax) := by
    rw [requestFrame_eq, trailer_append]
  rw [length_requestFrame, length_dinBytes] at hsame hresLen
  rw [port_modPort_self] at hcrcv hresLen hframe ⊢
  refine ⟨hsame, completed_finish _, rfl, hcrcv.trans htrailer, hresLen, hframe.trans ?_, rfl, rfl⟩
  rw [hcrcv, htrailer, requestFrame_eq]
  rfl

/-- A completion that writes the tag and the checksum only (R39). -/
theorem putStatus_finish_spec (e : ErrTag) (c : Byte) (q : Port) :
    sameButStatus q (q.putStatus e c).finish ∧ (q.putStatus e c).finish.Completed ∧ (q.putStatus e c).finish.crcv = c ∧
      (q.putStatus e c).finish.err = e :=
  ⟨rfl, completed_finish _, rfl, rfl⟩

/-- Settles O10: `exec_validate`, with the operand's checksum and last byte read off `DATA_IN`. -/
theorem validateComparesTheChecksum : Obligations.ValidateComparesTheChecksum := by
  intro s h2 hF
  have hbody : csumBody ((s.port s.active).dinBytes s.cfg.frameMax) =
      (((s.port s.active).dinBytes s.cfg.frameMax).drop 1).take ((s.port s.active).dinLen.toNat - 2) := by
    rw [csumBody, length_dinBytes]
  have hlast : trailer ((s.port s.active).dinBytes s.cfg.frameMax) =
      bufGet s.cfg.frameMax (s.port s.active).din ((s.port s.active).dinLen.toNat - 1) :=
    trailer_bufTake (show 0 < (s.port s.active).dinLen.toNat by omega)
  have hexec := exec_validate h2 hF
  simp only [crcPasses, decide_eq_true_eq, hbody, hlast] at hexec
  refine ⟨_, hexec, sameButPort_modPort _ _ _, ?_⟩
  rw [port_modPort_self]
  exact putStatus_finish_spec _ _ _

/-! ### Register dispatch -/

/-- Settles O14: `CLASSIFY` writes the type with `NONE` and 0. -/
theorem classifyWritesTheType : Obligations.ClassifyWritesTheType := by
  intro id s
  refine ⟨_, rfl, sameButPort_modPort .., ?_⟩
  rw [port_modPort_self]
  exact ⟨rfl, completed_finish _, rfl, rfl, rfl⟩

/-- A payload too short for its type has no fields (R98, R107). -/
theorem extract_of_short {t : DataType} {pl : List Byte} (h : pl.length < requiredLength t) :
    extract t pl = (.protocol, Fields.zero) := if_pos h

theorem extract_of_long {t : DataType} {pl : List Byte} (h : ¬pl.length < requiredLength t) :
    extract t pl = (.none, fieldsOf t pl) := if_neg h

/-- `DECODE` of a type's code within its limit completes with what `extract` says of the payload (R108). -/
theorem exec_decode {s : State} {code : Byte} {ty : DataType} (hcode : code.toNat = typeCode ty)
    (hlen : (s.port s.active).dinLen.toNat ≤ s.cfg.frameMax) :
    exec (.decode code) s =
      let x := extract ty ((s.port s.active).dinBytes s.cfg.frameMax)
      .next (s.modPort s.active fun q => (((q.putType ty).putFields x.2).putStatus x.1 0).finish) := by
  have hty : typeOfCode code = some ty := typeOfCode_eq_some_iff.2 hcode
  have hargs : argsOk s.cfg (.decode code) (s.port s.active).dinCount = true :=
    argsOk_decode.2 ⟨hcode ▸ typeCode_le ty, hlen⟩
  simp only [exec, execDecode, hty, hargs, if_true]

/-- A completion that writes the type, the fields, the tag and the checksum only (R39). -/
theorem putFields_finish_spec (ty : DataType) (fl : Fields) (e : ErrTag) (c : Byte) (q : Port) :
    let q' := (((q.putType ty).putFields fl).putStatus e c).finish
    sameButFields q q' ∧ q'.Completed ∧ q'.dataType = ty ∧ q'.crcv = c ∧ q'.err = e ∧ q'.fields = fl :=
  ⟨rfl, completed_finish _, rfl, rfl, rfl, rfl⟩

/-- Settles O16: `exec_decode`, with the two outcomes of `extract` by the payload's length. -/
theorem decodeExtractsTheFields : Obligations.DecodeExtractsTheFields := by
  intro code ty s hcode hlen
  have hexec := exec_decode hcode hlen
  dsimp only at hexec
  generalize hx : extract ty ((s.port s.active).dinBytes s.cfg.frameMax) = r at hexec
  refine ⟨_, hexec, sameButPort_modPort _ _ _, ?_⟩
  rw [port_modPort_self]
  obtain ⟨hsame, hdone, hty, hcrcv, herr, hfields⟩ := putFields_finish_spec ty r.2 r.1 0 (s.port s.active)
  refine ⟨hsame, hdone, hty, hcrcv, ?_⟩
  rw [herr, hfields]
  have hlen' := length_dinBytes s.cfg.frameMax (s.port s.active)
  split
  · next hshort =>
    rw [extract_of_short (hlen'.symm ▸ hshort)] at hx
    exact ⟨congrArg Prod.fst hx.symm, congrArg Prod.snd hx.symm⟩
  · next hlong =>
    rw [extract_of_long (hlen'.symm ▸ hlong)] at hx
    exact ⟨congrArg Prod.fst hx.symm, congrArg Prod.snd hx.symm⟩

/-- Settles O17: `RAWBYTE` by whether the frame in `RESULT` has the byte. -/
theorem rawbyteReadsTheFrameByte : Obligations.RawbyteReadsTheFrameByte := by
  intro offset s
  refine ⟨_, rfl, ?_⟩
  dsimp only
  by_cases hin : 5 + offset.toNat < (s.port s.active).resLen.toNat
  · rw [if_pos hin, if_pos hin]
    refine ⟨sameButPort_modPort .., ?_⟩
    rw [port_modPort_self]
    exact ⟨rfl, completed_finish _, rfl, rfl⟩
  · rw [if_neg hin, if_neg hin]
    refine ⟨sameButPort_modPort .., ?_⟩
    rw [port_modPort_self]
    exact ⟨rfl, completed_finish _, rfl, rfl⟩

/-! ### Field layouts as numbers -/

/-- `zext_32` of a byte is its value (R16). -/
theorem toNat_zext32 (b : Byte) : (zext32 b).toNat = b.toNat := by
  have hb := b.isLt
  simp only [zext32, BitVec.toNat_setWidth]
  omega

/-- A 32-bit little-endian word as a number (R16). -/
theorem toNat_le32 (a b c d : Byte) :
    (le32 a b c d).toNat = a.toNat + 256 * b.toNat + 65536 * c.toNat + 16777216 * d.toNat := by
  simp only [le32, toNat_append_eq]
  omega

/-- A 16-bit big-endian value as a number (R16). -/
theorem toNat_be16 (a b : Byte) : (be16 a b).toNat = 256 * a.toNat + b.toNat := by
  simp only [be16, toNat_append_eq]
  omega

/-- The year of `datetime` as a number (R101). -/
theorem toNat_zext32of16_be16 (a b : Byte) : (zext32of16 (be16 a b)).toNat = 256 * a.toNat + b.toNat := by
  have ha := a.isLt
  have hb := b.isLt
  simp only [zext32of16, BitVec.toNat_setWidth, toNat_be16]
  omega

/-- The value of `temp_100`: negative exactly if the high byte's top bit is set (R99). -/
theorem toInt_sext32_be16 (a b : Byte) :
    (sext32 (be16 a b)).toInt =
      if a.toNat < 128 then (256 * a.toNat + b.toNat : Int) else (256 * a.toNat + b.toNat : Int) - 65536 := by
  have ha := a.isLt
  have hb := b.isLt
  have hext : (sext32 (be16 a b)).toInt = (be16 a b).toInt := BitVec.toInt_signExtend_of_le (by decide)
  rw [hext, BitVec.toInt_eq_toNat_cond, toNat_be16]
  split <;> split <;> omega

/-- Settles O15: each field is one of the four shapes of the lemmas above, on the bytes of the layout. -/
theorem fieldsHoldTheLayoutsBytes : Obligations.FieldsHoldTheLayoutsBytes := by
  refine ⟨⟨rfl, rfl, rfl, rfl, rfl, rfl, rfl⟩, fun pl => ⟨rfl, ⟨toInt_sext32_be16 _ _, rfl⟩, ?_, ?_, ?_, ?_, ?_⟩⟩
  · exact ⟨toNat_le32 _ _ _ _, toNat_le32 _ _ _ _, toNat_zext32 _, toNat_le32 _ _ _ _, toNat_le32 _ _ _ _, toNat_zext32 _⟩
  · exact ⟨toNat_zext32of16_be16 _ _, toNat_zext32 _, toNat_zext32 _, toNat_zext32 _, toNat_zext32 _, toNat_zext32 _⟩
  · exact ⟨toNat_zext32 _, toNat_zext32 _, toNat_zext32 _, toNat_zext32 _, toNat_zext32 _, toNat_zext32 _⟩
  · exact ⟨toNat_zext32 _, rfl⟩
  · exact ⟨toNat_zext32 _, toNat_zext32 _, rfl⟩

/-! ### Broken limits -/

/-- A command that answers the state of `failArg` raises `ARG` (R67). -/
theorem raisesArg_of_exec {i : Instr} {s : State} (h : exec i s = .next (s.failArg s.active)) : raisesArg i s := by
  obtain ⟨hport, hstatus, hdone, herr, hcrcv⟩ := failArg_spec s.active s
  exact ⟨_, h, hport, hstatus, hdone, herr, hcrcv⟩

/-- The commands whose limits are broken answer the state of `failArg` (R66, R67). -/
theorem exec_of_not_argsOk {i : Instr} {s : State} (h : argsOk s.cfg i (s.port s.active).dinCount = false) :
    exec i s = .next (s.failArg s.active) := by
  cases i with
  | xchg => simp only [exec, execXchg, h, Bool.false_eq_true, if_false]
  | writeDry => simp only [exec, execWriteDry, h, Bool.false_eq_true, if_false]
  | writeCommit => simp only [exec, execWriteCommit, h, Bool.false_eq_true, if_false]
  | encode => simp only [exec, execEncode, h, Bool.false_eq_true, if_false]
  | validate => simp only [exec, execValidate, h, Bool.false_eq_true, if_false]
  | decode =>
    simp only [exec, execDecode, h, Bool.false_eq_true, if_false]
    split <;> rfl
  | read | classify | rawbyte => cases h

/-- Settles O19: each broken limit makes `argsOk` false. -/
theorem brokenLimitsRaiseArg : Obligations.BrokenLimitsRaiseArg := by
  intro s
  have raise : ∀ i, ¬argsOk s.cfg i (s.port s.active).dinCount = true → raisesArg i s := fun i h =>
    raisesArg_of_exec (exec_of_not_argsOk (by simpa using h))
  unfold Port.dinCount at raise
  refine ⟨fun h => raise _ ?_, fun id offset h => ⟨raise _ ?_, raise _ ?_⟩, fun op id h => raise _ ?_, fun h => raise _ ?_,
    fun code h => raise _ ?_⟩
  · rw [argsOk_xchg]
    omega
  · rw [argsOk_writeDry]
    omega
  · rw [argsOk_writeCommit]
    omega
  · rw [argsOk_encode]
    omega
  · rw [argsOk_validate]
    omega
  · rw [argsOk_decode]
    omega

/-! ### Submissions -/

/-- `XCHG` within its limit answers the state of its submission (R126). -/
theorem exec_xchg_of_submit {s t : State} (hn : (s.port s.active).dinLen.toNat ≤ s.cfg.frameMax)
    (h : s.submit s.active .xchgWait ((s.port s.active).dinBytes s.cfg.frameMax) = some t) : exec .xchg s = .next t := by
  have hargs : argsOk s.cfg .xchg (s.port s.active).dinCount = true := argsOk_xchg.2 hn
  simp only [exec, execXchg, hargs, h, if_true]

/-- Settles O20: the state of the submission. -/
theorem xchgSubmitsTheBytes : Obligations.XchgSubmitsTheBytes := by
  intro s hn hq
  obtain ⟨t, hsubmit, heffect⟩ := exists_submit hq s.active .xchgWait ((s.port s.active).dinBytes s.cfg.frameMax)
  exact ⟨t, exec_xchg_of_submit hn hsubmit, heffect⟩

/-- What `SOCKET` with no frame makes of a port (R114, R121). -/
theorem endsInSocket_completeFrame (s : State) (p : PortId) :
    endsInSocket p s (s.modPort p (Port.completeFrame s.cfg.frameMax .socket 0 [] .rawOnly Fields.zero)) := by
  refine ⟨sameButPort_modPort .., ?_⟩
  rw [port_modPort_self]
  exact ⟨sameButFrame_completeFrame .., completed_finish _, rfl, rfl, rfl, rfl, rfl⟩

/-- On a full queue the exchange commands within their limits complete with `SOCKET` (R114). -/
theorem exec_full_queue {s : State} {i : Instr} {id offset : Byte} (hq : s.rq.length = s.cfg.qDepth)
    (hi : i = .read id ∨ i = .xchg ∨ i = .writeDry id offset ∨ i = .writeCommit id offset)
    (hargs : argsOk s.cfg i (s.port s.active).dinCount = true) :
    exec i s = .next (s.modPort s.active (Port.completeFrame s.cfg.frameMax .socket 0 [] .rawOnly Fields.zero)) := by
  rcases hi with rfl | rfl | rfl | rfl
  · simp only [exec, execRead, submit_none hq]
    rfl
  · simp only [exec, execXchg, submit_none hq, hargs, if_true]
    rfl
  · simp only [exec, execWriteDry, submit_none hq, hargs, if_true, finishWriteDry, writeStep_socket]
    rfl
  · simp only [exec, execWriteCommit, submit_none hq, hargs, if_true, commitWrite, writeStep_socket]
    rfl

/-- Settles O23: `exec_full_queue`, whose completion ends in `SOCKET`. -/
theorem fullQueueAnswersSocket : Obligations.FullQueueAnswersSocket := by
  intro s id offset i hi hq
  have hcmd : i = .read id ∨ i = .xchg ∨ i = .writeDry id offset ∨ i = .writeCommit id offset := hi.imp_right And.left
  have hargs : argsOk s.cfg i (s.port s.active).dinCount = true := by
    rcases hi with rfl | ⟨rfl | rfl | rfl, hn⟩
    · rfl
    · exact argsOk_xchg.2 hn
    · exact argsOk_writeDry.2 hn
    · exact argsOk_writeCommit.2 hn
  exact ⟨_, exec_full_queue hq hcmd hargs, endsInSocket_completeFrame s s.active⟩

end Sys2Proof.Machine

/-!
PROOFS. The hex dump of the logging path (R110).
-/
namespace Sys2Proof.Machine

open Sys2Proof

/-! ### Digits -/

/-- Every hex digit is read as its value. -/
theorem digitValue_hexDigit (n : Nat) : digitValue 16 (hexDigit n) = some (n % 16) := by
  have small : ∀ d < 16, digitValue 16 (hexDigit d) = some d := by decide
  have hmod : hexDigit n = hexDigit (n % 16) := by simp only [hexDigit, Nat.mod_mod]
  rw [hmod]
  exact small _ (Nat.mod_lt _ (by decide))

/-- Two hex digits are read as a number, the high one first. -/
theorem digitsValue_hexDigits (h l : Nat) : digitsValue 16 0 [hexDigit h, hexDigit l] = some (16 * (h % 16) + l % 16) := by
  simp only [digitsValue, digitValue_hexDigit]
  congr 1
  omega

/-- The two digits of a byte are read as its value. -/
theorem digitsValue_hexByte (b : Byte) : digitsValue 16 0 (hexByte b) = some b.toNat := by
  have hb := b.isLt
  rw [hexByte, digitsValue_hexDigits]
  congr 1
  omega

/-! ### The dump -/

/-- Each byte but the last takes three characters of a dump, so byte `k` stands at `3 * k` (R110). -/
theorem hexDump_chars (f : List Byte) {k : Nat} (hk : k < f.length) :
    ((hexDump f).drop (k * 3)).take 2 = hexByte (f.getD k 0) := by
  induction f generalizing k with
  | nil => cases hk
  | cons b f ih =>
    cases f with
    | nil =>
      obtain rfl : k = 0 := by simpa using hk
      rfl
    | cons c f =>
      cases k with
      | zero => rfl
      | succ k =>
        have hnext := ih (k := k) (by simpa using hk)
        have hdrop : (hexDump (b :: c :: f)).drop ((k + 1) * 3) = (hexDump (c :: f)).drop (k * 3) := by
          rw [show (k + 1) * 3 = k * 3 + 3 by omega]
          rfl
        rw [hdrop, hnext]
        rfl

/-- Settles O18: `hexDump_chars` finds the characters, `digitsValue_hexByte` reads them. -/
theorem dumpCharactersSpellTheRawByte : Obligations.DumpCharactersSpellTheRawByte := by
  refine ⟨fun h hh l hl => ?_, fun f offset hk => ?_⟩
  · have digit : ∀ d < 16,
        ['0', '1', '2', '3', '4', '5', '6', '7', '8', '9', 'a', 'b', 'c', 'd', 'e', 'f'].getD d ' ' = hexDigit d := by decide
    have hvalue := digitsValue_hexDigits h l
    rw [Nat.mod_eq_of_lt hh, Nat.mod_eq_of_lt hl, ← digit h hh, ← digit l hl] at hvalue
    exact hvalue
  · have hchars : dumpChars (hexDump f) offset = hexByte (f.getD (5 + offset) 0) := hexDump_chars f hk
    dsimp only
    rw [hchars]
    exact ⟨rfl, rfl, digitsValue_hexByte _⟩

end Sys2Proof.Machine

/-!
PROOFS. The second half of the exchange commands: what a port does with the transport result it is handed (R124 to R126, R132 to
R142).
-/
namespace Sys2Proof.Machine

open Sys2Proof

/-! ### Completing after a wait -/

/-- What a hand-over that completes with the frame `raw` leaves: the port completed and everything else as it was. -/
theorem stopWait_completeFrame_spec (s : State) (p : PortId) (e : ErrTag) (c : Byte) {raw : List Byte} (t : DataType)
    (fl : Fields) (hv : s.cfg.Valid) (hraw : raw.length ≤ s.cfg.frameMax) :
    let u := s.modPort p fun q => q.stopWait.completeFrame s.cfg.frameMax e c raw t fl
    sameButPort p s u ∧ sameButFrame raw.length { s.port p with waiting := false } (u.port p) ∧ (u.port p).Completed ∧
      (u.port p).err = e ∧ (u.port p).crcv = c ∧ (u.port p).resLen.toNat = raw.length ∧
      (u.port p).resultFrame s.cfg.frameMax = raw ∧ (u.port p).dataType = t ∧ (u.port p).fields = fl := by
  have hF := (frameMax_of_valid hv).2
  refine ⟨sameButPort_modPort _ _ _, ?_⟩
  rw [port_modPort_self]
  exact ⟨sameButFrame_completeFrame .., completed_finish _, rfl, rfl, toNat_resLen_completeFrame (by omega),
    resultFrame_completeFrame hraw (by omega), rfl, rfl⟩

/-- The results of raw exchanges are written as they are (R126, R139). -/
theorem handOver_raw {s : State} {p : PortId} (hseq : (s.port p).seq = .xchgWait ∨ (s.port p).seq = .wrCommitWait)
    (r : TransportResult) :
    handOver p r s =
      s.modPort p fun q => q.stopWait.completeFrame s.cfg.frameMax r.err r.crcv r.raw .rawOnly Fields.zero := by
  unfold handOver
  rcases hseq with hseq | hseq
  · rw [deliver_xchgWait (by rw [port_modPort_self, stopWait_seq, hseq]), finishXchg, modPort_modPort, modPort_cfg]
  · rw [deliver_wrCommitWait (by rw [port_modPort_self, stopWait_seq, hseq]), finishCommit, modPort_modPort, modPort_cfg]

/-- Settles O24: the completion of `handOver_raw`. -/
theorem rawExchangesReportTheTransportResult : Obligations.RawExchangesReportTheTransportResult := by
  intro s p r hv hseq hraw
  dsimp only
  rw [handOver_raw hseq]
  exact stopWait_completeFrame_spec s p r.err r.crcv .rawOnly Fields.zero hv hraw

/-! ### The end of a read -/

/-- The end of a read after its wait (R132, R133). -/
theorem finishRead_stopWait (s : State) (p : PortId) (id : Byte) (r : TransportResult) :
    finishRead p id r (s.modPort p Port.stopWait) =
      let x := readCompose s.cfg id r
      s.modPort p fun q => q.stopWait.completeFrame s.cfg.frameMax x.err r.crcv r.raw x.dataType x.fields := by
  rw [finishRead, modPort_modPort, modPort_cfg]

theorem handOver_rdWait {s : State} {p : PortId} (hseq : (s.port p).seq = .rdWait) (r : TransportResult) :
    handOver p r s = finishRead p (cmdA (s.port p).cmdLatch) r (s.modPort p Port.stopWait) := by
  rw [handOver, deliver_rdWait (by rw [port_modPort_self, stopWait_seq, hseq]), port_modPort_self, stopWait_cmdLatch]

theorem noFrame_iff {e : ErrTag} : noFrame e = true ↔ e = .timeout ∨ e = .protocol ∨ e = .socket := by
  simp only [noFrame, Bool.or_eq_true, decide_eq_true_eq, or_assoc]

/-- A result without a frame is reported as it is (R133). -/
theorem readCompose_of_noFrame {r : TransportResult} (h : r.err = .timeout ∨ r.err = .protocol ∨ r.err = .socket)
    (c : Params) (id : Byte) :
    readCompose c id r = { err := r.err, dataType := .rawOnly, fields := Fields.zero } := by
  rw [readCompose, if_pos (noFrame_iff.2 h)]

/-- A frame is decoded under the requested id's type; a short payload has no fields, and `CRC` wins over the decoder's tag
(R133, R134). -/
theorem readCompose_of_frame {r : TransportResult} (h : ¬(r.err = .timeout ∨ r.err = .protocol ∨ r.err = .socket))
    (c : Params) (id : Byte) :
    let x := readCompose c id r
    let ty := classify c.idTable id
    x.dataType = ty ∧
      if (payload r.raw).length < requiredLength ty then
        x.fields = Fields.zero ∧ x.err = if r.err = .crc then .crc else .protocol
      else x.fields = fieldsOf ty (payload r.raw) ∧ x.err = if r.err = .crc then .crc else .none := by
  rw [← noFrame_iff] at h
  rw [readCompose, if_neg h]
  refine ⟨rfl, ?_⟩
  split
  · next hshort =>
    simp only [extract_of_short hshort]
    exact ⟨trivial, trivial⟩
  · next hlong =>
    simp only [extract_of_long hlong]
    exact ⟨trivial, trivial⟩

/-- Settles O25: the completion of a read, with `readCompose` by whether there is a frame. -/
theorem readReportsTheDecodedFrame : Obligations.ReadReportsTheDecodedFrame := by
  intro s p r hv hseq hraw
  dsimp only
  rw [handOver_rdWait hseq, finishRead_stopWait]
  have hspec := stopWait_completeFrame_spec s p (readCompose s.cfg (cmdA (s.port p).cmdLatch) r).err r.crcv
    (readCompose s.cfg (cmdA (s.port p).cmdLatch) r).dataType (readCompose s.cfg (cmdA (s.port p).cmdLatch) r).fields hv hraw
  dsimp only at hspec ⊢
  obtain ⟨hport, hframe, hdone, herr, hcrcv, hlen, hres, hty, hfl⟩ := hspec
  refine ⟨hport, hframe, hdone, hcrcv, hlen, hres, ?_⟩
  rw [herr, hty, hfl]
  by_cases hno : r.err = .timeout ∨ r.err = .protocol ∨ r.err = .socket
  · rw [if_pos hno, readCompose_of_noFrame hno]
    exact ⟨rfl, rfl, rfl⟩
  · rw [if_neg hno]
    exact readCompose_of_frame hno s.cfg (cmdA (s.port p).cmdLatch)

/-! ### The read step of a write -/

theorem handOver_wrReadWait {s : State} {p : PortId} (hseq : (s.port p).seq = .wrReadWait) (r : TransportResult) :
    handOver p r s =
      if cmdOp (s.port p).cmdLatch = 0x04 then
        commitWrite p (cmdA (s.port p).cmdLatch) (cmdB (s.port p).cmdLatch) r (s.modPort p Port.stopWait)
      else finishWriteDry p (cmdA (s.port p).cmdLatch) (cmdB (s.port p).cmdLatch) r (s.modPort p Port.stopWait) := by
  rw [handOver, deliver_wrReadWait (by rw [port_modPort_self, stopWait_seq, hseq]), port_modPort_self, stopWait_cmdLatch]

/-- A write whose read step stops ends there, whichever of the two commands it is (R135, R136). -/
theorem handOver_of_stopped {s t : State} {p : PortId} {r : TransportResult} (hseq : (s.port p).seq = .wrReadWait)
    (h : writeStep p (cmdA (s.port p).cmdLatch) (cmdB (s.port p).cmdLatch) r (s.modPort p Port.stopWait) = .stopped t) :
    handOver p r s = t := by
  rw [handOver_wrReadWait hseq, commitWrite, finishWriteDry, h]
  split <;> rfl

theorem writeStep_of_err {s : State} {p : PortId} {id : Byte} {r : TransportResult} (offset : Byte)
    (h : (readCompose s.cfg id r).err ≠ .none) : writeStep p id offset r s = .stopped (finishRead p id r s) := by
  rw [writeStep, if_pos h]

theorem writeFits_iff {f : List Byte} {offset n : Nat} : writeFits f offset n = true ↔ offset + n ≤ f.length - 6 :=
  decide_eq_true_iff

theorem writeStep_of_misfit {s : State} {p : PortId} {id offset : Byte} {r : TransportResult}
    (h : (readCompose s.cfg id r).err = .none)
    (hfit : r.raw.length - 6 < offset.toNat + (s.port p).dinLen.toNat) :
    writeStep p id offset r s = .stopped (finishBounds p r.raw s) := by
  have hno : (!writeFits r.raw offset.toNat (s.port p).dinCount) = true := by
    rw [Bool.not_eq_true', ← Bool.not_eq_true, writeFits_iff]
    exact Nat.not_le.2 hfit
  rw [writeStep, if_neg (not_not.2 h), if_pos hno]

theorem writeStep_of_fit {s : State} {p : PortId} {id offset : Byte} {r : TransportResult}
    (h : (readCompose s.cfg id r).err = .none)
    (hfit : offset.toNat + (s.port p).dinLen.toNat ≤ r.raw.length - 6) :
    writeStep p id offset r s =
      let data := (s.port p).dinBytes s.cfg.frameMax
      let frame := writeFrame s.cfg r.raw offset.toNat data
      .built frame (writeChecksum s.cfg r.raw offset.toNat data) (s.modPort p (Port.putWork s.cfg.frameMax frame)) := by
  have hyes : ¬(!writeFits r.raw offset.toNat (s.port p).dinCount) = true := by
    rw [Bool.not_eq_true', Bool.not_eq_false, writeFits_iff]
    exact hfit
  rw [writeStep, if_neg (not_not.2 h), if_neg hyes]

/-- Settles O26: the failed write and the `READ` end in the same `finishRead`, which writes the engine's state. -/
theorem failedReadStepEndsTheWriteAsRead : Obligations.FailedReadStepEndsTheWriteAsRead := by
  intro s p r hseq herr
  have hwrite := handOver_of_stopped hseq (writeStep_of_err (s := s.modPort p Port.stopWait) _ herr)
  have hread := handOver_rdWait (s := s.modPort p fun q => { q with seq := .rdWait }) (p := p)
    (by rw [port_modPort_self]) r
  rw [finishRead_stopWait] at hwrite hread
  rw [hwrite, hread, port_modPort_self]
  refine ⟨?_, rfl⟩
  dsimp only
  rw [modPort_modPort]
  rfl

/-- Settles O27: a write that does not fit ends in `finishBounds`. -/
theorem writePastThePayloadIsRefused : Obligations.WritePastThePayloadIsRefused := by
  intro s p r hv hseq herr hraw hpast
  have hstep := writeStep_of_misfit (s := s.modPort p Port.stopWait) (p := p) (id := cmdA (s.port p).cmdLatch)
    (offset := cmdB (s.port p).cmdLatch) (r := r) herr (by rwa [port_modPort_self, stopWait_dinLen])
  dsimp only
  rw [handOver_of_stopped hseq hstep, finishBounds, modPort_modPort]
  exact stopWait_completeFrame_spec s p .bounds 0 .rawOnly Fields.zero hv hraw

/-! ### The write frame -/

/-- Bytes laid over a frame stand at their place, and every other byte stays. -/
theorem getElem?_overlay (f data : List Byte) (k i : Nat) (hfit : k + data.length ≤ f.length ∨ data = []) :
    (overlay f k data)[i]? = if k ≤ i ∧ i < k + data.length then data[i - k]? else f[i]? := by
  induction data generalizing f k with
  | nil =>
    rw [if_neg (by simp), overlay]
  | cons b data ih =>
    have hlen : k + (data.length + 1) ≤ f.length := by simpa using hfit
    rw [overlay, ih (f.set k b) (k + 1) (by rw [List.length_set]; omega), List.length_cons]
    by_cases hi : i = k
    · subst hi
      rw [if_neg (by omega), if_pos (by omega), Nat.sub_self, List.getElem?_set_self (by omega)]
      rfl
    · rw [List.getElem?_set_ne (Ne.symm hi)]
      by_cases hin : k + 1 ≤ i ∧ i < k + 1 + data.length
      · rw [if_pos hin, if_pos (by omega), show i - k = i - (k + 1) + 1 by omega, List.getElem?_cons_succ]
      · rw [if_neg hin, if_neg (by omega)]

theorem length_writeBody (c : Params) (f : List Byte) (offset : Nat) (data : List Byte) :
    (writeBody c f offset data).length = f.length - 1 := by
  simp [writeBody]

/-- The write frame's checksum is that of its bytes from index 1 to the one before it (R137). -/
theorem csumBody_writeFrame (c : Params) {f : List Byte} (h4 : 4 ≤ f.length) (offset : Nat) (data : List Byte) :
    csum (csumBody (writeFrame c f offset data)) = writeChecksum c f offset data := by
  have hlen := length_writeBody c f offset data
  have hbody : csumBody (writeFrame c f offset data) = (writeBody c f offset data).drop 1 := by
    rw [csumBody, writeFrame, List.drop_append_of_le_length (by omega), List.length_append, hlen]
    exact List.take_left' (by rw [List.length_drop, hlen, List.length_singleton]; omega)
  rw [hbody, writeChecksum]

/-- Settles O28: `getElem?_overlay` for the bytes, `csumBody_writeFrame` for the checksum. -/
theorem writeFrameEchoesTheReadFrame : Obligations.WriteFrameEchoesTheReadFrame := by
  intro c f data offset h4 hfit
  have hlen := length_writeBody c f offset data
  have hwlen : (writeFrame c f offset data).length = f.length := by
    rw [length_writeFrame]
    omega
  have hbyte : ∀ k, k < f.length - 1 → (writeFrame c f offset data)[k]? =
      if 5 + offset ≤ k ∧ k < 5 + offset + data.length then data[k - (5 + offset)]?
      else ((f.take (f.length - 1)).set 1 c.writeOpcode)[k]? := fun k hk => by
    rw [writeFrame, List.getElem?_append_left (by omega), writeBody, getElem?_overlay]
    rw [List.length_set, List.length_take, ← List.length_eq_zero_iff]
    omega
  have hlast : (writeFrame c f offset data)[f.length - 1]? = some (writeChecksum c f offset data) := by
    rw [writeFrame, List.getElem?_append_right (by omega), hlen, Nat.sub_self]
    rfl
  have hsum : csum (((writeFrame c f offset data).drop 1).take (f.length - 2)) = writeChecksum c f offset data := by
    rw [← csumBody_writeFrame c h4, csumBody, hwlen]
  refine ⟨hwlen, ?_, fun k hk h1 hout => ?_, fun k hk => ?_, hsum ▸ hlast, hlast, ?_⟩
  · rw [hbyte 1 (by omega), if_neg (by omega), List.getElem?_set_self (by rw [List.length_take]; omega)]
  · rw [hbyte k hk, if_neg (by omega), List.getElem?_set_ne (Ne.symm h1), List.getElem?_take_of_lt hk]
  · rw [hbyte _ (by omega), if_pos (by omega), Nat.add_sub_cancel_left]
  · rw [crcPasses, csumBody_writeFrame c h4, decide_eq_true_eq, writeFrame, trailer_append]

/-! ### The end of a write whose data fits -/

/-- The write frame in the work buffer (R137). -/
theorem putWork_spec (lim : Nat) {frame : List Byte} (q : Port) (hfit : frame.length ≤ lim) (h9 : frame.length < 512) :
    (q.putWork lim frame).wlen.toNat = frame.length ∧
      bufTake lim (q.putWork lim frame).wbuf (q.putWork lim frame).wlen.toNat = frame ∧
      ∀ k, frame.length ≤ k → (q.putWork lim frame).wbuf.read k = q.wbuf.read k := by
  have hlen : (q.putWork lim frame).wlen.toNat = frame.length := by
    rw [putWork_wlen, BitVec.toNat_ofNat]
    omega
  refine ⟨hlen, ?_, fun k hk => ?_⟩
  · rw [hlen, putWork_wbuf, bufTake_bufPutBytes _ _ hfit]
  · rw [putWork_wbuf, read_bufPutBytes, if_neg (by omega)]

/-- The write frame of a waiting write with the result `r`: what the wait's end leaves out of the account. -/
theorem writeStep_stopWait {s : State} {p : PortId} {id offset : Byte} {r : TransportResult}
    (herr : (readCompose s.cfg id r).err = .none)
    (hfit : offset.toNat + (s.port p).dinLen.toNat ≤ r.raw.length - 6) :
    writeStep p id offset r (s.modPort p Port.stopWait) =
      let data := (s.port p).dinBytes s.cfg.frameMax
      let frame := writeFrame s.cfg r.raw offset.toNat data
      .built frame (writeChecksum s.cfg r.raw offset.toNat data)
        (s.modPort p fun q => q.stopWait.putWork s.cfg.frameMax frame) := by
  rw [writeStep_of_fit (s := s.modPort p Port.stopWait) herr (by rwa [port_modPort_self, stopWait_dinLen]),
    port_modPort_self, modPort_cfg]
  dsimp only
  rw [modPort_modPort]
  rfl

/-- The dry run completes with the write frame, from the port with the frame in its work buffer (R138). -/
theorem handOver_writeDry {s : State} {p : PortId} {r : TransportResult} (hseq : (s.port p).seq = .wrReadWait)
    (hop : cmdOp (s.port p).cmdLatch = 0x03) (herr : (readCompose s.cfg (cmdA (s.port p).cmdLatch) r).err = .none)
    (hfit : (cmdB (s.port p).cmdLatch).toNat + (s.port p).dinLen.toNat ≤ r.raw.length - 6) :
    handOver p r s =
      let data := (s.port p).dinBytes s.cfg.frameMax
      let offset := (cmdB (s.port p).cmdLatch).toNat
      let frame := writeFrame s.cfg r.raw offset data
      s.modPort p fun q => (q.stopWait.putWork s.cfg.frameMax frame).completeFrame s.cfg.frameMax .none
        (writeChecksum s.cfg r.raw offset data) frame .rawOnly Fields.zero := by
  rw [handOver_wrReadWait hseq, if_neg (by rw [hop]; decide), finishWriteDry, writeStep_stopWait herr hfit]
  dsimp only
  rw [modPort_modPort]
  rfl

/-- Settles O29: the completion of `handOver_writeDry`. -/
theorem dryRunReturnsTheWriteFrame : Obligations.DryRunReturnsTheWriteFrame := by
  intro s p r hv hseq hop herr h4 hraw hfit
  have hF := (frameMax_of_valid hv).2
  obtain ⟨hwlen, -, -, -, -, hlast, -⟩ := writeFrameEchoesTheReadFrame s.cfg r.raw ((s.port p).dinBytes s.cfg.frameMax)
    (cmdB (s.port p).cmdLatch).toNat h4 (by rwa [length_dinBytes])
  rw [handOver_writeDry hseq hop herr hfit]
  change (writeFrame s.cfg r.raw _ ((s.port p).dinBytes s.cfg.frameMax)).length = _ at hwlen
  dsimp only
  unfold Port.dinBytes Port.dinCount at hwlen hlast ⊢
  generalize writeFrame s.cfg r.raw _ _ = w at hwlen hlast ⊢
  generalize writeChecksum s.cfg r.raw _ _ = c at hlast ⊢
  obtain ⟨hwork, hbytes, hpast⟩ := putWork_spec s.cfg.frameMax (s.port p).stopWait (hwlen ▸ hraw) (by omega)
  refine ⟨sameButPort_modPort _ _ _, ?_⟩
  rw [port_modPort_self, ← hwlen]
  refine ⟨sameButFrame_completeFrame .., completed_finish _, rfl, toNat_resLen_completeFrame (by omega),
    resultFrame_completeFrame (hwlen ▸ hraw) (by omega), hwlen ▸ hlast, rfl, rfl, hwork, hbytes, hpast⟩

/-- The commit's submission, from the port with the frame in its work buffer (R139). -/
theorem handOver_writeCommit {s : State} {p : PortId} {r : TransportResult} (hseq : (s.port p).seq = .wrReadWait)
    (hop : cmdOp (s.port p).cmdLatch = 0x04) (herr : (readCompose s.cfg (cmdA (s.port p).cmdLatch) r).err = .none)
    (hfit : (cmdB (s.port p).cmdLatch).toNat + (s.port p).dinLen.toNat ≤ r.raw.length - 6) :
    let w := writeFrame s.cfg r.raw (cmdB (s.port p).cmdLatch).toNat ((s.port p).dinBytes s.cfg.frameMax)
    let b := s.modPort p fun q => q.stopWait.putWork s.cfg.frameMax w
    if s.rq.length = s.cfg.qDepth then
      handOver p r s = b.modPort p (Port.completeFrame s.cfg.frameMax .socket 0 [] .rawOnly Fields.zero)
    else submits p .wrCommitWait w b (handOver p r s) := by
  rw [handOver_wrReadWait hseq, if_pos hop, commitWrite, writeStep_stopWait herr hfit]
  dsimp only
  generalize writeFrame s.cfg r.raw _ _ = w
  generalize hb : (s.modPort p fun q => q.stopWait.putWork s.cfg.frameMax w) = b
  have hcfg : s.cfg = b.cfg := hb ▸ rfl
  have hrq : s.rq = b.rq := hb ▸ rfl
  rw [hcfg, hrq]
  split
  · next hfull =>
    rw [submit_none hfull]
    rfl
  · next hroom =>
    rw [submit_some hroom]
    exact submits_of_submit (submit_some hroom)

/-- Settles O30: `handOver_writeCommit`, whose two outcomes both leave the work buffer as `putWork` wrote it. -/
theorem commitSubmitsTheWriteFrame : Obligations.CommitSubmitsTheWriteFrame := by
  intro s p r hv hseq hop herr h4 hraw hfit
  have hF := (frameMax_of_valid hv).2
  have hcommit := handOver_writeCommit hseq hop herr hfit
  have hwlen := length_writeFrame s.cfg r.raw (cmdB (s.port p).cmdLatch).toNat ((s.port p).dinBytes s.cfg.frameMax)
  dsimp only at hcommit ⊢
  change _ ∧ bufTake _ _ _ = writeFrame s.cfg r.raw _ ((s.port p).dinBytes s.cfg.frameMax) ∧ _ ∧
    if _ then _ else submits _ _ (writeFrame s.cfg r.raw _ ((s.port p).dinBytes s.cfg.frameMax)) _ _
  generalize writeFrame s.cfg r.raw _ _ = w at hcommit hwlen ⊢
  generalize handOver p r s = t at hcommit ⊢
  have hlen : w.length = r.raw.length := by omega
  obtain ⟨hwork, hbytes, hpast⟩ := putWork_spec s.cfg.frameMax (s.port p).stopWait (hlen ▸ hraw) (by omega)
  have hport : (s.modPort p fun q => q.stopWait.putWork s.cfg.frameMax w).port p =
      (s.port p).stopWait.putWork s.cfg.frameMax w := port_modPort_self _ _ _
  have hbuf : (t.port p).wbuf = ((s.port p).stopWait.putWork s.cfg.frameMax w).wbuf ∧
      (t.port p).wlen = ((s.port p).stopWait.putWork s.cfg.frameMax w).wlen := by
    split at hcommit
    · rw [hcommit, port_modPort_self, hport]
      exact ⟨rfl, rfl⟩
    · rw [hcommit.2.2, hport]
      exact ⟨rfl, rfl⟩
  rw [hbuf.1, hbuf.2, hwork, ← hlen]
  refine ⟨rfl, hwork ▸ hbytes, hpast, ?_⟩
  split
  · next hfull =>
    rw [if_pos hfull] at hcommit
    rw [hcommit]
    exact endsInSocket_completeFrame _ p
  · next hroom =>
    rw [if_neg hroom] at hcommit
    exact hcommit

end Sys2Proof.Machine

/-!
PROOFS. What the host reads and writes (R25 to R33, R41 to R44, R71).
-/
namespace Sys2Proof.Machine

open Sys2Proof

/-! ### Writes to a port's registers -/

/-- A change of one port leaves everything else as it was. -/
theorem sameButPort_setPort (s : State) (p : PortId) (q : Port) : sameButPort p s (s.setPort p q) :=
  ⟨rfl, fun _ hr => port_setPort_ne s q hr⟩

/-- Settles O45: the write of `CMD` is accepted by a port that is not busy. -/
theorem commandWriteIsAccepted : Obligations.CommandWriteIsAccepted := by
  intro s p w delay hp hb
  dsimp only
  rw [hostWrite_portAddr (r := .cmd) hp (by decide) rfl rfl, writePortReg, if_neg (by simp [hb])]
  refine ⟨sameButPort_setPort _ _ _, ?_⟩
  rw [port_setPort_self]
  exact ⟨rfl, rfl, rfl, rfl, rfl⟩

/-- Writing 1 clears a flag and writing 0 leaves it (R27, R32). -/
theorem clear_flag (flag b : Bool) : (flag && !b) = if b then false else flag := by
  cases b <;> simp

/-- What a write to a global register does. -/
theorem hostWrite_globalReg {delay : Nat} {s : State} {addr : HostAddr} {r : GlobalReg} {data : Word}
    (h : hostTarget s.cfg addr = .globalReg r) : hostWrite delay addr data s = writeGlobalReg r data s := by
  simp only [hostWrite, h]

/-- The write of `DIN_LEN` to a port that is not busy stores a length that fits (R28). -/
theorem hostWrite_dinLen {s : State} {p : PortId} (hp : p.val < s.cfg.numPorts) (hb : (s.port p).busy = false)
    (delay : Nat) (w : Word) :
    hostWrite delay (portAddr p 0x00C) w s = s.setPort p { s.port p with dinLen := w.extractLsb' 0 9 } :=
  (hostWrite_portAddr (r := .dinLen) hp (by decide) rfl rfl).trans (congrArg _ (if_neg (by simp [hb])))

/-- Settles O46: the register each address names, and what its write does. -/
theorem statusWriteClearsFlags : Obligations.StatusWriteClearsFlags := by
  intro s p w delay hp
  refine ⟨?_, ?_, fun hb => ?_, ?_, ?_⟩
  · rw [hostWrite_portAddr (r := .status) hp (by decide) rfl rfl, ← clear_flag, ← clear_flag]
    rfl
  · exact hostWrite_portAddr (r := .ctrl) hp (by decide) rfl rfl
  · exact hostWrite_dinLen hp hb delay w
  · rw [hostWrite_globalReg (hostTarget_arbStatus.2 rfl), ← clear_flag]
    rfl
  · rw [hostWrite_globalReg (hostTarget_gctrl.2 rfl)]
    rfl

/-- The write of a word of `DATA_IN` to a port that is not busy (R29, R44). -/
theorem hostWrite_dataIn {s : State} {p : PortId} {w : Nat} (hp : p.val < s.cfg.numPorts) (hb : (s.port p).busy = false)
    (hw : w < 65) (delay : Nat) (v : Word) :
    hostWrite delay (portAddr p (0x400 + 4 * w)) v s =
      s.setPort p
        { s.port p with din := bufPutBytes s.cfg.frameMax (s.port p).din (4 * w) (wordBytes v) } :=
  (hostWrite_portAddr hp (by omega) (by omega) (portRegAt_dataIn hw)).trans (congrArg _ (if_neg (by simp [hb])))

/-- The read of a word of `DATA_IN` (R44). -/
theorem hostRead_dataIn {s : State} {p : PortId} {w : Nat} (hp : p.val < s.cfg.numPorts) (hw : w < 65) :
    hostRead s (portAddr p (0x400 + 4 * w)) = (bufferWord s.cfg.frameMax (s.port p).din w, false) :=
  hostRead_portAddr hp (by omega) (by omega) (portRegAt_dataIn hw)

/-- Byte `k` of a word in buffer order (R44). -/
theorem getD_wordBytes (v : Word) {k : Nat} (hk : k < 4) : (wordBytes v).getD k 0 = v.extractLsb' (8 * k) 8 := by
  obtain rfl | rfl | rfl | rfl : k = 0 ∨ k = 1 ∨ k = 2 ∨ k = 3 := by omega
  all_goals rfl

/-- The buffer after a word's write: its four bytes where there is storage, every other byte as before (R44). -/
theorem read_bufPutBytes_word (lim : Nat) (m : Memory) (w : Nat) (v : Word) (i : Nat) :
    (bufPutBytes lim m (4 * w) (wordBytes v)).read i =
      if 4 * w ≤ i ∧ i < 4 * w + 4 ∧ i < lim then v.extractLsb' (8 * (i - 4 * w)) 8 else m.read i := by
  rw [read_bufPutBytes, show (wordBytes v).length = 4 from rfl]
  split
  · exact getD_wordBytes v (by omega)
  · rfl

/-- A word's four bytes, lowest first, make the word (R44). -/
theorem le32_wordBytes (v : Word) :
    le32 (v.extractLsb' 0 8) (v.extractLsb' 8 8) (v.extractLsb' 16 8) (v.extractLsb' 24 8) = v := word_fields v

/-- Settles O47: `read_bufPutBytes_word`, and the word back from its four bytes. -/
theorem dataInPacksLittleEndian : Obligations.DataInPacksLittleEndian := by
  intro s p w v delay hp hb hw
  dsimp only
  rw [hostWrite_dataIn hp hb hw]
  refine ⟨sameButPort_setPort _ _ _, ?_⟩
  have hbyte : ∀ k, k < 4 → 4 * w + k < s.cfg.frameMax →
      bufGet s.cfg.frameMax (bufPutBytes s.cfg.frameMax (s.port p).din (4 * w) (wordBytes v)) (4 * w + k) =
        v.extractLsb' (8 * k) 8 := fun k hk hlim => by
    rw [bufGet_of_lt hlim, read_bufPutBytes_word, if_pos (by omega), Nat.add_sub_cancel_left]
  rw [port_setPort_self]
  refine ⟨rfl, hbyte, fun k hk => ?_, fun hlim => ?_⟩
  · exact (read_bufPutBytes_word _ _ _ _ _).trans (if_neg (by omega))
  · rw [hostRead_dataIn (s := s.setPort p _) hp hw, port_setPort_self, setPort_cfg, bufferWord]
    dsimp only
    have h0 := hbyte 0 (by omega) (by omega)
    rw [Nat.add_zero] at h0
    rw [h0, hbyte 1 (by omega) (by omega), hbyte 2 (by omega) (by omega), hbyte 3 (by omega) (by omega), le32_wordBytes]

/-! ### The pseudo-instruction `din` -/

/-- One host access as the host's sequence does it, with no latency drawn. -/
def applyAccess (s : State) (a : HostAccess) : State :=
  match a with
  | .write addr data => hostWrite 0 addr data s
  | .read _ => s
  | .idle => s

/-- The bytes of a word that `din` writes (R71). -/
theorem le32_extract (a b c d : Byte) :
    (le32 a b c d).extractLsb' 0 8 = a ∧ (le32 a b c d).extractLsb' 8 8 = b ∧ (le32 a b c d).extractLsb' 16 8 = c ∧
      (le32 a b c d).extractLsb' 24 8 = d := by
  have h := toNat_le32 a b c d
  have ha := a.isLt
  have hb := b.isLt
  have hc := c.isLt
  have hd := d.isLt
  refine ⟨?_, ?_, ?_, ?_⟩ <;> apply BitVec.eq_of_toNat_eq <;>
    simp only [BitVec.extractLsb'_toNat, Nat.shiftRight_eq_div_pow, h] <;> omega

/-- Byte `k` of the word that `din` writes at word `w` is byte `4 * w + k` of its operand (R71). -/
theorem extract_dinWord (bs : List Byte) (w : Nat) {k : Nat} (hk : k < 4) :
    (le32 (bs.getD (4 * w) 0) (bs.getD (4 * w + 1) 0) (bs.getD (4 * w + 2) 0) (bs.getD (4 * w + 3) 0)).extractLsb'
      (8 * k) 8 = bs.getD (4 * w + k) 0 := by
  obtain ⟨h0, h1, h2, h3⟩ :=
    le32_extract (bs.getD (4 * w) 0) (bs.getD (4 * w + 1) 0) (bs.getD (4 * w + 2) 0) (bs.getD (4 * w + 3) 0)
  obtain rfl | rfl | rfl | rfl : k = 0 ∨ k = 1 ∨ k = 2 ∨ k = 3 := by omega
  · exact h0
  · exact h1
  · exact h2
  · exact h3

/-- The words that `din` writes from word `w` on change `DATA_IN` of their port only, and leave the operand's bytes there
(R71). -/
theorem foldl_dinWords (p : PortId) (bs : List Byte) (n : Nat) :
    ∀ {s : State} {w : Nat}, p.val < s.cfg.numPorts → (s.port p).busy = false → w + n ≤ 65 →
      ∃ m, (dinWords p bs w n).foldl applyAccess s = s.setPort p { s.port p with din := m } ∧
        ∀ i, m.read i =
          if 4 * w ≤ i ∧ i < 4 * (w + n) ∧ i < s.cfg.frameMax then bs.getD i 0 else (s.port p).din.read i := by
  induction n with
  | zero =>
    intro s w hp hb hw
    refine ⟨(s.port p).din, (setPort_port s p).symm, fun i => ?_⟩
    rw [if_neg (by omega)]
  | succ n ih =>
    intro s w hp hb hw
    have hstep := hostWrite_dataIn hp hb (show w < 65 by omega) 0
      (le32 (bs.getD (4 * w) 0) (bs.getD (4 * w + 1) 0) (bs.getD (4 * w + 2) 0) (bs.getD (4 * w + 3) 0))
    generalize hm : bufPutBytes _ _ _ (wordBytes _) = m at hstep
    obtain ⟨m', hfold, hread⟩ := ih (s := s.setPort p { s.port p with din := m }) (w := w + 1) hp
      (by rw [port_setPort_self]; exact hb) (by omega)
    rw [port_setPort_self] at hfold hread
    refine ⟨m', ?_, fun i => ?_⟩
    · rw [dinWords, List.foldl_cons]
      show (dinWords p bs (w + 1) n).foldl applyAccess (hostWrite 0 _ _ s) = _
      rw [hstep, hfold, setPort_setPort]
    · have hword : m.read i = if 4 * w ≤ i ∧ i < 4 * w + 4 ∧ i < s.cfg.frameMax then bs.getD i 0
          else (s.port p).din.read i := by
        rw [← hm, read_bufPutBytes_word]
        split
        · next hi =>
          rw [extract_dinWord bs w (by omega), Nat.add_sub_cancel' hi.1]
        · rfl
      rw [hread i]
      dsimp only
      rw [setPort_cfg, hword]
      split
      · next hin => rw [if_pos (by omega)]
      · next hout =>
        split
        · next hin => rw [if_pos (by omega)]
        · next hout' => rw [if_neg (by omega)]

/-- Settles O48: `foldl_dinWords` for the words, then the length. -/
theorem dinLoadsTheOperand : Obligations.DinLoadsTheOperand := by
  intro s p bs hv hp hb hlen
  have hF := (frameMax_of_valid hv).2
  obtain ⟨m, hwords, hread⟩ := foldl_dinWords p bs ((bs.length + 3) / 4) (s := s) (w := 0) hp hb (by omega)
  have hall : (pseudoDin p bs).foldl applyAccess s =
      s.setPort p { s.port p with din := m, dinLen := (BitVec.ofNat 32 bs.length).extractLsb' 0 9 } := by
    rw [pseudoDin, List.foldl_append, hwords]
    show hostWrite 0 (portAddr p 0x00C) (BitVec.ofNat 32 bs.length) (s.setPort p { s.port p with din := m }) = _
    rw [hostWrite_dinLen (s := s.setPort p { s.port p with din := m }) hp (by rw [port_setPort_self]; exact hb),
      port_setPort_self, setPort_setPort]
  have hcount : ((BitVec.ofNat 32 bs.length).extractLsb' 0 9).toNat = bs.length := by
    simp only [BitVec.extractLsb'_toNat, BitVec.toNat_ofNat, Nat.shiftRight_zero]
    omega
  show sameButPort p s ((pseudoDin p bs).foldl applyAccess s) ∧
    (((pseudoDin p bs).foldl applyAccess s).port p).dinLen.toNat = bs.length ∧
    bufTake s.cfg.frameMax (((pseudoDin p bs).foldl applyAccess s).port p).din
      (((pseudoDin p bs).foldl applyAccess s).port p).dinLen.toNat = bs ∧
    { ((pseudoDin p bs).foldl applyAccess s).port p with din := (s.port p).din, dinLen := (s.port p).dinLen } = s.port p
  rw [hall, port_setPort_self]
  refine ⟨sameButPort_setPort _ _ _, hcount, ?_, rfl⟩
  show bufTake s.cfg.frameMax m ((BitVec.ofNat 32 bs.length).extractLsb' 0 9).toNat = bs
  rw [hcount]
  apply List.ext_getElem?
  intro i
  rw [getElem?_bufTake]
  split
  · next hi =>
    rw [bufGet_of_lt (by omega), hread, if_pos (by omega), List.getD_eq_getElem _ _ hi, List.getElem?_eq_getElem hi]
  · next hi => rw [List.getElem?_eq_none (by omega)]

end Sys2Proof.Machine

/-!
PROOFS. The words a host read answers, as numbers (R25 to R33, R44, R143, R148).
-/
namespace Sys2Proof.Machine

open Sys2Proof

/-- A word given by its value as a number. -/
theorem eq_ofNat_of_toNat {w : Word} {n : Nat} (h : w.toNat = n) : w = BitVec.ofNat 32 n := by
  rw [← h, BitVec.ofNat_toNat, BitVec.setWidth_eq]

/-- The value of a flag's bit. -/
theorem toNat_bit (b : Bool) : (bit b).toNat = b.toNat := BitVec.toNat_ofBool b

/-! ### A port's registers -/

/-- An error code fits its field (R143). -/
theorem errCode_le (e : ErrTag) : errCode e ≤ 6 := by
  cases e <;> decide

/-- `CTRL` as a number (R25). -/
theorem toNat_ctrlWord (q : Port) : (ctrlWord q).toNat = q.ie.toNat := by
  simp only [ctrlWord, toNat_append_eq, toNat_bit, BitVec.toNat_ofNat]
  omega

/-- `STATUS` as a number (R27). -/
theorem toNat_statusWord (q : Port) :
    (statusWord q).toNat =
      q.busy.toNat + 2 * q.done.toNat + 4 * q.wign.toNat + 16 * errCode q.err + 256 * q.crcv.toNat := by
  have he := errCode_le q.err
  simp only [statusWord, toNat_append_eq, toNat_bit, BitVec.toNat_ofNat]
  omega

/-- `RAWVAL` as a number (R30). -/
theorem toNat_rawvalWord (q : Port) : (rawvalWord q).toNat = q.rawValue.toNat + 256 * q.rawValid.toNat := by
  simp only [rawvalWord, toNat_append_eq, toNat_bit, BitVec.toNat_ofNat]
  omega

/-- `DIN_LEN` and `RES_LEN` as numbers (R28, R30). -/
theorem toNat_countWord (c : Count) : (c.setWidth 32 : Word).toNat = c.toNat := by
  have hc := c.isLt
  rw [BitVec.toNat_setWidth]
  omega

/-- Settles O50: each register's address, and its word as a number. -/
theorem portRegistersReadAsLaidOut : Obligations.PortRegistersReadAsLaidOut := by
  refine ⟨⟨rfl, rfl, rfl, rfl, rfl, rfl, rfl⟩, fun s p hp => ?_⟩
  have hreads : ∀ {off n : Nat} {r : PortReg}, off < 0x1000 → off % 4 = 0 → portRegAt off = some r →
      (readPortReg s.cfg (s.port p) r).toNat = n → hostRead s (portAddr p off) = (BitVec.ofNat 32 n, false) :=
    fun ho h4 hr hn => (hostRead_portAddr hp ho h4 hr).trans (congrArg (·, false) (eq_ofNat_of_toNat hn))
  refine ⟨⟨hreads (by decide) rfl rfl (toNat_ctrlWord _), hreads (by decide) rfl rfl rfl,
      hreads (by decide) rfl rfl (toNat_statusWord _), hreads (by decide) rfl rfl (toNat_countWord _),
      hreads (by decide) rfl rfl (toNat_countWord _), hreads (by decide) rfl rfl ?_,
      hreads (by decide) rfl rfl (toNat_rawvalWord _), hreads (by decide) rfl rfl rfl, hreads (by decide) rfl rfl rfl,
      hreads (by decide) rfl rfl rfl, hreads (by decide) rfl rfl rfl, hreads (by decide) rfl rfl rfl,
      hreads (by decide) rfl rfl rfl⟩, fun w hw => ⟨?_, ?_⟩, ?_, ?_⟩
  · have ht := typeCode_le (s.port p).dataType
    exact (BitVec.toNat_ofNat _ _).trans (Nat.mod_eq_of_lt (by omega))
  · exact hreads (by omega) (by omega) (portRegAt_dataIn hw) (toNat_le32 _ _ _ _)
  · exact hreads (by omega) (by omega) (portRegAt_result hw) (toNat_le32 _ _ _ _)
  · simp [State.irq, hp]
  · simp [State.irq, hp, Port.finish]

/-! ### The global registers -/

/-- `INFO` as a number, for a build that rule R162 allows (R32). -/
theorem toNat_infoWord {c : Params} (h : c.Valid) :
    (infoWord c).toNat =
      c.numPorts + 256 * c.idTable.length + 65536 * c.termBias + 16777216 * (c.qDepth % 256) := by
  obtain ⟨-, -, hbias, htable, -, hports, -⟩ := h
  simp only [infoWord, toNat_append_eq, BitVec.toNat_ofNat]
  omega

/-- `OPCODES` as a number (R32). -/
theorem toNat_opcodesWord (c : Params) : (opcodesWord c).toNat = c.readOpcode.toNat + 256 * c.writeOpcode.toNat := by
  simp only [opcodesWord, toNat_append_eq, BitVec.toNat_ofNat]
  omega

/-- `ID_ENTRY[k]` as a number (R33). -/
theorem toNat_idEntryWord (e : IdEntry) :
    (idEntryWord e).toNat = e.idStart.toNat + 256 * e.idEnd.toNat + 65536 * typeCode e.dataType := by
  have ht := typeCode_le e.dataType
  simp only [idEntryWord, toNat_append_eq, BitVec.toNat_ofNat]
  omega

/-- A code of `rx_state` fits its field (R24). -/
theorem rxCode_le (r : RxState) : rxCode r ≤ 7 := by
  cases r <;> decide

/-- `ARB_STATUS` as a number (R32). -/
theorem toNat_arbStatusWord (s : State) :
    (arbStatusWord s).toNat =
      (if s.arb = .idle then 0 else 1) + 2 * s.rxOvr.toNat + 16 * (if s.arb = .idle then 0 else s.cur.port.val) +
        256 * (s.rq.length % 256) + 65536 * rxCode s.rxState := by
  have hrx := rxCode_le s.rxState
  have hport := s.cur.port.isLt
  simp only [arbStatusWord, State.curPort, State.arbBusy, toNat_append_eq, toNat_bit, BitVec.toNat_ofNat]
  by_cases ha : s.arb = .idle
  · simp [ha]
    omega
  · simp [ha]
    omega

/-- Settles O35: each register's address, and its word as a number. -/
theorem globalRegistersReadAsLaidOut : Obligations.GlobalRegistersReadAsLaidOut := by
  refine ⟨⟨rfl, rfl, rfl, rfl, rfl, rfl, rfl, rfl⟩, fun s hv => ?_⟩
  have hreads : ∀ {addr : HostAddr} {r : GlobalReg} {n : Nat}, hostTarget s.cfg addr = .globalReg r →
      readGlobalReg s r = BitVec.ofNat 32 n → hostRead s addr = (BitVec.ofNat 32 n, false) := fun hr hn => by
    simp only [hostRead, hr, hn]
  obtain ⟨-, -, -, hlen, -⟩ := id hv
  refine ⟨⟨hreads (r := .info) (hostTarget_eq_globalReg.2 ⟨rfl, by decide, rfl⟩) (eq_ofNat_of_toNat (toNat_infoWord hv)),
      hreads (r := .opcodes) (hostTarget_eq_globalReg.2 ⟨rfl, by decide, rfl⟩) (eq_ofNat_of_toNat (toNat_opcodesWord _)),
      hreads (hostTarget_arbStatus.2 rfl) (eq_ofNat_of_toNat (toNat_arbStatusWord s)),
      hreads (hostTarget_gctrl.2 rfl) rfl,
      hreads (r := .byteTmo) (hostTarget_eq_globalReg.2 ⟨rfl, by decide, rfl⟩) rfl,
      hreads (r := .clientTmo) (hostTarget_eq_globalReg.2 ⟨rfl, by decide, rfl⟩) rfl⟩, fun k e he => ?_⟩
  obtain ⟨hk, -⟩ := List.getElem?_eq_some_iff.1 he
  exact hreads (hostTarget_idEntry (by omega) he) (eq_ofNat_of_toNat (toNat_idEntryWord e))

end Sys2Proof.Machine

/-!
PROOFS. The receive FIFO, the framer's bytes and ticks, and the bytes on the wire (R35, R74 to R83, R87, R117).
-/
namespace Sys2Proof.Machine

open Sys2Proof

/-! ### `RX_OVR` -/

/-- The host clears `RX_OVR` with a write of a word with bit 1 set to `ARB_STATUS` (R32). -/
theorem clearsOverflow_iff {c : Params} {a : HostAccess} :
    clearsOverflow c a = true ↔ ∃ w : Word, a = .write 0xF008 w ∧ w.getLsbD 1 = true := by
  cases a with
  | idle => simp [clearsOverflow]
  | read addr => simp [clearsOverflow]
  | write addr data =>
    simp only [clearsOverflow, Bool.and_eq_true, decide_eq_true_eq, hostTarget_arbStatus, HostAccess.write.injEq]
    constructor
    · rintro ⟨haddr, hbit⟩
      exact ⟨data, ⟨haddr, rfl⟩, hbit⟩
    · rintro ⟨w, ⟨haddr, rfl⟩, hbit⟩
      exact ⟨haddr, hbit⟩

/-- The host leaves `RX_OVR` unless it clears it (R32). -/
theorem clearsOverflow_eq_false {c : Params} {a : HostAccess} (h : ∀ w, a = .write 0xF008 w → w.getLsbD 1 = false) :
    clearsOverflow c a = false := by
  rw [Bool.eq_false_iff]
  intro hclear
  obtain ⟨w, ha, hbit⟩ := clearsOverflow_iff.1 hclear
  rw [h w ha] at hbit
  cases hbit

/-- What the host's access does to `RX_OVR` (R32). -/
theorem hostTurn_rxOvr (x : CycleInput) (s : State) :
    (hostTurn x s).rxOvr = (s.rxOvr && !clearsOverflow s.cfg x.host) := by
  unfold hostTurn clearsOverflow
  cases x.host with
  | idle => simp
  | read addr => simp
  | write addr data =>
    unfold hostWrite
    cases ht : hostTarget s.cfg addr with
    | misaligned => simp [ht]
    | unmapped => simp [ht]
    | portReg p r => simp [ht]
    | globalReg r => cases r <;> simp [ht, writeGlobalReg]

/-- The receive side leaves `RX_OVR` where no byte is pushed. -/
theorem receiveTurn_rxOvr_of_no_byte {x : CycleInput} (hx : x.rx = none) (s0 s : State) :
    (receiveTurn x s0 s).rxOvr = s.rxOvr := by
  unfold receiveTurn flushFifo pushByte
  rw [hx]
  split
  · rfl
  · split
    · split
      · next b _ _ => exact (congrArg State.rxOvr (takeByte_frame b s) :)
      · split
        · exact (congrArg State.rxOvr (byteTick_frame s) :)
        · rfl
    · rfl

/-! ### Bytes -/

/-- AWAIT_MARKER on a byte that is not the marker (R76). -/
theorem takeByte_wrong_marker {s : State} (hs : s.rxState = .awaitMarker) {b : Byte} (hb : b ≠ 0x02) :
    takeByte b s = { s with rxTimer := s.cfg.byteTimeout, rxState := .errProtocol, rxCnt := 0 } := by
  simp only [takeByte, hs, takeMarker, if_neg hb]

/-- A waiting framer reloads its budget with the byte it takes, and comes to no timeout (R75). -/
theorem takeByte_of_waiting {s : State} (hw : s.rxState.isWaiting = true) (b : Byte) :
    (takeByte b s).rxTimer = s.cfg.byteTimeout ∧ (takeByte b s).rxState ≠ .errTimeout := by
  cases hs : s.rxState with
  | idle | complete | errProtocol | errTimeout => rw [hs] at hw; cases hw
  | awaitMarker =>
    by_cases hb : b = 0x02
    · subst hb
      rw [takeByte_marker hs]
      exact ⟨rfl, by simp⟩
    · rw [takeByte_wrong_marker hs hb]
      exact ⟨rfl, by simp⟩
  | awaitHeader1 => rw [takeByte_header1 hs]; exact ⟨rfl, by simp⟩
  | awaitHeader2 => rw [takeByte_header2 hs]; exact ⟨rfl, by simp⟩
  | accum =>
    rw [takeByte_accum hs]
    refine ⟨rfl, ?_⟩
    dsimp only
    split <;> simp

/-- A framer at rest takes no byte (R83). -/
theorem foldl_takeByte_of_resting {s : State} (hs : s.rxState = .errProtocol) (bs : List Byte) :
    bs.foldl (fun u c => takeByte c u) s = s := by
  induction bs with
  | nil => rfl
  | cons b bs ih =>
    rw [List.foldl_cons, show takeByte b s = s by simp only [takeByte, hs]]
    exact ih

/-- Settles O32: the wrong first byte ends the exchange, and the framer then rests. -/
theorem wrongMarkerEndsTheExchange : Obligations.WrongMarkerEndsTheExchange := by
  intro s b rest hs hb
  dsimp only
  rw [List.foldl_cons, takeByte_wrong_marker hs hb, foldl_takeByte_of_resting rfl]
  exact ⟨rfl, rfl, rfl, exchangeResult_errProtocol rfl⟩

/-- While the framer waits there is no result (R112). -/
theorem exchangeResult_of_waiting {s : State} (hw : s.rxState.isWaiting = true) : exchangeResult s = none := by
  unfold exchangeResult
  cases hs : s.rxState with
  | complete | errProtocol | errTimeout => rw [hs] at hw; cases hw
  | idle | awaitMarker | awaitHeader1 | awaitHeader2 | accum => rfl

/-- In ARB_RX, with the framer waiting, the receive side alone decides what becomes of framer and FIFO. -/
theorem cycleWith_waiting {x : CycleInput} {s t : State} (hr : resetsNow x s = false) (hw : s.rxState.isWaiting = true)
    (ha : s.arb = .rx) (h : cycleWith x s = .next t) :
    t.framer = (s.received x).framer ∧ t.rxq = (s.received x).rxq ∧ t.rxOvr = (s.received x).rxOvr := by
  obtain ⟨hf, hq, hovr, -⟩ := cycleWith_receiver hr h
  rw [beforeEngines_eq, arbiterTurn_rx_none ha (exchangeResult_of_waiting hw)] at hf hq hovr
  exact ⟨hf, hq, hovr⟩

/-- A waiting framer's turn with a byte to take, tick or no tick (R82). -/
theorem receiveTurn_of_byte {x : CycleInput} {s0 : State} {b : Byte} {rest : List Byte}
    (hw : s0.rxState.isWaiting = true) (hb : s0.rxq ++ x.rx.toList = b :: rest) (s : State) :
    receiveTurn x s0 s =
      if armsNow x s0 && s0.cfg.rxFlushOnArm then flushFifo x s0 s else { takeByte b s with rxq := rest } := by
  unfold receiveTurn
  rw [hw, hb]
  rfl

/-- Settles O33: `received_of_byte` for the cycle, `receiveTurn_of_byte` for the turn with and without a tick. -/
theorem framerTakesTheOldestByte : Obligations.FramerTakesTheOldestByte := by
  refine ⟨fun r => by cases r <;> simp [RxState.isWaiting], ?_, ?_⟩
  · intro x s t b rest hr hw ha hb h
    obtain ⟨hf, hq, hovr⟩ := cycleWith_waiting hr hw ha h
    obtain ⟨hhost, hcfg, -⟩ := hostTurn_framer x s
    have hrec := received_of_byte (by rw [ha]; decide) hw hb
    have htake : t.framer = (takeByte b s).framer := by
      rw [hf, hrec]
      exact takeByte_framer_congr hcfg hhost b
    obtain ⟨hstate, -, -, -, htimer⟩ := framer_eq_iff.1 htake
    obtain ⟨hreload, hno⟩ := takeByte_of_waiting hw b
    have hovr' : t.rxOvr = (s.rxOvr && !clearsOverflow s.cfg x.host) := by
      rw [hovr, hrec]
      exact (congrArg State.rxOvr (takeByte_frame b _) :).trans (hostTurn_rxOvr x (s.outputs x))
    refine ⟨by rw [hq, hrec], htake, htimer.trans hreload, hstate ▸ hno, fun hkeep => ?_, fun w hx hbit => ?_⟩
    · rw [hovr', clearsOverflow_eq_false hkeep, Bool.not_false, Bool.and_true]
    · rw [hovr', clearsOverflow_iff.2 ⟨w, hx, hbit⟩, Bool.not_true, Bool.and_false]
  · intro x s0 s hw hne
    obtain ⟨b, rest, hb⟩ := List.exists_cons_of_ne_nil hne
    rw [receiveTurn_of_byte (x := { x with tick := true }) hw hb, receiveTurn_of_byte (x := { x with tick := false }) hw hb]
    refine ⟨rfl, fun hs => ?_⟩
    rw [← hs] at hw
    split
    · rw [show (flushFifo _ s0 s).rxState = s.rxState from (congrArg State.rxState (flushFifo_frame _ s0 s) :)]
      intro hto
      rw [hto] at hw
      cases hw
    · exact (takeByte_of_waiting hw b).2

/-! ### Ticks -/

/-- Ticks that do not use up the budget lower the timer (R81). -/
theorem iterate_byteTick_of_lt {s : State} {n : Nat} (hn : n < max 1 s.rxTimer) :
    byteTick^[n] s = { s with rxTimer := s.rxTimer - n } := by
  induction n with
  | zero => rfl
  | succ n ih =>
    rw [Function.iterate_succ_apply', ih (by omega), byteTick, if_neg (by dsimp only; omega)]
    rfl

/-- The tick that uses up the budget ends the wait (R81). -/
theorem iterate_byteTick_of_eq {s : State} {n : Nat} (hn : n = max 1 s.rxTimer) :
    byteTick^[n] s = { s with rxState := .errTimeout, rxCnt := 0, rxTimer := s.rxTimer - (n - 1) } := by
  obtain ⟨m, rfl⟩ : ∃ m, n = m + 1 := ⟨n - 1, by omega⟩
  rw [Function.iterate_succ_apply', iterate_byteTick_of_lt (by omega), byteTick, if_pos (by dsimp only; omega)]
  rfl

/-- Settles O34: `received_of_no_byte` for the cycle, and the ticks in a row. -/
theorem byteTimeoutFiresOnTheLastTick : Obligations.ByteTimeoutFiresOnTheLastTick := by
  refine ⟨fun x s t hr hw ha hq hx h => ?_, fun s n _ => ⟨iterate_byteTick_of_lt, fun hn => ?_⟩⟩
  · obtain ⟨hf, hrxq, -⟩ := cycleWith_waiting hr hw ha h
    obtain ⟨hhost, -, hkept⟩ := hostTurn_framer x s
    rw [received_of_no_byte (by rw [ha]; decide) hw (by simp [hq, hx])] at hf hrxq
    refine ⟨?_, ?_, waits_of_no_result hr ha (exchangeResult_of_waiting hw) h⟩
    · rw [hf]
      split
      · exact byteTick_framer_congr hhost
      · exact hhost
    · rw [hrxq, ← hq, ← hkept]
      split
      · exact (congrArg State.rxq (byteTick_frame _) :)
      · rfl
  · rw [iterate_byteTick_of_eq hn]
    exact ⟨rfl, exchangeResult_errTimeout rfl⟩

/-! ### The FIFO -/

/-- A cycle that arms the framer goes from ARB_TX to ARB_RX (R117). -/
theorem arb_of_armsNow {x : CycleInput} {s t : State} (hr : resetsNow x s = false) (h : cycleWith x s = .next t)
    (harm : armsNow x s = true) : s.arb = .tx ∧ t.arb = .rx := by
  have ha : s.arb = .tx := by
    simp only [armsNow, Bool.and_eq_true, decide_eq_true_eq] at harm
    exact harm.1
  rw [cycleWith_tx_arb hr h ha, if_pos harm]
  exact ⟨ha, rfl⟩

/-- Settles O37: with no flush and no waiting framer, the receive side pushes. -/
theorem fifoKeepsBytesUntilItIsFull : Obligations.FifoKeepsBytesUntilItIsFull := by
  intro x s t hr hw h hflush hclear
  have hnoflush : (armsNow x s && s.cfg.rxFlushOnArm) = false := by
    rw [Bool.eq_false_iff]
    intro hboth
    obtain ⟨harm, hon⟩ := Bool.and_eq_true_iff.1 hboth
    exact hflush ⟨hon, arb_of_armsNow hr h harm⟩
  have hrec : s.received x = pushByte x s (hostTurn x (s.outputs x)) := by
    unfold State.received receiveTurn
    rw [hnoflush, hw]
    rfl
  obtain ⟨-, hq, hovr, -⟩ := cycleWith_receiver hr h
  rw [(beforeEngines_fifo x s).1, hrec] at hq
  rw [(beforeEngines_fifo x s).2, hrec] at hovr
  have hkept : (hostTurn x (s.outputs x)).rxq = s.rxq := (hostTurn_framer x s).2.2
  have hovr' : (hostTurn x (s.outputs x)).rxOvr = s.rxOvr := by
    rw [hostTurn_rxOvr, outputs_cfg, clearsOverflow_eq_false hclear, Bool.not_false, Bool.and_true, outputs_rxOvr]
  unfold pushByte overflow at hq hovr
  rw [clearsOverflow_eq_false hclear] at hovr
  cases hx : x.rx with
  | none =>
    rw [hx] at hq hovr
    exact ⟨hq.trans hkept, hovr.trans hovr'⟩
  | some b =>
    rw [hx] at hq hovr
    dsimp only at hq hovr ⊢
    split
    · next hroom =>
      rw [if_pos hroom] at hq hovr
      exact ⟨hq.trans (congrArg (· ++ [b]) hkept), hovr.trans hovr'⟩
    · next hfull =>
      rw [if_neg hfull] at hq hovr
      exact ⟨hq.trans hkept, hovr⟩

/-! ### Transmission -/

/-- What a cycle does to the record of the wire, a reset or not (R87). -/
theorem cycleWith_wire {x : CycleInput} {s t : State} (h : cycleWith x s = .next t) :
    t.wire = if x.txReady then s.wire ++ s.txByte.toList else s.wire := by
  cases hr : resetsNow x s with
  | true =>
    rw [cycleWith_reset hr] at h
    cases h
    rfl
  | false =>
    obtain ⟨-, -, -, -, -, hwire⟩ := beforeEngines_frame x s
    exact (congrArg State.wire (cycleWith_frame hr h) :).trans hwire

/-- The byte at an index, as a list. -/
theorem toList_getElem?_eq_take_drop (l : List Byte) (i : Nat) : l[i]?.toList = (l.drop i).take 1 := by
  rw [← List.head?_drop]
  cases l.drop i <;> rfl

/-- The FIFO after a flush: empty but for a byte of that very cycle (R74). -/
theorem flushFifo_rxq (x : CycleInput) (s0 s : State) :
    (flushFifo x s0 s).rxq = [] ∨ (flushFifo x s0 s).rxq = x.rx.toList := by
  unfold flushFifo
  cases x.rx with
  | none => exact .inl rfl
  | some b =>
    dsimp only
    split
    · exact .inr rfl
    · exact .inl rfl

/-- The cycle that arms the framer (R74, R117). -/
theorem cycleWith_arms {x : CycleInput} {s t : State} (hr : resetsNow x s = false) (h : cycleWith x s = .next t)
    (harm : armsNow x s = true) :
    t.rxState = .awaitMarker ∧ t.rxCnt = 0 ∧ t.rxLen = 0 ∧ t.rxTimer = s.cfg.byteTimeout ∧
      (s.cfg.rxFlushOnArm = true → t.rxq = [] ∨ t.rxq = x.rx.toList) := by
  obtain ⟨hf, hq, -, -⟩ := cycleWith_receiver hr h
  rw [(beforeEngines_fifo x s).1] at hq
  rw [beforeEngines_eq, arbiterTurn_tx (arb_of_armsNow hr h harm).1, if_pos harm] at hf
  obtain ⟨hst, -, hcnt, hlen, htimer⟩ := framer_eq_iff.1 hf
  obtain ⟨-, -, -, -, -, hcfg⟩ := received_controller x s
  refine ⟨hst, hcnt, hlen, htimer.trans (congrArg Params.byteTimeout hcfg), fun hon => ?_⟩
  have hrec : s.received x = flushFifo x s (hostTurn x (s.outputs x)) := by
    unfold State.received receiveTurn
    rw [harm, hon]
    rfl
  rw [hq, hrec]
  exact flushFifo_rxq _ _ _

/-- In ARB_TX the framer is armed where no byte is left after the cycle's handshake (R117). -/
theorem armsNow_iff {x : CycleInput} {s : State} (hv : s.cfg.Valid) (hq : s.QueuesOk) (ha : s.arb = .tx) :
    (txNext x s).toNat = min s.cur.bytes.length (s.txIdx.toNat + if x.txReady then 1 else 0) ∧
      (armsNow x s = true ↔ s.cur.bytes.length ≤ s.txIdx.toNat + if x.txReady then 1 else 0) := by
  obtain ⟨-, -, -, hlen, -, hidx⟩ := hq
  have hF := (frameMax_of_valid hv).2
  have hnext := toNat_txNext (x := x) ha (by omega)
  have hle : s.txIdx.toNat ≤ s.cur.bytes.length ∧ (s.txIdx.toNat = s.cur.bytes.length → s.cur.bytes.length = 0) := by
    rcases hidx ha with hlt | ⟨hzero, hnil⟩
    · omega
    · simp [hzero, hnil]
  obtain ⟨hle, hend⟩ := hle
  have hmin : (txNext x s).toNat = min s.cur.bytes.length (s.txIdx.toNat + if x.txReady then 1 else 0) := by
    rw [hnext]
    cases x.txReady with
    | false =>
      simp only [Bool.false_eq_true, false_and, if_false]
      omega
    | true =>
      simp only [true_and, if_true]
      split <;> omega
  refine ⟨hmin, ?_⟩
  simp only [armsNow, ha, decide_true, Bool.true_and, decide_eq_true_eq, hmin]
  omega

/-- Settles O39: `cycleWith_wire` for the wire, `armsNow_iff` for the end of the request. -/
theorem requestBytesGoOutVerbatim : Obligations.RequestBytesGoOutVerbatim := by
  intro x s t hv hq h
  refine ⟨fun ha => ?_, fun ha => ⟨?_, fun hr => ?_⟩⟩
  · rw [cycleWith_wire h, State.txByte, if_neg ha, Option.toList_none, List.append_nil, ite_self]
  · rw [cycleWith_wire h, State.txByte, if_pos ha, toList_getElem?_eq_take_drop]
  · obtain ⟨hnext, harms⟩ := armsNow_iff (x := x) hv hq ha
    dsimp only
    by_cases hlast : s.cur.bytes.length ≤ s.txIdx.toNat + if x.txReady then 1 else 0
    · rw [if_pos hlast]
      exact ⟨(arb_of_armsNow hr h (harms.2 hlast)).2, cycleWith_arms hr h (harms.2 hlast)⟩
    · have hno : ¬armsNow x s = true := fun harm => hlast (harms.1 harm)
      rw [if_neg hlast]
      obtain ⟨-, -, hcur, -⟩ := cycleWith_line hr h (.inl ha)
      refine ⟨by rw [cycleWith_tx_arb hr h ha, if_neg hno], hcur, ?_⟩
      rw [cycleWith_txIdx hr h ha, hnext]
      omega

end Sys2Proof.Machine

/-!
PROOFS. What a cycle makes of one port, whatever the other engines do: a reply, a stale reply, the client timeout, and a host
write (R119 to R123, R147).
-/
namespace Sys2Proof.Machine

open Sys2Proof

/-! ### Replies -/

/-- Settles O40: `cycleWith_handOver` whatever the other engines do, and the one engine's turn where they do nothing. -/
theorem replyIsHandedToItsPort : Obligations.ReplyIsHandedToItsPort := by
  refine ⟨fun x s t p hr hok hf h => cycleWith_handOver hr (hok p).1 hf h, fun x s p hr hok hf hidle => ?_⟩
  have ⟨_, _, hwaiting, _⟩ := hf
  rw [cycleWith_one hr hidle, engineTurn_of_replyReaches (not_localCmd_of_waiting (hok p).1 hwaiting) hf]

/-- A port whose engine has nothing to do in a cycle is after it as the host's access left it. -/
theorem cycleWith_port_of_engineIdle {x : CycleInput} {s t : State} {p : PortId} (hr : resetsNow x s = false)
    (h : cycleWith x s = .next t) (hi : engineIdle x s p = true) : t.port p = (hostTurn x s).port p := by
  obtain ⟨u, v, hturn, -, hport, -, ht⟩ := cycleWith_turn hr h p
  rw [engineTurn_idle hi] at hturn
  cases hturn
  rw [ht, hport]

/-- In a cycle in which no port enters a wait, the queue and the entry in service change by a pop alone (R116). -/
theorem cycleWith_queue_of_no_submission {x : CycleInput} {s t : State} (hr : resetsNow x s = false)
    (h : cycleWith x s = .next t) (hno : ∀ p, entersWait s t p = false) :
    (popsNow s = false ∧ t.rq = s.rq ∧ t.cur = s.cur) ∨
      (popsNow s = true ∧ s.rq = t.cur :: t.rq ∧ (s.arb = .idle ∨ s.arb = .reply)) := by
  obtain ⟨pushed, hrq, hports, -⟩ := cycleWith_pushed hr h
  have hnil : pushed = [] := by
    rw [List.filter_eq_nil_iff.2 fun p _ => by simp [hno p]] at hports
    exact List.map_eq_nil_iff.1 hports
  rw [hnil, List.append_nil] at hrq
  have harb : (s.arb = .tx ∨ s.arb = .rx) ∨ s.arb = .idle ∨ s.arb = .reply := by cases s.arb <;> simp
  rcases harb with ha | ha
  · have hp := (popsNow_busy ha).1
    obtain ⟨-, -, hcur, -⟩ := cycleWith_line hr h ha
    rw [hp] at hrq
    exact .inl ⟨hp, hrq, hcur⟩
  · cases hp : popsNow s with
    | true =>
      obtain ⟨r, rest, hcons, hcur, -, -⟩ := cycleWith_pops hr h ha hp
      rw [hp, hcons] at hrq
      exact .inr ⟨rfl, by rw [hcons, hcur, hrq]; rfl, ha⟩
    | false =>
      rw [hp] at hrq
      exact .inl ⟨rfl, hrq, (cycleWith_rests hr h ha hp).1⟩

/-- A port whose engine is where it was has entered no wait. -/
theorem entersWait_eq_false_of_seq {s t : State} {p : PortId} (h : (t.port p).seq = (s.port p).seq) :
    entersWait s t p = false := by
  simp [entersWait, h]

/-- Settles O41: `cycleWith_port_of_engineIdle` for the ports, `cycleWith_queue_of_no_submission` for the queue. -/
theorem staleReplyChangesNoPort : Obligations.StaleReplyChangesNoPort := by
  refine ⟨fun x s t hr ha h => ⟨?_, fun p hf hseq htick => ?_⟩, fun x s hr ha hidle hhost => ?_⟩
  · rw [cycleWith_arb hr h (.inr ha)]
    split
    · exact .inr rfl
    · exact .inl rfl
  · exact cycleWith_port_of_engineIdle hr h (engineIdle_iff.2 ⟨hseq, hf, htick⟩)
  · obtain ⟨t, h⟩ := cycleWith_total x s
    have hports : ∀ p, t.port p = s.port p := fun p => by
      rw [cycleWith_port_of_engineIdle hr h (hidle p), hostTurn, hhost]
    have harb := cycleWith_arb hr h (.inr ha)
    refine ⟨t, h, ports_ext hports, ?_⟩
    rcases cycleWith_queue_of_no_submission hr h fun p => entersWait_eq_false_of_seq (by rw [hports p]) with
      ⟨hp, hrq, -⟩ | ⟨hp, hcons, -⟩
    · exact .inl ⟨hrq, by rw [harb, hp]; rfl⟩
    · exact .inr ⟨hcons, by rw [harb, hp]; rfl⟩

/-! ### The client timeout -/

/-- A wait that is handed `SOCKET` ends so, whichever it is (R121, R126, R133, R135, R139). -/
theorem handOver_socket {s : State} {p : PortId} (hseq : (s.port p).seq.isWait = true) :
    handOver p TransportResult.socket s =
      s.modPort p fun q => q.stopWait.completeFrame s.cfg.frameMax .socket 0 [] .rawOnly Fields.zero := by
  have hread : ∀ id, finishRead p id TransportResult.socket (s.modPort p Port.stopWait) =
      s.modPort p fun q => q.stopWait.completeFrame s.cfg.frameMax .socket 0 [] .rawOnly Fields.zero := fun id => by
    rw [finishRead_stopWait, readCompose_of_noFrame (.inr (.inr rfl))]
    rfl
  cases hs : (s.port p).seq with
  | idle | localCmd => rw [hs] at hseq; cases hseq
  | xchgWait => exact handOver_raw (.inl hs) _
  | wrCommitWait => exact handOver_raw (.inr hs) _
  | rdWait => rw [handOver_rdWait hs, hread]
  | wrReadWait =>
    have herr : (readCompose (s.modPort p Port.stopWait).cfg (cmdA (s.port p).cmdLatch) TransportResult.socket).err ≠
        .none := by
      rw [readCompose_of_noFrame (.inr (.inr rfl))]
      decide
    rw [handOver_of_stopped hs (writeStep_of_err _ herr), hread]

/-- The turn of a waiting port that no reply reaches: it counts a tick, if there is one and a budget (R121). -/
theorem engineTurn_of_waiting {x : CycleInput} {s0 : State} {p : PortId} (hseq : (s0.port p).seq ≠ .localCmd)
    (hw : (s0.port p).waiting = true) (hf : ¬replyReaches s0 p) (s : State) :
    engineTurn x s0 p s = .next (if x.tick = true ∧ s0.cfg.clientTimeout ≠ 0 then clientTick p s else s) := by
  rw [← replyFor_iff, Bool.not_eq_true] at hf
  rw [engineTurn, runsNow_eq_false hseq, engineWait, delaysNow_eq_false hseq, hf, hw]
  simp

/-- What a cycle makes of a waiting port that no reply reaches (R121). -/
theorem cycleWith_client {x : CycleInput} {s t : State} {p : PortId} (hr : resetsNow x s = false)
    (hok : (s.port p).Coherent) (hw : (s.port p).waiting = true) (hf : ¬replyReaches s p) (h : cycleWith x s = .next t) :
    let q := (hostTurn x s).port p
    t.port p =
      if x.tick = true ∧ s.cfg.clientTimeout ≠ 0 then
        if 1 < (s.port p).wtimer then { q with wtimer := (s.port p).wtimer - 1 }
        else q.stopWait.completeFrame s.cfg.frameMax .socket 0 [] .rawOnly Fields.zero
      else q := by
  obtain ⟨u, v, hturn, hcfg, hport, -, ht⟩ := cycleWith_turn hr h p
  obtain ⟨hwait, hbusy⟩ := hok.of_waiting hw
  rw [engineTurn_of_waiting (not_localCmd_of_waiting hok hw) hw hf] at hturn
  cases hturn
  obtain ⟨-, -, -, htimer⟩ := hostTurn_keeps x s p
  obtain ⟨-, hseq, -⟩ := hostTurn_busy_keeps (x := x) hbusy
  dsimp only
  rw [ht, ← htimer, ← hport, ← hcfg]
  by_cases htick : x.tick = true ∧ u.cfg.clientTimeout ≠ 0
  · rw [if_pos htick, if_pos htick, clientTick]
    by_cases hlast : 1 < (u.port p).wtimer
    · rw [if_pos hlast, if_neg (by omega), port_modPort_self]
    · rw [if_neg hlast, if_pos (by omega), handOver_socket (by rw [hport, hseq]; exact hwait), port_modPort_self]
  · rw [if_neg htick, if_neg htick]

/-- A wait that ends with `SOCKET`: no frame, and every other register as it was (R121, R143). -/
theorem stopWait_socket_spec (lim : Nat) (q : Port) :
    let q' := q.stopWait.completeFrame lim .socket 0 [] .rawOnly Fields.zero
    sameButFrame 0 { q with waiting := false } q' ∧ q'.Completed ∧ q'.waiting = false ∧ q'.err = .socket ∧ q'.crcv = 0 ∧
      q'.resLen = 0 ∧ q'.dataType = .rawOnly ∧ q'.fields = Fields.zero ∧ q'.tag = q.tag :=
  ⟨sameButFrame_completeFrame lim .socket 0 [] .rawOnly Fields.zero q.stopWait, completed_finish _, rfl, rfl, rfl, rfl, rfl,
    rfl, rfl⟩

/-- Settles O42: `cycleWith_client` for the port, `cycleWith_queue_of_no_submission` for the queue. -/
theorem clientTimeoutEndsTheWait : Obligations.ClientTimeoutEndsTheWait := by
  refine ⟨fun x s t p hr hok hw hf h => ?_, fun x s p hr hok htick hf hhost hidle => ?_⟩
  · have hport := cycleWith_client hr (hok p).1 hw hf h
    obtain ⟨-, htag, -⟩ := hostTurn_keeps x s p
    dsimp only at hport ⊢
    by_cases htick : x.tick = true ∧ s.cfg.clientTimeout ≠ 0
    · rw [if_pos htick] at hport ⊢
      by_cases hlast : 1 < (s.port p).wtimer
      · rw [if_pos hlast] at hport ⊢
        exact hport
      · rw [if_neg hlast] at hport ⊢
        rw [hport, ← htag]
        exact stopWait_socket_spec _ _
    · rw [if_neg htick] at hport ⊢
      exact hport
  · obtain ⟨t, h⟩ := cycleWith_total x s
    have hothers : ∀ r, r ≠ p → t.port r = s.port r := fun r hne => by
      rw [cycleWith_port_of_engineIdle hr h (hidle r hne), hostTurn, hhost]
    have hown := cycleWith_client hr (hok p).1 htick.2.1 hf h
    rw [hostTurn, hhost] at hown
    dsimp only at hown
    rw [if_pos ⟨htick.1, htick.2.2⟩] at hown
    have hno : ∀ r, entersWait s t r = false := fun r => by
      by_cases hne : r = p
      · subst hne
        split at hown
        · exact entersWait_eq_false_of_seq (congrArg Port.seq hown :)
        · rw [entersWait, show (t.port r).seq = .idle from congrArg Port.seq hown]
          rfl
      · exact entersWait_eq_false_of_seq (by rw [hothers r hne])
    refine ⟨t, h, hothers, ?_⟩
    rcases cycleWith_queue_of_no_submission hr h hno with ⟨-, hkept⟩ | ⟨hp, hpopped⟩
    · exact ⟨fun _ => hkept, .inl hkept⟩
    · exact ⟨fun hnot => absurd hp (by rw [hnot]; decide), .inr hpopped⟩

/-! ### A host write in its cycle -/

/-- `RX_OVR` in a cycle with no byte is as the host's access left it. -/
theorem cycleWith_rxOvr_of_no_byte {x : CycleInput} {s t : State} (hr : resetsNow x s = false) (hx : x.rx = none)
    (h : cycleWith x s = .next t) : t.rxOvr = (hostTurn x s).rxOvr := by
  obtain ⟨-, -, hovr, -⟩ := cycleWith_receiver hr h
  rw [hovr, (beforeEngines_fifo x s).2, State.received, receiveTurn_rxOvr_of_no_byte hx, hostTurn_rxOvr, hostTurn_rxOvr]
  rfl

/-- Settles O22: the bus, the operands and the idle engines, then `RX_OVR` and the completion. -/
theorem hostWriteTakesEffectInItsCycle : Obligations.HostWriteTakesEffectInItsCycle := by
  intro x s t addr data hr hx h
  have hw : hostWrite x.delay addr data s = hostTurn x s := by rw [hostTurn, hx]
  dsimp only
  rw [hw]
  refine ⟨by rw [cycleWith_bus h, hx]; rfl, fun p => ?_, fun hrx => cycleWith_rxOvr_of_no_byte hr hrx h,
    fun hok p hb hb' => ?_⟩
  · obtain ⟨hie, hwign, hops⟩ := cycleWith_operands hr h p
    exact ⟨hie, hwign, hops, cycleWith_port_of_engineIdle hr h⟩
  · have hbusy := (hostTurn_busy_keeps (x := x) hb).1
    rcases cycleWith_coherentCases hr (hok p).1 h with ⟨-, ⟨-, hdone, -⟩, -⟩ | ⟨-, hs⟩ | ht
    · exact hdone
    · obtain ⟨-, -, hsame, -⟩ := hs.keeps
      rw [hsame, hbusy] at hb'
      cases hb'
    · obtain ⟨-, -, hsame, -⟩ := ht.keeps
      rw [hsame, hbusy] at hb'
      cases hb'

end Sys2Proof.Machine

/-!
PROOFS. The latched command and its run (R67, R173; log entry 11), and the reset state (R159).
-/
namespace Sys2Proof.Machine

open Sys2Proof

/-! ### The latched command runs -/

/-- When an engine runs its latched command (R173). -/
theorem runsNow_iff {s : State} {p : PortId} : runsNow s p = true ↔ commandDue s p := by
  simp [runsNow, commandDue]

/-- The turn of a port whose command is due (R173). -/
theorem engineTurn_of_due {s0 : State} {p : PortId} (h : commandDue s0 p) (x : CycleInput) (s : State) :
    engineTurn x s0 p s = runCommand p s := by
  rw [engineTurn, runsNow_iff.2 h]
  rfl

/-- The turn of a port whose command is not due yet (R173). -/
theorem engineTurn_of_delay {s0 : State} {p : PortId} (hs : (s0.port p).seq = .localCmd) (hd : (s0.port p).delay ≠ 0)
    (x : CycleInput) (s : State) :
    engineTurn x s0 p s = .next (s.modPort p fun q => { q with delay := q.delay - 1 }) := by
  have hrun : runsNow s0 p = false := by simp [runsNow, hd]
  have hdelay : delaysNow s0 p = true := by simp [delaysNow, hs, hd]
  rw [engineTurn, hrun, engineWait, hdelay]
  rfl

theorem runCommand_of_ok {p : PortId} {s : State} {i : Instr} (h : decode (s.port p).cmdLatch = .ok i) :
    runCommand p s = exec i { s with active := p } := by
  rw [runCommand, h]

theorem runCommand_of_error {p : PortId} {s : State} {e : DecodeError} (h : decode (s.port p).cmdLatch = .error e) :
    runCommand p s = .next (s.failArg p) := by
  rw [runCommand, h]

/-- A busy port's command word is its engine's, whatever the host writes in the cycle (R26, R163). -/
theorem cmdLatch_hostTurn {x : CycleInput} {s : State} {p : PortId} (hb : (s.port p).busy = true) :
    ((hostTurn x s).port p).cmdLatch = (s.port p).cmdLatch := by
  obtain ⟨-, -, hops, -⟩ := hostTurn_busy_keeps (x := x) hb
  exact (congrArg Prod.fst hops :)

/-- The end of a cycle after the engines' turns: a pop that comes last (R116; log entry 9). -/
def endCycle (s : State) : Host.Outcome State Fault Refusal → Host.Outcome State Fault Refusal
  | .next t => .next (latePop s t)
  | .fault f => .fault f
  | .refused r => .refused r

/-- Settles O4: the engine's turn is `runCommand` on the port as the host's access left it. -/
theorem stepRunsTheLatchedCommand : Obligations.StepRunsTheLatchedCommand := by
  refine ⟨fun s t p hr hdue hb h => ?_, fun s p hr hdue hb hidle => ?_, fun s t p hr hs hd hb h => ?_⟩
  · obtain ⟨u, v, hturn, hcfg, hport, hcount, ht⟩ := cycleWith_turn hr h p
    have hlatch : (u.port p).cmdLatch = (s.port p).cmdLatch := by rw [hport, cmdLatch_hostTurn hb]
    rw [engineTurn_of_due hdue] at hturn
    refine ⟨{ u with active := p }, hcfg, rfl, hport, hcount, fun i hi => ?_, fun e he => ?_⟩
    · rw [runCommand_of_ok (by rw [hlatch, hi])] at hturn
      exact ⟨v, hturn, ht⟩
    · rw [runCommand_of_error (by rw [hlatch, he])] at hturn
      cases hturn
      exact ht
  · have hlatch : ((beforeEngines s.input s).port p).cmdLatch = (s.port p).cmdLatch := by
      rw [beforeEngines_port, hostTurn_outputs_port, cmdLatch_hostTurn hb]
    have hstep : step s = endCycle s (runCommand p (beforeEngines s.input s)) :=
      (cycleWith_one hr hidle).trans (congrArg (endCycle s) (engineTurn_of_due hdue _ _))
    refine ⟨fun i hi => ?_, fun e he => ?_⟩
    · exact hstep.trans (congrArg (endCycle s) (runCommand_of_ok (hlatch ▸ hi)))
    · exact hstep.trans (congrArg (endCycle s) (runCommand_of_error (hlatch ▸ he)))
  · obtain ⟨u, v, hturn, -, hport, -, ht⟩ := cycleWith_turn hr h p
    obtain ⟨-, -, -, hdelay⟩ := hostTurn_busy_keeps (x := s.input) hb
    rw [engineTurn_of_delay hs hd] at hturn
    cases hturn
    rw [ht, port_modPort_self, hport, hdelay]

/-! ### The placed command word -/

/-- A cycle with quiet inputs, and with controller and framer idle and nothing queued, does nothing before the engines (R21,
R35, R116). -/
theorem beforeEngines_quiet {s : State} (ha : s.arb = .idle) (hrx : s.rxState = .idle) (hq : s.rq = []) :
    beforeEngines CycleInput.quiet s = s.outputs CycleInput.quiet := by
  have hreceive : receiveTurn CycleInput.quiet s (s.outputs CycleInput.quiet) = s.outputs CycleInput.quiet := by
    unfold receiveTurn
    rw [armsNow_eq_false (by rw [ha]; decide), hrx]
    rfl
  have harbiter : ∀ u, arbiterTurn CycleInput.quiet s u = earlyPop s u := fun u => by rw [arbiterTurn, ha]
  rw [beforeEngines, show hostTurn CycleInput.quiet (s.outputs CycleInput.quiet) = s.outputs CycleInput.quiet from rfl,
    hreceive, harbiter, earlyPop, popsNow_of_nil hq]
  rfl

/-- With nothing queued no pop ends a cycle (R116). -/
theorem latePop_of_nil {s : State} (hq : s.rq = []) (u : State) : latePop s u = u := by
  rw [latePop, popsLast, popsNow_of_nil hq]
  rfl

/-- The placed word is the command's. -/
theorem withFetchWord_encode (s : State) (i : Instr) :
    s.withFetchWord 32 (encode i).toNat = s.latchCommand (encode i) := by
  have hlt := (encode i).isLt
  generalize encode i = w at hlt
  rw [State.withFetchWord, Nat.mod_eq_of_lt hlt, BitVec.ofNat_toNat, BitVec.setWidth_eq]

/-- Settles O5: the one engine's turn of `stepRunsTheLatchedCommand`, in a cycle in which nothing else happens. -/
theorem stepRunsTheFetchedWord : Obligations.StepRunsTheFetchedWord := by
  intro s i ⟨ha, hq, hrx, hlocal⟩
  have hdecode : decode (encode i) = .ok i := decodeAndEncodeAgree.1 i
  rw [withFetchWord_encode]
  generalize encode i = w at hdecode
  have hown : (s.latchCommand w).port 0 = (s.port 0).latched w := port_modPort_self _ _ _
  have hother : ∀ r, r ≠ 0 → (s.latchCommand w).port r = s.port r := fun r hr => port_modPort_ne _ _ hr
  have hidle : ∀ r, r ≠ 0 → engineIdle CycleInput.quiet (s.latchCommand w) r = true := fun r hr =>
    engineIdle_iff.2 ⟨by rw [hother r hr]; exact hlocal r, by simp [replyReaches, ha], by simp [tickCounts, CycleInput.quiet]⟩
  have hrun := stepRunsTheLatchedCommand.2.1 (s.latchCommand w) 0 rfl
    ⟨(congrArg Port.seq hown :), (congrArg Port.delay hown :)⟩ (congrArg Port.busy hown :) hidle
  rw [hrun.1 i (by rw [hown]; exact hdecode)]
  have hbefore : { beforeEngines (s.latchCommand w).input (s.latchCommand w) with active := 0 } =
      { s.modPort 0 (Port.latched w) with cycle := s.cycle + 1, bus := .idle, active := 0 } := by
    rw [show (s.latchCommand w).input = CycleInput.quiet from rfl, beforeEngines_quiet (s := s.latchCommand w) ha hrx hq]
    rfl
  rw [hbefore]
  cases exec i { s.modPort 0 (Port.latched w) with cycle := s.cycle + 1, bus := .idle, active := 0 } with
  | next t => exact congrArg Host.Outcome.next (latePop_of_nil hq t)
  | fault f => rfl
  | refused r => rfl

/-! ### The reset state -/

theorem port_reset_isReset : Port.reset.IsReset := by
  simp [Port.IsReset, Port.reset]

theorem resetWith_isReset (c : Params) : (State.resetWith c).IsReset := by
  refine ⟨fun p => ?_, rfl, rfl, rfl, rfl, rfl, rfl, rfl, rfl, rfl, rfl⟩
  exact ⟨port_resetWith c p ▸ port_reset_isReset, irq_eq_false_of_not_done (by rw [port_resetWith]; rfl)⟩

/-- Whatever build the free value asks for, the machine's is one that rule R162 allows. -/
theorem build_valid : Config.build.Valid := by
  unfold Config.build
  split
  · next h => exact h
  · decide

/-- Settles O51. -/
theorem resetStateIsAsTheTableSays : Obligations.ResetStateIsAsTheTableSays :=
  ⟨fun c => ⟨resetWith_isReset c, rfl⟩, resetWith_isReset _, build_valid⟩

theorem port_reset_coherent : Port.reset.Coherent := by
  simp [Port.Coherent, Port.reset, SeqState.isWait]

/-- Settles O53: in the reset state the ports, the framer and the queues are all at rest and hold nothing. -/
theorem resetStateIsWellKept : Obligations.ResetStateIsWellKept := by
  intro c _
  refine ⟨⟨bufferOk_nil _, fun p => ?_⟩, fun p => ?_, ⟨by simp [State.resetWith], Nat.zero_le _⟩,
    ⟨Nat.zero_le _, Nat.zero_le _, by simp [State.resetWith], Nat.zero_le _, Nat.zero_le _, by simp [State.resetWith]⟩,
    fun p => ?_, by simp [State.resetWith]⟩
  · rw [port_resetWith]
    exact ⟨bufferOk_nil _, bufferOk_nil _, bufferOk_nil _⟩
  · rw [port_resetWith]
    exact ⟨port_reset_coherent, fun _ => rfl⟩
  · have hnone : (State.resetWith c).liveTags p = [] := rfl
    rw [port_resetWith, hnone]
    exact ⟨Nat.two_pow_pos _, by simp, by simp, by simp [Port.reset]⟩

end Sys2Proof.Machine

/-!
PROOFS. Nothing in a cycle reads the bus's answer, so a host read changes that answer alone (R48).
-/
namespace Sys2Proof.Machine

open Sys2Proof

/-- The state with `b` as the bus's answer. -/
def State.withBus (b : BusResponse) (s : State) : State := { s with bus := b }

/-- The outcome of a turn with `b` as the bus's answer. -/
def outcomeWithBus (b : BusResponse) : Host.Outcome State Fault Refusal → Host.Outcome State Fault Refusal
  | .next t => .next (t.withBus b)
  | .fault f => .fault f
  | .refused r => .refused r

section
variable (b : BusResponse) (s : State)

@[simp] theorem withBus_cfg : (s.withBus b).cfg = s.cfg := rfl
@[simp] theorem withBus_active : (s.withBus b).active = s.active := rfl
@[simp] theorem withBus_port (p : PortId) : (s.withBus b).port p = s.port p := rfl

/-! ### The commands -/

theorem submit_withBus (p : PortId) (w : SeqState) (bs : List Byte) :
    (s.withBus b).submit p w bs = (s.submit p w bs).map (State.withBus b) := by
  unfold State.submit
  by_cases hfull : s.rq.length = s.cfg.qDepth
  · rw [if_pos hfull]
    exact if_pos hfull
  · rw [if_neg hfull]
    exact if_neg hfull

/-- The read step of a write, whatever it comes to, reads no answer of the bus. -/
theorem writeStep_withBus (p : PortId) (id offset : Byte) (r : TransportResult) :
    writeStep p id offset r (s.withBus b) =
      match writeStep p id offset r s with
      | .stopped t => .stopped (t.withBus b)
      | .built frame crc t => .built frame crc (t.withBus b) := by
  by_cases herr : (readCompose s.cfg id r).err = .none
  · rcases Nat.lt_or_ge (r.raw.length - 6) (offset.toNat + (s.port p).dinLen.toNat) with hpast | hfit
    · rw [writeStep_of_misfit (s := s) herr hpast, writeStep_of_misfit (s := s.withBus b) herr hpast]
      rfl
    · rw [writeStep_of_fit (s := s) herr hfit, writeStep_of_fit (s := s.withBus b) herr hfit]
      rfl
  · rw [writeStep_of_err (s := s) _ herr, writeStep_of_err (s := s.withBus b) _ herr]
    rfl

theorem finishWriteDry_withBus (p : PortId) (id offset : Byte) (r : TransportResult) :
    finishWriteDry p id offset r (s.withBus b) = (finishWriteDry p id offset r s).withBus b := by
  unfold finishWriteDry
  rw [writeStep_withBus]
  cases writeStep p id offset r s <;> rfl

theorem commitWrite_withBus (p : PortId) (id offset : Byte) (r : TransportResult) :
    commitWrite p id offset r (s.withBus b) = (commitWrite p id offset r s).withBus b := by
  unfold commitWrite
  rw [writeStep_withBus]
  cases writeStep p id offset r s with
  | stopped t => rfl
  | built frame crc t =>
    dsimp only
    rw [submit_withBus]
    cases t.submit p .wrCommitWait frame <;> rfl

/-- A command that starts with a submission, and what it does on a full queue. -/
theorem submitted_withBus (p : PortId) (w : SeqState) (bs : List Byte) {f : State → State}
    (hf : f (s.withBus b) = (f s).withBus b) :
    (match (s.withBus b).submit p w bs with
      | some t => t
      | none => f (s.withBus b)) =
      (match s.submit p w bs with
        | some t => t
        | none => f s).withBus b := by
  rw [submit_withBus]
  cases s.submit p w bs with
  | none => exact hf
  | some t => rfl

theorem ite_withBus {c : Prop} [Decidable c] {t t' u u' : State} (ht : t' = t.withBus b) (hu : u' = u.withBus b) :
    (if c then t' else u') = (if c then t else u).withBus b := by
  split
  · exact ht
  · exact hu

/-- No command reads the bus's answer. -/
theorem exec_withBus (i : Instr) : exec i (s.withBus b) = outcomeWithBus b (exec i s) := by
  cases i with
  | xchg => exact congrArg Host.Outcome.next (ite_withBus b (submitted_withBus b s _ _ _ (f := finishXchg _ _) rfl) rfl)
  | read id => exact congrArg Host.Outcome.next (submitted_withBus b s _ _ _ (f := finishRead _ _ _) rfl)
  | writeDry id offset =>
    exact congrArg Host.Outcome.next (ite_withBus b
      (submitted_withBus b s _ _ _ (f := finishWriteDry _ _ _ _) (finishWriteDry_withBus b s _ _ _ _)) rfl)
  | writeCommit id offset =>
    exact congrArg Host.Outcome.next (ite_withBus b
      (submitted_withBus b s _ _ _ (f := commitWrite _ _ _ _) (commitWrite_withBus b s _ _ _ _)) rfl)
  | encode op id => exact congrArg Host.Outcome.next (ite_withBus b rfl rfl)
  | validate => exact congrArg Host.Outcome.next (ite_withBus b rfl rfl)
  | classify id => rfl
  | decode code =>
    simp only [exec, execDecode, outcomeWithBus, withBus_cfg, withBus_active, withBus_port]
    cases typeOfCode code with
    | none => rfl
    | some ty => exact congrArg Host.Outcome.next (ite_withBus b rfl rfl)
  | rawbyte offset => exact congrArg Host.Outcome.next (ite_withBus b rfl rfl)

/-! ### The engines -/

theorem deliver_withBus (p : PortId) (r : TransportResult) : deliver p r (s.withBus b) = (deliver p r s).withBus b := by
  simp only [deliver, withBus_port]
  cases (s.port p).seq with
  | idle | localCmd | xchgWait | rdWait | wrCommitWait => rfl
  | wrReadWait =>
    exact ite_withBus b (commitWrite_withBus b s _ _ _ _) (finishWriteDry_withBus b s _ _ _ _)

theorem handOver_withBus (p : PortId) (r : TransportResult) :
    handOver p r (s.withBus b) = (handOver p r s).withBus b := deliver_withBus b (s.modPort p Port.stopWait) p r

theorem clientTick_withBus (p : PortId) : clientTick p (s.withBus b) = (clientTick p s).withBus b := by
  exact ite_withBus b (handOver_withBus b s p _) rfl

/-- An engine's turn reads no answer of the bus. -/
theorem engineTurn_withBus (x : CycleInput) (s0 : State) (p : PortId) :
    engineTurn x s0 p (s.withBus b) = outcomeWithBus b (engineTurn x s0 p s) := by
  unfold engineTurn
  split
  · unfold runCommand
    rw [withBus_port]
    split
    · exact exec_withBus b { s with active := p } _
    · rfl
  · unfold engineWait
    split
    · rfl
    · split
      · exact congrArg Host.Outcome.next (handOver_withBus b s p _)
      · split
        · exact congrArg Host.Outcome.next (clientTick_withBus b s p)
        · rfl

end

/-- The engines' turns read no answer of the bus. -/
theorem enginesTurn_withBus (b : BusResponse) (x : CycleInput) (s0 : State) (ps : List PortId) (s : State) :
    enginesTurn x s0 ps (s.withBus b) = outcomeWithBus b (enginesTurn x s0 ps s) := by
  induction ps generalizing s with
  | nil => rfl
  | cons p ps ih =>
    simp only [enginesTurn]
    rw [engineTurn_withBus]
    cases engineTurn x s0 p s with
    | next t => exact ih t
    | fault f => rfl
    | refused r => rfl

/-! ### The receive side and the controller -/

section
variable (b : BusResponse) (s : State)

theorem takeByte_withBus (v : Byte) : takeByte v (s.withBus b) = (takeByte v s).withBus b := by
  cases hs : s.rxState with
  | idle | complete | errProtocol | errTimeout =>
    have hsame : ∀ u : State, u.rxState = s.rxState → takeByte v u = u := fun u hu => by simp only [takeByte, hu, hs]
    rw [hsame s rfl, hsame (s.withBus b) rfl]
  | awaitMarker =>
    by_cases hv : v = 0x02
    · subst hv
      rw [takeByte_marker hs, takeByte_marker (s := s.withBus b) hs]
      rfl
    · rw [takeByte_wrong_marker hs hv, takeByte_wrong_marker (s := s.withBus b) hs hv]
      rfl
  | awaitHeader1 =>
    rw [takeByte_header1 hs, takeByte_header1 (s := s.withBus b) hs]
    rfl
  | awaitHeader2 =>
    rw [takeByte_header2 hs, takeByte_header2 (s := s.withBus b) hs]
    rfl
  | accum =>
    rw [takeByte_accum hs, takeByte_accum (s := s.withBus b) hs]
    rfl

theorem byteTick_withBus : byteTick (s.withBus b) = (byteTick s).withBus b := by
  exact ite_withBus b rfl rfl

theorem pushByte_withBus (x : CycleInput) (s0 : State) : pushByte x s0 (s.withBus b) = (pushByte x s0 s).withBus b := by
  unfold pushByte
  split
  · rfl
  · split <;> rfl

/-- The receive side's turn reads no answer of the bus. -/
theorem receiveTurn_withBus (x : CycleInput) (s0 : State) :
    receiveTurn x s0 (s.withBus b) = (receiveTurn x s0 s).withBus b := by
  unfold receiveTurn
  split
  · unfold flushFifo
    split
    · rfl
    · split
      · rfl
      · rw [pushByte_withBus]
        rfl
  · split
    · split
      · rw [takeByte_withBus]
        rfl
      · split
        · exact byteTick_withBus b s
        · rfl
    · exact pushByte_withBus b s x s0

theorem popRequest_withBus : (s.withBus b).popRequest = s.popRequest.withBus b := by
  cases hq : s.rq with
  | nil =>
    have hsame : ∀ u : State, u.rq = s.rq → u.popRequest = u := fun u hu => by rw [State.popRequest, hu, hq]
    rw [hsame s rfl, hsame (s.withBus b) rfl]
  | cons r rest =>
    rw [popRequest_cons hq, popRequest_cons (s := s.withBus b) hq]
    rfl

theorem latePop_withBus (s0 : State) : latePop s0 (s.withBus b) = (latePop s0 s).withBus b := by
  unfold latePop
  split
  · exact popRequest_withBus b s
  · rfl

theorem earlyPop_withBus (s0 : State) : earlyPop s0 (s.withBus b) = (earlyPop s0 s).withBus b := by
  unfold earlyPop
  split
  · exact popRequest_withBus b s
  · rfl

/-- The controller's turn reads no answer of the bus. -/
theorem arbiterTurn_withBus (x : CycleInput) (s0 : State) :
    arbiterTurn x s0 (s.withBus b) = (arbiterTurn x s0 s).withBus b := by
  unfold arbiterTurn
  split
  · exact earlyPop_withBus b s s0
  · split <;> rfl
  · split <;> rfl
  · exact earlyPop_withBus b { s with arb := .idle } s0

end

/-! ### The cycle with a read -/

/-- Of the inputs the engines read the tick alone. -/
theorem enginesTurn_congr_input {x x' : CycleInput} (htick : x'.tick = x.tick) (s0 : State) (ps : List PortId) (s : State) :
    enginesTurn x' s0 ps s = enginesTurn x s0 ps s := by
  induction ps generalizing s with
  | nil => rfl
  | cons p ps ih => simp only [enginesTurn, engineTurn, engineWait, htick, ih]

/-- The receive side minds no read. -/
theorem receiveTurn_read {x : CycleInput} (hx : x.host = .idle) (addr : HostAddr) (s0 s : State) :
    receiveTurn { x with host := .read addr } s0 s = receiveTurn x s0 s := by
  have hpush : pushByte { x with host := .read addr } s0 s = pushByte x s0 s := by
    simp only [pushByte, overflow, clearsOverflow, hx]
    rfl
  have hflush : flushFifo { x with host := .read addr } s0 s = flushFifo x s0 s := by
    simp only [flushFifo, hpush]
  unfold receiveTurn
  rw [hpush, hflush]
  rfl

/-- A read reaches the turns before the engines through the bus's answer alone. -/
theorem beforeEngines_read {x : CycleInput} (hx : x.host = .idle) (s : State) (addr : HostAddr) :
    beforeEngines { x with host := .read addr } s =
      (beforeEngines x s).withBus (.read (hostRead s addr).1 (hostRead s addr).2) := by
  have hhost : hostTurn { x with host := .read addr } (s.outputs { x with host := .read addr }) =
      (hostTurn x (s.outputs x)).withBus (.read (hostRead s addr).1 (hostRead s addr).2) := by
    simp only [hostTurn, hx]
    rfl
  rw [beforeEngines, hhost, receiveTurn_read hx, receiveTurn_withBus]
  exact arbiterTurn_withBus _ _ x s

/-- A cycle with a read is the cycle with no access, but for the bus's answer. -/
theorem cycleWith_read {x : CycleInput} (hx : x.host = .idle) (s : State) (addr : HostAddr) :
    cycleWith { x with host := .read addr } s =
      outcomeWithBus (.read (hostRead s addr).1 (hostRead s addr).2) (cycleWith x s) := by
  have hresets : resetsNow { x with host := .read addr } s = resetsNow x s := by simp only [resetsNow, softReset, hx]
  cases hr : resetsNow x s with
  | true =>
    rw [cycleWith_reset hr, cycleWith_reset (hresets.trans hr)]
    rfl
  | false =>
    unfold cycleWith
    rw [hresets, hr, beforeEngines_read hx, enginesTurn_withBus,
      enginesTurn_congr_input (x := x) (x' := { x with host := .read addr }) rfl]
    cases enginesTurn x s allPorts (beforeEngines x s) with
    | next u => exact congrArg Host.Outcome.next (latePop_withBus _ u s)
    | fault f => rfl
    | refused r => rfl

/-- Settles O49: `cycleWith_read`. -/
theorem readsHaveNoSideEffect : Obligations.ReadsHaveNoSideEffect := by
  intro x s addr hx
  obtain ⟨t, h⟩ := cycleWith_total x s
  have hread := cycleWith_read hx s addr
  rw [h] at hread
  exact ⟨t, _, h, hread, rfl, rfl⟩

end Sys2Proof.Machine
